-- ==== Sys2Proof/Word.lean ====
section
/-!
DEFINITION. The plain words of FFA257: the 32-bit word of a command and of a scalar register
(R8, R10, R60), the byte of cover memory (R28), the number of a scalar register (R10, R69) and the
field element (R12, R100).
-/

namespace Sys2Proof

/-- A 32-bit word: a command word (R60) or the content of a scalar register (R10). -/
abbrev Word := BitVec 32

/-- A byte: a cell of cover memory (R28), an evaluation (R20), a mask byte (R161). -/
abbrev Byte := BitVec 8

/-- The 16-bit state and seed of the mask generator (R26). -/
abbrev MaskState := BitVec 16

/-- The number of a scalar register, 0 to 15 (R10, R69). -/
abbrev RegIdx := Fin 16

/-- A field element, "an integer in [0, modulus)", the modulus being 257 (R100). -/
abbrev Felt := Fin 257

end Sys2Proof
end

