-- ==== Sys2Proof/Config.lean ====
section
/-!
DEFINITION. What an implementation of FFA257 fixes: the fixed and the named parameters of R7, and the
two parameters that are free (the content of cover memory at power-up, R31; a mask generator other
than LCG16, R161). A free one is a constant with no body, so that no proof can see its value.
-/

namespace Sys2Proof.Config

/-- `CV_INIT` (R7, R31): what a byte of cover memory that nothing has written since power-up holds.
"A model quantifies over `CV_INIT`; it must not take it to be zero." -/
opaque cvInit : Nat → Byte

/-- A mask generator other than LCG16 (R7, R161): a pure function from the 16-bit state to the next
state and the output byte, of which nothing else is known. -/
opaque otherMaskStep : MaskState → MaskState × Byte

/-- The named parameter `MASKGEN` (R7, R161): LCG16, which is the default, or some other generator. -/
inductive MaskGen where
  | lcg16
  | other
  deriving DecidableEq, Repr

/-- The named parameters of R7 with the constraints it puts on them. A configuration below the stated
minima cannot be written down (U5 of 93_implementation_defined.md: it is refused). -/
structure Params where
  /-- `MAT_MAX_ROWS`, at least 257. -/
  matMaxRows : Nat
  /-- `MAT_MAX_COLS`, at least 258. -/
  matMaxCols : Nat
  /-- `COVER_MEM_BYTES`, from 8 to 2^32 - 8. -/
  coverMemBytes : Nat
  /-- `MASKGEN`. -/
  maskGen : MaskGen
  rows_min : 257 ≤ matMaxRows
  cols_min : 258 ≤ matMaxCols
  cover_min : 8 ≤ coverMemBytes
  cover_max : coverMemBytes ≤ 4294967288
  deriving DecidableEq, Repr

/-- The defaults of R7: 257 rows, 514 columns, 2^24 bytes of cover memory, LCG16. -/
def defaultParams : Params where
  matMaxRows := 257
  matMaxCols := 514
  coverMemBytes := 16777216
  maskGen := .lcg16
  rows_min := by decide
  cols_min := by decide
  cover_min := by decide
  cover_max := by decide

/-- Entries of the coefficient and point buffers, `CB_SIZE` and `PT_SIZE` (R7). -/
abbrev bufSize : Nat := 257

/-- Entries of the evaluation buffer, `EV_SIZE` (R7). -/
abbrev evSize : Nat := 256

end Sys2Proof.Config
end

