-- ==== Sys2Proof/Syntax.lean ====
section
/-!
DEFINITION. The commands of FFA257, one constructor for each of the 51 rows of spec/opcode_table.json
(R67), with the register, bank, immediate and CSR fields each row uses, in assembly operand order.
-/

namespace Sys2Proof

/-- The subject bank of a matrix command (R63): bank bit 0 is `MA`, bank bit 1 is `MB`. -/
inductive BankSel where
  | A
  | B
  deriving DecidableEq, Repr

/-- The commands of R67. -/
inductive Instr where
  -- control, move and configuration (40_control.md)
  | nop
  | li (rd : RegIdx) (imm16 : BitVec 16)
  | lih (rd : RegIdx) (imm16 : BitVec 16)
  | mov (rd ra : RegIdx)
  | csrr (rd : RegIdx) (csr : BitVec 8)
  | out (ra : RegIdx)
  | errack
  | srst
  | kset (ra : RegIdx)
  | nset (ra : RegIdx)
  -- field ALU (41_field_alu.md)
  | fzero (rd : RegIdx)
  | fone (rd : RegIdx)
  | fadd (rd ra rb : RegIdx)
  | fmul (rd ra rb : RegIdx)
  | fneg (rd ra : RegIdx)
  | finv (rd ra : RegIdx)
  | feq (rd ra rb : RegIdx)
  -- linear system (42_linear_system.md)
  | mnew (b : BankSel) (ra rb : RegIdx)
  | mset (b : BankSel) (ra rb rc : RegIdx)
  | mget (b : BankSel) (rd ra rb : RegIdx)
  | mswap (b : BankSel) (ra rb : RegIdx)
  | mscale (b : BankSel) (ra rb : RegIdx)
  | maddsr (b : BankSel) (ra rb rc : RegIdx)
  | mappc (b : BankSel)
  | mappr (b : BankSel)
  | mrref (b : BankSel)
  | minv (b : BankSel)
  | mdet (b : BankSel) (rd : RegIdx)
  -- interpolation (43_interpolation.md)
  | ptset (ra rb rc : RegIdx)
  | mvand (b : BankSel)
  | isolve
  -- mask stream (44_mask_stream.md)
  | mseed (ra rb : RegIdx)
  | mnext (rd : RegIdx)
  | mxor (rd ra : RegIdx)
  | mxorb
  -- cover memory and bit channel (45_bit_channel.md)
  | bcopen (ra rb : RegIdx)
  | cvst1 (ra rb : RegIdx)
  | cvst2 (ra rb : RegIdx)
  | cvst4 (ra rb : RegIdx)
  | cvld1 (rd ra : RegIdx)
  | cvld2 (rd ra : RegIdx)
  | cvld4 (rd ra : RegIdx)
  | embed (ra rb : RegIdx)
  | extract (rd ra : RegIdx)
  | embedc (ra : RegIdx)
  | extractc (rd : RegIdx)
  -- polynomial evaluator (46_poly_eval.md)
  | cset (ra rb : RegIdx)
  | cget (rd ra : RegIdx)
  | peval (rd ra : RegIdx)
  | pshare
  | eget (rd ra : RegIdx)
  deriving DecidableEq, Repr

/-- The 25 control and status registers of R23. -/
inductive Csr where
  | modulus | version | status | errcode | errinfo | errcmd | errseq | cmdcnt | kreg | nreg | corrcnt
  | buflen | payoff | cursor | capacity
  | prseed | prstate | prrem
  | marows | macols | mbrows | mbcols
  | matmaxr | matmaxc | covmax
  deriving DecidableEq, Repr

end Sys2Proof
end

