-- ==== Sys2Proof/WellFormed.lean ====
section
/-!
DEFINITION. Which terms of `Instr` are commands. Register numbers, the bank bit and the immediate are
legal at every value their fields admit (R68, R69); the one field with illegal values is the CSR number
of CSRR (R71).
-/

namespace Sys2Proof

/-- The CSR numbers of R71: 0x00 to 0x0A, 0x10 to 0x13, 0x18 to 0x1A, 0x20 to 0x23, 0x28 to 0x2A. -/
def csrNumberLegal (csr : BitVec 8) : Bool :=
  let n := csr.toNat
  n ≤ 0x0A || (0x10 ≤ n && n ≤ 0x13) || (0x18 ≤ n && n ≤ 0x1A) || (0x20 ≤ n && n ≤ 0x23)
    || (0x28 ≤ n && n ≤ 0x2A)

/-- A term of `Instr` that is a command of R67 (R70, R71): only a CSRR can fail to be one. -/
def Instr.wellFormed : Instr → Bool
  | .csrr _ csr => csrNumberLegal csr
  | .nop | .li _ _ | .lih _ _ | .mov _ _ | .out _ | .errack | .srst | .kset _ | .nset _
  | .fzero _ | .fone _ | .fadd _ _ _ | .fmul _ _ _ | .fneg _ _ | .finv _ _ | .feq _ _ _
  | .mnew _ _ _ | .mset _ _ _ _ | .mget _ _ _ _ | .mswap _ _ _ | .mscale _ _ _ | .maddsr _ _ _ _
  | .mappc _ | .mappr _ | .mrref _ | .minv _ | .mdet _ _
  | .ptset _ _ _ | .mvand _ | .isolve
  | .mseed _ _ | .mnext _ | .mxor _ _ | .mxorb
  | .bcopen _ _ | .cvst1 _ _ | .cvst2 _ _ | .cvst4 _ _ | .cvld1 _ _ | .cvld2 _ _ | .cvld4 _ _
  | .embed _ _ | .extract _ _ | .embedc _ | .extractc _
  | .cset _ _ | .cget _ _ | .peval _ _ | .pshare | .eget _ _ => true

end Sys2Proof
end

