-- ==== Sys2Proof/Decode.lean ====
section
/-!
DEFINITION. Decoding a command word (R61 to R74), total and rejecting by name, and after it the encoder
written from the same tables, the CSR numbers (R23) and the one pseudo-instruction (R76).
-/

namespace Sys2Proof

/-! ### Fields of a word (R61) -/

/-- `op = w[31:24]`. -/
def opField (w : Word) : BitVec 8 := w.extractLsb' 24 8

/-- `rd = w[23:20]`. -/
def rdField (w : Word) : RegIdx := (w.extractLsb' 20 4).toFin

/-- `ra = w[19:16]`. -/
def raField (w : Word) : RegIdx := (w.extractLsb' 16 4).toFin

/-- `rb = w[15:12]`. -/
def rbField (w : Word) : RegIdx := (w.extractLsb' 12 4).toFin

/-- `rc = w[11:8]`. -/
def rcField (w : Word) : RegIdx := (w.extractLsb' 8 4).toFin

/-- `fn = w[7:0]`, in format C the CSR number (R65). -/
def fnField (w : Word) : BitVec 8 := w.extractLsb' 0 8

/-- `imm16 = w[15:0]`, neither extended nor scaled (R68). -/
def immField (w : Word) : BitVec 16 := w.extractLsb' 0 16

/-- The bank bit `b = w[0]` of format M (R63). -/
def bankField (w : Word) : BankSel := if w.getLsbD 0 then .B else .A

/-! ### CSR numbers (R23) -/

/-- The CSR a number of R23 names; a number not in the table names none (R71). -/
def csrOfNumber (number : BitVec 8) : Option Csr :=
  [(0x00#8, Csr.modulus), (0x01#8, .version), (0x02#8, .status), (0x03#8, .errcode),
   (0x04#8, .errinfo), (0x05#8, .errcmd), (0x06#8, .errseq), (0x07#8, .cmdcnt), (0x08#8, .kreg),
   (0x09#8, .nreg), (0x0A#8, .corrcnt), (0x10#8, .buflen), (0x11#8, .payoff), (0x12#8, .cursor),
   (0x13#8, .capacity), (0x18#8, .prseed), (0x19#8, .prstate), (0x1A#8, .prrem),
   (0x20#8, .marows), (0x21#8, .macols), (0x22#8, .mbrows), (0x23#8, .mbcols),
   (0x28#8, .matmaxr), (0x29#8, .matmaxc), (0x2A#8, .covmax)].lookup number

/-! ### The opcode table (R66, R67) -/

/-- A row of the opcode table: "a word `w` is the row's command iff `w AND mask = match`" (R66). -/
structure OpRow where
  mnemonic : String
  pattern : Word
  mask : Word
  build : Word → Instr

/-- The rows of R67 with opcodes 0x00 to 0x09. -/
def controlRows : List OpRow := [
  ⟨"NOP", 0x00000000#32, 0xFFFFFFFF#32, fun _ => .nop⟩,
  ⟨"LI", 0x01000000#32, 0xFF0F0000#32, fun w => .li (rdField w) (immField w)⟩,
  ⟨"LIH", 0x02000000#32, 0xFF0F0000#32, fun w => .lih (rdField w) (immField w)⟩,
  ⟨"MOV", 0x03000000#32, 0xFF00FFFF#32, fun w => .mov (rdField w) (raField w)⟩,
  ⟨"CSRR", 0x04000000#32, 0xFF0FFF00#32, fun w => .csrr (rdField w) (fnField w)⟩,
  ⟨"OUT", 0x05000000#32, 0xFFF0FFFF#32, fun w => .out (raField w)⟩,
  ⟨"ERRACK", 0x06000000#32, 0xFFFFFFFF#32, fun _ => .errack⟩,
  ⟨"SRST", 0x07000000#32, 0xFFFFFFFF#32, fun _ => .srst⟩,
  ⟨"KSET", 0x08000000#32, 0xFFF0FFFF#32, fun w => .kset (raField w)⟩,
  ⟨"NSET", 0x09000000#32, 0xFFF0FFFF#32, fun w => .nset (raField w)⟩]

/-- The rows of R67 with opcodes 0x10 to 0x16. -/
def fieldAluRows : List OpRow := [
  ⟨"FZERO", 0x10000000#32, 0xFF0FFFFF#32, fun w => .fzero (rdField w)⟩,
  ⟨"FONE", 0x11000000#32, 0xFF0FFFFF#32, fun w => .fone (rdField w)⟩,
  ⟨"FADD", 0x12000000#32, 0xFF000FFF#32, fun w => .fadd (rdField w) (raField w) (rbField w)⟩,
  ⟨"FMUL", 0x13000000#32, 0xFF000FFF#32, fun w => .fmul (rdField w) (raField w) (rbField w)⟩,
  ⟨"FNEG", 0x14000000#32, 0xFF00FFFF#32, fun w => .fneg (rdField w) (raField w)⟩,
  ⟨"FINV", 0x15000000#32, 0xFF00FFFF#32, fun w => .finv (rdField w) (raField w)⟩,
  ⟨"FEQ", 0x16000000#32, 0xFF000FFF#32, fun w => .feq (rdField w) (raField w) (rbField w)⟩]

/-- The rows of R67 with opcodes 0x20 to 0x2A. -/
def linearSystemRows : List OpRow := [
  ⟨"MNEW", 0x20000000#32, 0xFFF00FFE#32, fun w => .mnew (bankField w) (raField w) (rbField w)⟩,
  ⟨"MSET", 0x21000000#32, 0xFFF000FE#32, fun w => .mset (bankField w) (raField w) (rbField w) (rcField w)⟩,
  ⟨"MGET", 0x22000000#32, 0xFF000FFE#32, fun w => .mget (bankField w) (rdField w) (raField w) (rbField w)⟩,
  ⟨"MSWAP", 0x23000000#32, 0xFFF00FFE#32, fun w => .mswap (bankField w) (raField w) (rbField w)⟩,
  ⟨"MSCALE", 0x24000000#32, 0xFFF00FFE#32, fun w => .mscale (bankField w) (raField w) (rbField w)⟩,
  ⟨"MADDSR", 0x25000000#32, 0xFFF000FE#32, fun w => .maddsr (bankField w) (raField w) (rbField w) (rcField w)⟩,
  ⟨"MAPPC", 0x26000000#32, 0xFFFFFFFE#32, fun w => .mappc (bankField w)⟩,
  ⟨"MAPPR", 0x27000000#32, 0xFFFFFFFE#32, fun w => .mappr (bankField w)⟩,
  ⟨"MRREF", 0x28000000#32, 0xFFFFFFFE#32, fun w => .mrref (bankField w)⟩,
  ⟨"MINV", 0x29000000#32, 0xFFFFFFFE#32, fun w => .minv (bankField w)⟩,
  ⟨"MDET", 0x2A000000#32, 0xFF0FFFFE#32, fun w => .mdet (bankField w) (rdField w)⟩]

/-- The rows of R67 with opcodes 0x30 to 0x32. -/
def interpolationRows : List OpRow := [
  ⟨"PTSET", 0x30000000#32, 0xFFF000FF#32, fun w => .ptset (raField w) (rbField w) (rcField w)⟩,
  ⟨"MVAND", 0x31000000#32, 0xFFFFFFFE#32, fun w => .mvand (bankField w)⟩,
  ⟨"ISOLVE", 0x32000000#32, 0xFFFFFFFF#32, fun _ => .isolve⟩]

/-- The rows of R67 with opcodes 0x40 to 0x43. -/
def maskStreamRows : List OpRow := [
  ⟨"MSEED", 0x40000000#32, 0xFFF00FFF#32, fun w => .mseed (raField w) (rbField w)⟩,
  ⟨"MNEXT", 0x41000000#32, 0xFF0FFFFF#32, fun w => .mnext (rdField w)⟩,
  ⟨"MXOR", 0x42000000#32, 0xFF00FFFF#32, fun w => .mxor (rdField w) (raField w)⟩,
  ⟨"MXORB", 0x43000000#32, 0xFFFFFFFF#32, fun _ => .mxorb⟩]

/-- The rows of R67 with opcodes 0x50 to 0x5A. -/
def bitChannelRows : List OpRow := [
  ⟨"BCOPEN", 0x50000000#32, 0xFFF00FFF#32, fun w => .bcopen (raField w) (rbField w)⟩,
  ⟨"CVST1", 0x51000000#32, 0xFFF00FFF#32, fun w => .cvst1 (raField w) (rbField w)⟩,
  ⟨"CVST2", 0x52000000#32, 0xFFF00FFF#32, fun w => .cvst2 (raField w) (rbField w)⟩,
  ⟨"CVST4", 0x53000000#32, 0xFFF00FFF#32, fun w => .cvst4 (raField w) (rbField w)⟩,
  ⟨"CVLD1", 0x54000000#32, 0xFF00FFFF#32, fun w => .cvld1 (rdField w) (raField w)⟩,
  ⟨"CVLD2", 0x55000000#32, 0xFF00FFFF#32, fun w => .cvld2 (rdField w) (raField w)⟩,
  ⟨"CVLD4", 0x56000000#32, 0xFF00FFFF#32, fun w => .cvld4 (rdField w) (raField w)⟩,
  ⟨"EMBED", 0x57000000#32, 0xFFF00FFF#32, fun w => .embed (raField w) (rbField w)⟩,
  ⟨"EXTRACT", 0x58000000#32, 0xFF00FFFF#32, fun w => .extract (rdField w) (raField w)⟩,
  ⟨"EMBEDC", 0x59000000#32, 0xFFF0FFFF#32, fun w => .embedc (raField w)⟩,
  ⟨"EXTRACTC", 0x5A000000#32, 0xFF0FFFFF#32, fun w => .extractc (rdField w)⟩]

/-- The rows of R67 with opcodes 0x60 to 0x64. -/
def polyEvalRows : List OpRow := [
  ⟨"CSET", 0x60000000#32, 0xFFF00FFF#32, fun w => .cset (raField w) (rbField w)⟩,
  ⟨"CGET", 0x61000000#32, 0xFF00FFFF#32, fun w => .cget (rdField w) (raField w)⟩,
  ⟨"PEVAL", 0x62000000#32, 0xFF00FFFF#32, fun w => .peval (rdField w) (raField w)⟩,
  ⟨"PSHARE", 0x63000000#32, 0xFFFFFFFF#32, fun _ => .pshare⟩,
  ⟨"EGET", 0x64000000#32, 0xFF00FFFF#32, fun w => .eget (rdField w) (raField w)⟩]

/-- The 51 rows of R67. -/
def opTable : List OpRow :=
  controlRows ++ fieldAluRows ++ linearSystemRows ++ interpolationRows ++ maskStreamRows
    ++ bitChannelRows ++ polyEvalRows

/-- Why a word is illegal (R70). -/
inductive Illegal where
  /-- No row of R67 has the word's opcode. -/
  | unknownOpcode
  /-- A field the command does not use is not 0 (R66). -/
  | unusedFieldSet
  /-- A CSRR of a number that is not in the table of R23 (R71). -/
  | unknownCsr
  deriving DecidableEq, Repr

/-- The check of R71 on a command that has passed its row's mask: a CSRR names a CSR of R23. -/
def csrKnown : Instr → Bool
  | .csrr _ csr => (csrOfNumber csr).isSome
  | _ => true

/-- The procedure of R74: the row with the word's opcode, then the row's mask and match, then the CSR
number. -/
def decode (w : Word) : Except Illegal Instr :=
  match opTable.find? (fun row => opField row.pattern == opField w) with
  | none => .error .unknownOpcode
  | some row =>
    if w &&& row.mask = row.pattern then
      if csrKnown (row.build w) then .ok (row.build w) else .error .unknownCsr
    else .error .unusedFieldSet

/-! ### Encoding (R61 to R65) -/

/-- A word from its fields (R61): `op | rd | ra | rb | rc | fn`. -/
def formatR (op : BitVec 8) (rd ra rb rc : BitVec 4) (fn : BitVec 8) : Word :=
  op ++ rd ++ ra ++ rb ++ rc ++ fn

/-- Format I (R64): `op | rd | 0000 | imm16`. -/
def formatI (op : BitVec 8) (rd : BitVec 4) (imm16 : BitVec 16) : Word :=
  op ++ rd ++ 0#4 ++ imm16

/-- The function byte of format M (R63): seven zero bits and the bank bit. -/
def bankByte : BankSel → BitVec 8
  | .A => 0
  | .B => 1

/-- The command word of a command (R62 to R67). Every field a command does not use is 0 (R66). -/
def encode : Instr → Word
  | .nop => formatR 0x00#8 0 0 0 0 0
  | .li rd imm16 => formatI 0x01#8 (.ofFin rd) imm16
  | .lih rd imm16 => formatI 0x02#8 (.ofFin rd) imm16
  | .mov rd ra => formatR 0x03#8 (.ofFin rd) (.ofFin ra) 0 0 0
  | .csrr rd csr => formatR 0x04#8 (.ofFin rd) 0 0 0 csr
  | .out ra => formatR 0x05#8 0 (.ofFin ra) 0 0 0
  | .errack => formatR 0x06#8 0 0 0 0 0
  | .srst => formatR 0x07#8 0 0 0 0 0
  | .kset ra => formatR 0x08#8 0 (.ofFin ra) 0 0 0
  | .nset ra => formatR 0x09#8 0 (.ofFin ra) 0 0 0
  | .fzero rd => formatR 0x10#8 (.ofFin rd) 0 0 0 0
  | .fone rd => formatR 0x11#8 (.ofFin rd) 0 0 0 0
  | .fadd rd ra rb => formatR 0x12#8 (.ofFin rd) (.ofFin ra) (.ofFin rb) 0 0
  | .fmul rd ra rb => formatR 0x13#8 (.ofFin rd) (.ofFin ra) (.ofFin rb) 0 0
  | .fneg rd ra => formatR 0x14#8 (.ofFin rd) (.ofFin ra) 0 0 0
  | .finv rd ra => formatR 0x15#8 (.ofFin rd) (.ofFin ra) 0 0 0
  | .feq rd ra rb => formatR 0x16#8 (.ofFin rd) (.ofFin ra) (.ofFin rb) 0 0
  | .mnew b ra rb => formatR 0x20#8 0 (.ofFin ra) (.ofFin rb) 0 (bankByte b)
  | .mset b ra rb rc => formatR 0x21#8 0 (.ofFin ra) (.ofFin rb) (.ofFin rc) (bankByte b)
  | .mget b rd ra rb => formatR 0x22#8 (.ofFin rd) (.ofFin ra) (.ofFin rb) 0 (bankByte b)
  | .mswap b ra rb => formatR 0x23#8 0 (.ofFin ra) (.ofFin rb) 0 (bankByte b)
  | .mscale b ra rb => formatR 0x24#8 0 (.ofFin ra) (.ofFin rb) 0 (bankByte b)
  | .maddsr b ra rb rc => formatR 0x25#8 0 (.ofFin ra) (.ofFin rb) (.ofFin rc) (bankByte b)
  | .mappc b => formatR 0x26#8 0 0 0 0 (bankByte b)
  | .mappr b => formatR 0x27#8 0 0 0 0 (bankByte b)
  | .mrref b => formatR 0x28#8 0 0 0 0 (bankByte b)
  | .minv b => formatR 0x29#8 0 0 0 0 (bankByte b)
  | .mdet b rd => formatR 0x2A#8 (.ofFin rd) 0 0 0 (bankByte b)
  | .ptset ra rb rc => formatR 0x30#8 0 (.ofFin ra) (.ofFin rb) (.ofFin rc) 0
  | .mvand b => formatR 0x31#8 0 0 0 0 (bankByte b)
  | .isolve => formatR 0x32#8 0 0 0 0 0
  | .mseed ra rb => formatR 0x40#8 0 (.ofFin ra) (.ofFin rb) 0 0
  | .mnext rd => formatR 0x41#8 (.ofFin rd) 0 0 0 0
  | .mxor rd ra => formatR 0x42#8 (.ofFin rd) (.ofFin ra) 0 0 0
  | .mxorb => formatR 0x43#8 0 0 0 0 0
  | .bcopen ra rb => formatR 0x50#8 0 (.ofFin ra) (.ofFin rb) 0 0
  | .cvst1 ra rb => formatR 0x51#8 0 (.ofFin ra) (.ofFin rb) 0 0
  | .cvst2 ra rb => formatR 0x52#8 0 (.ofFin ra) (.ofFin rb) 0 0
  | .cvst4 ra rb => formatR 0x53#8 0 (.ofFin ra) (.ofFin rb) 0 0
  | .cvld1 rd ra => formatR 0x54#8 (.ofFin rd) (.ofFin ra) 0 0 0
  | .cvld2 rd ra => formatR 0x55#8 (.ofFin rd) (.ofFin ra) 0 0 0
  | .cvld4 rd ra => formatR 0x56#8 (.ofFin rd) (.ofFin ra) 0 0 0
  | .embed ra rb => formatR 0x57#8 0 (.ofFin ra) (.ofFin rb) 0 0
  | .extract rd ra => formatR 0x58#8 (.ofFin rd) (.ofFin ra) 0 0 0
  | .embedc ra => formatR 0x59#8 0 (.ofFin ra) 0 0 0
  | .extractc rd => formatR 0x5A#8 (.ofFin rd) 0 0 0 0
  | .cset ra rb => formatR 0x60#8 0 (.ofFin ra) (.ofFin rb) 0 0
  | .cget rd ra => formatR 0x61#8 (.ofFin rd) (.ofFin ra) 0 0 0
  | .peval rd ra => formatR 0x62#8 (.ofFin rd) (.ofFin ra) 0 0 0
  | .pshare => formatR 0x63#8 0 0 0 0 0
  | .eget rd ra => formatR 0x64#8 (.ofFin rd) (.ofFin ra) 0 0 0

/-! ### The pseudo-instruction (R76) and the opcode table's numbering -/

/-- `LI32 rd, imm32`: `LI rd, imm32[15:0]` followed by `LIH rd, imm32[31:16]`, always two words (R76). -/
def li32 (rd : RegIdx) (imm32 : Word) : List Instr :=
  [.li rd (imm32.extractLsb' 0 16), .lih rd (imm32.extractLsb' 16 16)]

/-- The command the decoder reads from a table row's bits. A command is one 32-bit word (R60), handed over
whole, so no order of bytes enters; bits from `nbits` up are 0. -/
def decodeTableWord (nbits w : Nat) : Option Instr :=
  match decode (BitVec.ofNat 32 (w % 2 ^ nbits)) with
  | .ok i => some i
  | .error _ => none

end Sys2Proof
end

