-- ==== Sys2Proof/Machine/State.lean ====
section
/-!
DEFINITION. The architectural state of FFA257 (10_state.md) as plain data, the reasons a step could stop,
and the state after reset (R30).
-/

namespace Sys2Proof.Machine

open Sys2Proof (Word Byte MaskState RegIdx Felt)

/-! ### Cover memory -/

/-- Cover memory `CV` (R28): the bytes commands have written since power-up, by address, addresses
strictly rising. An address that is not listed has not been written: at this level it holds no byte, and
the byte a command reads there is the free value `Config.cvInit` (R31). -/
abbrev Memory := List Host.Cell

/-- The canonical form of `Memory`: addresses strictly rising, so that memories in which the same bytes have
been written with the same values are equal data. -/
def Memory.wf : Memory → Bool
  | [] => true
  | [_] => true
  | a :: b :: rest => a.1 < b.1 && Memory.wf (b :: rest)

/-! ### Matrix banks -/

/-- A matrix bank (R16): `rows`, `cols` and, row by row, the elements, each `none` (uninitialised) or a
field element (R17). An unconstructed bank has `rows = 0`, `cols = 0` and no elements. -/
structure Bank where
  rows : Nat
  cols : Nat
  cells : List (List (Option Felt))
  deriving DecidableEq, Repr

/-- The unconstructed bank (R16, R30). -/
def Bank.unconstructed : Bank := ⟨0, 0, []⟩

/-! ### The other stores -/

/-- An entry of the point buffer (R21): a pair of field elements. -/
structure Point where
  x : Felt
  y : Felt
  deriving DecidableEq, Repr

/-- What the host does to FFA257 (R5, R33): it hands over a command word at the command port, or asserts
the pin `rst_n` between two commands. -/
inductive HostInput where
  | command (w : Word)
  | pinReset
  deriving DecidableEq, Repr

/-! ### Errors (R231) -/

/-- The fourteen errors of R231. -/
inductive ErrKind where
  | illegalCommand | domainError | degenerateSystem | singularMatrix | outOfSpace | invalidParameters
  | uninitElement | indexRange | dimMismatch | byteRange | maskExhausted | addrRange | operandRange
  | noMatrix
  deriving DecidableEq, Repr

/-- What `raise E(info)` carries (R9): the error and the 32-bit `info`. -/
structure Raise where
  kind : ErrKind
  info : Word
  deriving DecidableEq, Repr

/-! ### The state -/

/-- The architectural state. Every field but the last two is named by 10_state.md; `input` and `params` are
the model's own (log entries 1 and 2): what the host will still do, and the configuration the machine was
built with, which nothing changes. -/
structure State where
  /-- Scalar registers `x0` to `x15` (R10). -/
  x : Vector Word 16
  /-- `FAULTED` (R14); `false` is READY. -/
  faulted : Bool
  /-- `ERRCODE` (R25). -/
  errcode : Word
  /-- `ERRINFO` (R25). -/
  errinfo : Word
  /-- `ERRCMD` (R25). -/
  errcmd : Word
  /-- `ERRSEQ` (R25). -/
  errseq : Word
  /-- `CMDCNT` (R13). -/
  cmdcnt : Word
  /-- `K` (R22): 0, or 2 to 257. -/
  k : Nat
  /-- `N` (R22): 0, or `K` to 256. -/
  n : Nat
  /-- `CORRCNT` (R22). -/
  corrcnt : Word
  /-- Bank `MA`, number 0 (R16). -/
  ma : Bank
  /-- Bank `MB`, number 1 (R16). -/
  mb : Bank
  /-- The coefficient buffer `CB[0..256]` (R19). -/
  cb : Vector Felt Config.bufSize
  /-- The evaluation buffer `EV[1..256]` (R20); `EV[x]` is entry `x - 1` of the vector. -/
  ev : Vector Byte Config.evSize
  /-- The point buffer `PT[0..256]` (R21). -/
  pt : Vector Point Config.bufSize
  /-- `PRSEED` (R26). -/
  prseed : MaskState
  /-- `PRSTATE` (R26). -/
  prstate : MaskState
  /-- `PRREM` (R26). -/
  prrem : Word
  /-- `BUFLEN` (R27). -/
  buflen : Word
  /-- `PAYOFF` (R27). -/
  payoff : Word
  /-- `CURSOR` (R27). -/
  cursor : Word
  /-- Cover memory `CV` (R28). -/
  cv : Memory
  /-- The response stream `RESP`, oldest word first (R29). -/
  resp : List Word
  /-- What the host will still do, next first (the model's own; R5, R13, R33). -/
  input : List HostInput
  /-- The named parameters of R7 (the model's own; R35: a constant of the machine, not architectural state). -/
  params : Config.Params
  deriving DecidableEq, Repr

/-! ### How a step could stop -/

/-- Reasons for which the machine stops. There are none: every command word has exactly one outcome in every
state (R5, R264; section 1 of 93_implementation_defined.md), an error is a next state in FAULTED (R240),
every access to cover memory is checked against `BUFLEN` first (R41), and a step with no input waits (R262).
A type with no constructor says so: no step can end in a fault. -/
inductive Fault where
  deriving DecidableEq, Repr

/-- Reasons for which the model gives no meaning. -/
inductive Refusal where
  /-- Raised by an arm of `exec` for a command that has no meaning yet, never by a meaning. Safe: the run
  stops. No arm raises it in this model. -/
  | notModelled (mnemonic : String)
  deriving DecidableEq, Repr

/-- The outcome of a command or of a step. -/
abbrev StepResult := Host.Outcome State Fault Refusal

/-! ### Reset -/

/-- The reset value of R30 for everything but `CV` and `RESP`, which a reset leaves as they are, and but the
model's own `input` and `params`. -/
def State.resetWith (cv : Memory) (resp : List Word) (input : List HostInput) (params : Config.Params) :
    State where
  x := Vector.replicate 16 0
  faulted := false
  errcode := 0
  errinfo := 0
  errcmd := 0
  errseq := 0
  cmdcnt := 0
  k := 0
  n := 0
  corrcnt := 0
  ma := Bank.unconstructed
  mb := Bank.unconstructed
  cb := Vector.replicate Config.bufSize 0
  ev := Vector.replicate Config.evSize 0
  pt := Vector.replicate Config.bufSize ⟨0, 0⟩
  prseed := 0
  prstate := 0
  prrem := 0
  buflen := 0
  payoff := 0
  cursor := 0
  cv := cv
  resp := resp
  input := input
  params := params

/-- Power-up followed by reset (R30, R31): no byte of cover memory written, `RESP` empty, no command handed
over yet, the default parameters of R7. -/
def State.reset : State := State.resetWith [] [] [] Config.defaultParams

end Sys2Proof.Machine
end

