-- ==== Sys2Proof/Machine/Field.lean ====
section
/-!
DEFINITION. The arithmetic of the field of 257 elements (R100): each result is computed on unbounded
integers and then reduced.
-/

namespace Sys2Proof.Machine

open Sys2Proof (Word Byte Felt)

/-- An integer reduced into `[0, 257)` (R12). -/
def feltOf (v : Nat) : Felt := ⟨v % 257, Nat.mod_lt v (by decide)⟩

/-- `fadd(a,b) = (a + b) mod 257` (R100). -/
def fadd (a b : Felt) : Felt := feltOf (a.val + b.val)

/-- `fmul(a,b) = (a * b) mod 257` (R100). -/
def fmul (a b : Felt) : Felt := feltOf (a.val * b.val)

/-- `fneg(a) = (257 - a) mod 257` (R100). -/
def fneg (a : Felt) : Felt := feltOf (257 - a.val)

/-- `finv(a)`, the reciprocal (R100, R106), by the equal definition `a^255 mod 257` that R110 gives. -/
def finv (a : Felt) : Felt := feltOf (a.val ^ 255)

/-- A field element as the content of a scalar register. -/
def feltWord (a : Felt) : Word := BitVec.ofNat 32 a.val

/-- A byte as the content of a scalar register, zero-extended. -/
def byteWord (b : Byte) : Word := b.setWidth 32

end Sys2Proof.Machine
end

