-- ==== Sys2Proof/Machine/Ops.lean ====
section
/-!
DEFINITION. The named operations every command is built from: completing and raising (R9, R90, R240), the
return from an error (R86, R244), reset (R30, R263), scalar registers (R10), cover memory (R43, R44), matrix
banks (R16), and writing the first entries of a buffer.
-/

namespace Sys2Proof.Machine

open Sys2Proof (Word Byte RegIdx Felt BankSel Instr)

/-! ### Raising an error and completing a command -/

/-- The error codes of R231. -/
def ErrKind.code : ErrKind → Word
  | .illegalCommand => 1
  | .domainError => 2
  | .degenerateSystem => 3
  | .singularMatrix => 4
  | .outOfSpace => 5
  | .invalidParameters => 6
  | .uninitElement => 7
  | .indexRange => 8
  | .dimMismatch => 9
  | .byteRange => 10
  | .maskExhausted => 11
  | .addrRange => 12
  | .operandRange => 13
  | .noMatrix => 14

/-- The error entry of R240, performed by `raise E(info)` in a command whose word is `w`: it records the
code, the `info`, the word and `CMDCNT`, and sets `FAULTED`. Nothing else changes. -/
def errorEntry (e : Raise) (w : Word) (s : State) : State :=
  { s with
    errcode := e.kind.code
    errinfo := e.info
    errcmd := w
    errseq := s.cmdcnt
    faulted := true }

/-- The return from an error (R86, R244): clears `FAULTED` and the error record and restores nothing. -/
def clearError (s : State) : State :=
  { s with faulted := false, errcode := 0, errinfo := 0, errcmd := 0, errseq := 0 }

/-- Counting a completed command (R13): `CMDCNT <- (CMDCNT + 1) mod 2^32`. -/
def countCommand (s : State) : State :=
  { s with cmdcnt := s.cmdcnt + 1 }

/-- The end of a command whose word is `w` and which began in `s` (R9, R90): if it raised, the error entry
on the state it began in, every write being discarded; if not, all its writes and one more in `CMDCNT`. -/
def finish (w : Word) (s : State) : Except Raise State → StepResult
  | .ok t => .next (countCommand t)
  | .error e => .next (errorEntry e w s)

/-- A check of a command's rule: `if p: raise kind(info)`. -/
def raiseIf (p : Prop) [Decidable p] (kind : ErrKind) (info : Word) : Except Raise Unit :=
  if p then .error ⟨kind, info⟩ else .ok ()

/-- The state after SRST, or after pin reset, in `s` (R30, R87, R263): the reset values, with `CV` and
`RESP` as they were. -/
def softReset (s : State) : State :=
  State.resetWith s.cv s.resp s.input s.params

/-- The output pin `fault` (R33, R237): equal to `FAULTED` at all times. -/
def faultPin (s : State) : Bool := s.faulted

/-- The commands that execute in FAULTED (R242). -/
def passesFilter : Instr → Bool
  | .nop | .csrr _ _ | .out _ | .errack | .srst => true
  | .li _ _ | .lih _ _ | .mov _ _ | .kset _ | .nset _
  | .fzero _ | .fone _ | .fadd _ _ _ | .fmul _ _ _ | .fneg _ _ | .finv _ _ | .feq _ _ _
  | .mnew _ _ _ | .mset _ _ _ _ | .mget _ _ _ _ | .mswap _ _ _ | .mscale _ _ _ | .maddsr _ _ _ _
  | .mappc _ | .mappr _ | .mrref _ | .minv _ | .mdet _ _
  | .ptset _ _ _ | .mvand _ | .isolve
  | .mseed _ _ | .mnext _ | .mxor _ _ | .mxorb
  | .bcopen _ _ | .cvst1 _ _ | .cvst2 _ _ | .cvst4 _ _ | .cvld1 _ _ | .cvld2 _ _ | .cvld4 _ _
  | .embed _ _ | .extract _ _ | .embedc _ | .extractc _
  | .cset _ _ | .cget _ _ | .peval _ _ | .pshare | .eget _ _ => false

/-! ### Scalar registers (R10) -/

/-- `x[i]`. -/
def readX (s : State) (i : RegIdx) : Word := s.x[i]

/-- `x[i] <- v`. No register is hardwired. -/
def writeX (s : State) (i : RegIdx) (v : Word) : State :=
  { s with x := s.x.set i v }

/-! ### Cover memory (R28, R31, R43, R44) -/

/-- The byte written at an address, if one has been. -/
def Memory.find : Memory → Nat → Option Byte
  | [], _ => none
  | (a, b) :: rest, addr => if a = addr then some b else Memory.find rest addr

/-- Write one byte, keeping addresses strictly rising. -/
def Memory.write : Memory → Nat → Byte → Memory
  | [], addr, v => [(addr, v)]
  | (a, b) :: rest, addr, v =>
    if addr < a then (addr, v) :: (a, b) :: rest
    else if addr = a then (addr, v) :: rest
    else (a, b) :: Memory.write rest addr v

/-- `CV[addr]`: the byte last written there, or the power-up content `CV_INIT` (R31). -/
def readByte (m : Memory) (addr : Nat) : Byte :=
  (Memory.find m addr).getD (Config.cvInit addr)

/-- `CV[addr + i] <- bytes[i]` for each byte of a list. -/
def writeBytes (m : Memory) (addr : Nat) : List Byte → Memory
  | [] => m
  | b :: rest => writeBytes (Memory.write m addr b) (addr + 1) rest

/-- `MemRead(addr, n)` (R43), little-endian: the sum over `i < n` of `CV[addr + i] * 2^(8i)`. -/
def memRead (m : Memory) (addr : Nat) : Nat → Nat
  | 0 => 0
  | n + 1 => (readByte m addr).toNat + 256 * memRead m (addr + 1) n

/-- The `n` bytes of a value, lowest first (R44): byte `i` is `(v >> 8i) AND 0xFF`. -/
def leBytes : Nat → Nat → List Byte
  | 0, _ => []
  | n + 1, v => BitVec.ofNat 8 v :: leBytes n (v / 256)

/-- `MemWrite(addr, n, v)` (R44), little-endian; only the low `8n` bits of `v` are used. -/
def memWrite (m : Memory) (addr n v : Nat) : Memory :=
  writeBytes m addr (leBytes n v)

/-! ### Matrix banks (R16 to R18, R63) -/

/-- The number of a bank, as `NoMatrix` reports it (R120, R231). -/
def bankNumber : BankSel → Word
  | .A => 0
  | .B => 1

/-- The other bank (R63). -/
def otherBank : BankSel → BankSel
  | .A => .B
  | .B => .A

/-- The bank a bank bit selects (R63). -/
def bankOf (s : State) : BankSel → Bank
  | .A => s.ma
  | .B => s.mb

/-- Replace the bank a bank bit selects. -/
def setBank (s : State) (b : BankSel) (m : Bank) : State :=
  match b with
  | .A => { s with ma := m }
  | .B => { s with mb := m }

/-- Row `r` of a bank. -/
def Bank.row (m : Bank) (r : Nat) : List (Option Felt) := m.cells.getD r []

/-- Element `e[r][c]` of a bank (R16): `none` if it is uninitialised. -/
def Bank.elem (m : Bank) (r c : Nat) : Option Felt := (m.row r).getD c none

/-- The bank with row `r` replaced. -/
def Bank.setRow (m : Bank) (r : Nat) (row : List (Option Felt)) : Bank :=
  { m with cells := m.cells.set r row }

/-- A bank of initialised elements, with the given dimensions. -/
def Bank.ofGrid (rows cols : Nat) (g : List (List Felt)) : Bank :=
  ⟨rows, cols, g.map fun row => row.map some⟩

/-- The values of a row whose first element has the linear index `i` (R18), or the linear index of its
first `none` (R17, R120). -/
def rowValues : Nat → List (Option Felt) → Except Nat (List Felt)
  | _, [] => .ok []
  | i, none :: _ => .error i
  | i, some v :: rest =>
    match rowValues (i + 1) rest with
    | .ok vs => .ok (v :: vs)
    | .error j => .error j

/-- The values of the rows of a bank with `cols` columns from row `r` on, or the smallest linear index of a
`none` among them. -/
def gridValues (cols : Nat) : Nat → List (List (Option Felt)) → Except Nat (List (List Felt))
  | _, [] => .ok []
  | r, row :: rest =>
    match rowValues (r * cols) row with
    | .error j => .error j
    | .ok vs =>
      match gridValues cols (r + 1) rest with
      | .ok g => .ok (vs :: g)
      | .error j => .error j

/-! ### Buffers -/

/-- A list with its first entries replaced by those of another. -/
def overlay {α : Type} : List α → List α → List α
  | v :: vs, _ :: olds => v :: overlay vs olds
  | [], olds => olds
  | _ :: _, [] => []

/-- Replacing the first entries of a list keeps its length. -/
theorem overlay_length {α : Type} (vs olds : List α) : (overlay vs olds).length = olds.length := by
  induction vs, olds using overlay.induct <;> simp_all [overlay]

/-- A buffer with its first entries replaced by those of a list; the entries after them are kept. -/
def overwriteFirst {α : Type} {n : Nat} (vs : List α) (buf : Vector α n) : Vector α n :=
  ⟨(overlay vs buf.toList).toArray, by simp [overlay_length]⟩

/-- The current polynomial `CB[0..K-1]` (R19). -/
def coefficients (s : State) : List Felt := s.cb.toList.take s.k

/-- The point set `PT[0..K-1]` (R21). -/
def points (s : State) : List Point := s.pt.toList.take s.k

end Sys2Proof.Machine
end

