-- ==== Sys2Proof/Machine/Operands.lean ====
section
/-!
DEFINITION. The operand forms of FFA257: a command takes every operand whole from a scalar register (R69)
and raises if the 32-bit value is outside the range it states (R11). Nothing is reduced or truncated to fit,
but for the data of a store (R172).
-/

namespace Sys2Proof.Machine

open Sys2Proof (Word Byte RegIdx Felt BankSel)

/-- A field-element operand (R11, R108): `v >= 257` raises `DomainError(v)`. -/
def fieldOperand (s : State) (r : RegIdx) : Except Raise Felt :=
  if h : (readX s r).toNat < 257 then .ok ⟨(readX s r).toNat, h⟩ else .error ⟨.domainError, readX s r⟩

/-- A byte operand (R11): `v > 255` raises `ByteRange(v)`. -/
def byteOperand (s : State) (r : RegIdx) : Except Raise Byte :=
  if (readX s r).toNat ≤ 255 then .ok ((readX s r).setWidth 8) else .error ⟨.byteRange, readX s r⟩

/-- A row, column or buffer index below `bound` (R120, R151, R191): `v >= bound` raises `IndexRange(v)`. -/
def indexOperand (s : State) (r : RegIdx) (bound : Nat) : Except Raise Nat :=
  if (readX s r).toNat < bound then .ok (readX s r).toNat
  else .error ⟨.indexRange, readX s r⟩

/-- The index of a coefficient or a point, 0 to 256 (R151, R191, R192). -/
def bufferIndex (s : State) (r : RegIdx) : Except Raise (Fin Config.bufSize) :=
  if h : (readX s r).toNat < Config.bufSize then .ok ⟨(readX s r).toNat, h⟩ else .error ⟨.indexRange, readX s r⟩

/-- The index of an evaluation, 1 to 256 (R197), as its entry of the vector `ev`. -/
def evalIndex (s : State) (r : RegIdx) : Except Raise (Fin Config.evSize) :=
  if h : 1 ≤ (readX s r).toNat ∧ (readX s r).toNat ≤ Config.evSize then .ok ⟨(readX s r).toNat - 1, by omega⟩
  else .error ⟨.indexRange, readX s r⟩

/-- A dimension of a new matrix, 1 to `max` (R121): outside it raises `OperandRange(v)`. -/
def dimOperand (s : State) (r : RegIdx) (max : Nat) : Except Raise Nat :=
  if 1 ≤ (readX s r).toNat ∧ (readX s r).toNat ≤ max then .ok (readX s r).toNat
  else .error ⟨.operandRange, readX s r⟩

/-- The bank a command needs (R120): `NoMatrix` with the bank's number if it is unconstructed. -/
def constructed (s : State) (b : BankSel) : Except Raise Bank :=
  if (bankOf s b).rows = 0 then .error ⟨.noMatrix, bankNumber b⟩ else .ok (bankOf s b)

/-- The values of row `r` of a bank, all initialised, or `UninitElement` with the smallest linear index of
a `none` in that row (R120, R125). -/
def rowOf (m : Bank) (r : Nat) : Except Raise (List Felt) :=
  match rowValues (r * m.cols) (m.row r) with
  | .ok vs => .ok vs
  | .error i => .error ⟨.uninitElement, BitVec.ofNat 32 i⟩

/-- The values of a whole bank, all initialised, or `UninitElement` with the smallest linear index of a
`none` (R120, R130). -/
def gridOf (m : Bank) : Except Raise (List (List Felt)) :=
  match gridValues m.cols 0 m.cells with
  | .ok g => .ok g
  | .error i => .error ⟨.uninitElement, BitVec.ofNat 32 i⟩

/-- `K`, which a command needs set (R153, R154, R165, R194): `InvalidParameters(0)` if it is 0. -/
def needK (s : State) : Except Raise Unit := raiseIf (s.k = 0) .invalidParameters 0

/-- The range check of R41 on the `n` bytes from `addr`, on unbounded integers: beyond `BUFLEN` it raises
the error the command names, with the start address. -/
def coverRange (s : State) (addr : Word) (n : Nat) (kind : ErrKind) : Except Raise Unit :=
  raiseIf (addr.toNat + n > s.buflen.toNat) kind addr

/-- The coefficients `CB[0..K-1]`, all bytes, or `ByteRange(i)` with the smallest index `i` of one that is
not (R165, R196). -/
def byteCoefficients (s : State) : Except Raise (List Felt) :=
  match (coefficients s).findIdx? (fun v => 255 < v.val) with
  | some i => .error ⟨.byteRange, BitVec.ofNat 32 i⟩
  | none => .ok (coefficients s)

end Sys2Proof.Machine
end

