-- ==== Sys2Proof/Machine/BitChannel.lean ====
section
/-!
DEFINITION. Cover memory and the bit channel (45_bit_channel.md): BCOPEN, CVST1, CVST2, CVST4, CVLD1,
CVLD2, CVLD4, EMBED, EXTRACT, EMBEDC, EXTRACTC.
-/

namespace Sys2Proof.Machine

open Sys2Proof (Word Byte RegIdx)

/-! ### The serializer (R174, R175) -/

/-- Write one bit into the least significant bit of a byte, the other seven left as they are (R174). -/
def embedBit (c : Byte) (bit : Bool) : Byte := (c &&& 0xFE) ||| (if bit then 1 else 0)

/-- `embed8(c, v)` (R174): bit `7 - i` of `v` goes to `c[i]`, most significant bit first. -/
def embed8 (cover : Vector Byte 8) (v : Byte) : Vector Byte 8 :=
  Vector.ofFn fun i : Fin 8 => embedBit cover[i] (v.getLsbD (7 - i.val))

/-- `extract8(c)` (R175): the sum of `(c[i] AND 1) * 2^(7-i)`, most significant bit first. -/
def extract8 (cover : Vector Byte 8) : Byte :=
  cover.toList.foldl (fun acc b => (acc <<< 1) ||| (b &&& 1)) 0

/-- The eight bytes of cover memory from `addr` (R176). -/
def eightBytes (s : State) (addr : Nat) : Vector Byte 8 :=
  Vector.ofFn fun i : Fin 8 => readByte s.cv (addr + i.val)

/-- The state with `v` embedded in the eight bytes from `addr` (R176). -/
def embedAt (s : State) (addr : Nat) (v : Byte) : State :=
  { s with cv := writeBytes s.cv addr (embed8 (eightBytes s addr) v).toList }

/-! ### The forms of a store and a load (R172, R173) -/

/-- CVST of `n` bytes (R172): the data is truncated to its low `8n` bits. -/
def storeBytes (n : Nat) (ra rb : RegIdx) (s : State) : Except Raise State := do
  let a := readX s ra
  coverRange s a n .addrRange
  pure { s with cv := memWrite s.cv a.toNat n ((readX s rb).toNat % 2 ^ (8 * n)) }

/-- CVLD of `n` bytes (R173): zero-extended. -/
def loadBytes (n : Nat) (rd ra : RegIdx) (s : State) : Except Raise State := do
  let a := readX s ra
  coverRange s a n .addrRange
  pure (writeX s rd (BitVec.ofNat 32 (memRead s.cv a.toNat n)))

/-! ### The commands -/

/-- BCOPEN (R171): the buffer's length and payload offset, and the cursor at the payload offset. -/
def execBcopen (ra rb : RegIdx) (s : State) : StepResult :=
  finish (encode (.bcopen ra rb)) s <| do
    let len := readX s ra
    let off := readX s rb
    raiseIf (len.toNat > s.params.coverMemBytes) .operandRange len
    raiseIf (off.toNat > len.toNat) .operandRange off
    pure { s with buflen := len, payoff := off, cursor := off }

/-- CVST1 (R172). -/
def execCvst1 (ra rb : RegIdx) (s : State) : StepResult :=
  finish (encode (.cvst1 ra rb)) s (storeBytes 1 ra rb s)

/-- CVST2 (R172). -/
def execCvst2 (ra rb : RegIdx) (s : State) : StepResult :=
  finish (encode (.cvst2 ra rb)) s (storeBytes 2 ra rb s)

/-- CVST4 (R172). -/
def execCvst4 (ra rb : RegIdx) (s : State) : StepResult :=
  finish (encode (.cvst4 ra rb)) s (storeBytes 4 ra rb s)

/-- CVLD1 (R173). -/
def execCvld1 (rd ra : RegIdx) (s : State) : StepResult :=
  finish (encode (.cvld1 rd ra)) s (loadBytes 1 rd ra s)

/-- CVLD2 (R173). -/
def execCvld2 (rd ra : RegIdx) (s : State) : StepResult :=
  finish (encode (.cvld2 rd ra)) s (loadBytes 2 rd ra s)

/-- CVLD4 (R173). -/
def execCvld4 (rd ra : RegIdx) (s : State) : StepResult :=
  finish (encode (.cvld4 rd ra)) s (loadBytes 4 rd ra s)

/-- EMBED (R176): the byte `x[rb]` into the eight bytes from `x[ra]`; the value is checked first. -/
def execEmbed (ra rb : RegIdx) (s : State) : StepResult :=
  finish (encode (.embed ra rb)) s <| do
    let off := readX s ra
    let v ← byteOperand s rb
    coverRange s off 8 .outOfSpace
    pure (embedAt s off.toNat v)

/-- EXTRACT (R177): `x[rd] <-` the byte hidden in the eight bytes from `x[ra]`. -/
def execExtract (rd ra : RegIdx) (s : State) : StepResult :=
  finish (encode (.extract rd ra)) s <| do
    let off := readX s ra
    coverRange s off 8 .addrRange
    pure (writeX s rd (byteWord (extract8 (eightBytes s off.toNat))))

/-- EMBEDC (R178): as EMBED at `CURSOR`, which then advances by 8. -/
def execEmbedc (ra : RegIdx) (s : State) : StepResult :=
  finish (encode (.embedc ra)) s <| do
    let v ← byteOperand s ra
    coverRange s s.cursor 8 .outOfSpace
    pure { embedAt s s.cursor.toNat v with cursor := s.cursor + 8 }

/-- EXTRACTC (R179): as EXTRACT at `CURSOR`, which then advances by 8. -/
def execExtractc (rd : RegIdx) (s : State) : StepResult :=
  finish (encode (.extractc rd)) s <| do
    coverRange s s.cursor 8 .addrRange
    pure { writeX s rd (byteWord (extract8 (eightBytes s s.cursor.toNat))) with cursor := s.cursor + 8 }

end Sys2Proof.Machine
end

