-- ==== Sys2Proof/Machine/Flags.lean ====
section
/-!
DEFINITION. The values a CSRR reads (R23). FFA257 has no condition codes (R15); its one flag, `FAULTED`, is
state, and the other bits of `STATUS` (R24) and `CAPACITY` (R57) are computed when read.
-/

namespace Sys2Proof.Machine

open Sys2Proof (Word Csr)

/-- A truth value as a bit of `STATUS`. -/
def statusBit (p : Bool) (i : Nat) : Word := if p then 1#32 <<< i else 0

/-- `STATUS` (R24): FAULTED, KVALID, NVALID, MASKRDY, BUFOPEN, MAVALID, MBVALID in bits 0 to 6; 0 above. -/
def statusWord (s : State) : Word :=
  statusBit s.faulted 0 ||| statusBit (s.k != 0) 1 ||| statusBit (s.n != 0) 2
    ||| statusBit (s.prrem != 0) 3 ||| statusBit (s.buflen != 0) 4
    ||| statusBit (s.ma.rows != 0) 5 ||| statusBit (s.mb.rows != 0) 6

/-- `CAPACITY` (R23, R57): `floor((BUFLEN - PAYOFF) / 8)`. -/
def capacity (s : State) : Nat := (s.buflen.toNat - s.payoff.toNat) / 8

/-- `CSR(name)`: the value a CSRR returns (R9, R23), zero-extended to 32 bits. -/
def csrValue (s : State) : Csr → Word
  | .modulus => 257
  | .version => 1
  | .status => statusWord s
  | .errcode => s.errcode
  | .errinfo => s.errinfo
  | .errcmd => s.errcmd
  | .errseq => s.errseq
  | .cmdcnt => s.cmdcnt
  | .kreg => BitVec.ofNat 32 s.k
  | .nreg => BitVec.ofNat 32 s.n
  | .corrcnt => s.corrcnt
  | .buflen => s.buflen
  | .payoff => s.payoff
  | .cursor => s.cursor
  | .capacity => BitVec.ofNat 32 (capacity s)
  | .prseed => s.prseed.setWidth 32
  | .prstate => s.prstate.setWidth 32
  | .prrem => s.prrem
  | .marows => BitVec.ofNat 32 s.ma.rows
  | .macols => BitVec.ofNat 32 s.ma.cols
  | .mbrows => BitVec.ofNat 32 s.mb.rows
  | .mbcols => BitVec.ofNat 32 s.mb.cols
  | .matmaxr => BitVec.ofNat 32 s.params.matMaxRows
  | .matmaxc => BitVec.ofNat 32 s.params.matMaxCols
  | .covmax => BitVec.ofNat 32 s.params.coverMemBytes

end Sys2Proof.Machine
end

