-- ==== Sys2Proof/Machine/Control.lean ====
section
/-!
DEFINITION. The control, move and configuration commands (40_control.md): NOP, LI, LIH, MOV, CSRR, OUT,
ERRACK, SRST, KSET, NSET.
-/

namespace Sys2Proof.Machine

open Sys2Proof (Word RegIdx)

/-- NOP (R80). -/
def execNop (s : State) : StepResult :=
  finish (encode .nop) s (.ok s)

/-- LI (R81): `x[rd] <- zext_32(imm16)`. -/
def execLi (rd : RegIdx) (imm16 : BitVec 16) (s : State) : StepResult :=
  finish (encode (.li rd imm16)) s (.ok (writeX s rd (imm16.setWidth 32)))

/-- LIH (R82): `x[rd] <- imm16 * 2^16 + x[rd][15:0]`. -/
def execLih (rd : RegIdx) (imm16 : BitVec 16) (s : State) : StepResult :=
  finish (encode (.lih rd imm16)) s (.ok (writeX s rd (imm16 ++ (readX s rd).extractLsb' 0 16)))

/-- MOV (R83): `x[rd] <- x[ra]`, with no range check. -/
def execMov (rd ra : RegIdx) (s : State) : StepResult :=
  finish (encode (.mov rd ra)) s (.ok (writeX s rd (readX s ra)))

/-- CSRR (R84): `x[rd] <- CSR(csr)`, from the state before the command. A number that names no CSR makes
the word illegal (R71). -/
def execCsrr (rd : RegIdx) (csr : BitVec 8) (s : State) : StepResult :=
  finish (encode (.csrr rd csr)) s <|
    match csrOfNumber csr with
    | some c => .ok (writeX s rd (csrValue s c))
    | none => .error ⟨.illegalCommand, 0⟩

/-- OUT (R85): `RESP <- RESP ++ [x[ra]]`. -/
def execOut (ra : RegIdx) (s : State) : StepResult :=
  finish (encode (.out ra)) s (.ok { s with resp := s.resp ++ [readX s ra] })

/-- ERRACK (R86): the return from an error. It is counted. -/
def execErrack (s : State) : StepResult :=
  finish (encode .errack) s (.ok (clearError s))

/-- SRST (R87): the reset values, `CV` and `RESP` kept; it does not count itself. -/
def execSrst (s : State) : StepResult :=
  .next (softReset s)

/-- KSET (R88): `K <- x[ra]`, from 2 to 257, and `N <- 0`. -/
def execKset (ra : RegIdx) (s : State) : StepResult :=
  finish (encode (.kset ra)) s <| do
    let k := readX s ra
    raiseIf (k.toNat < 2 ∨ k.toNat > 257) .invalidParameters k
    pure { s with k := k.toNat, n := 0 }

/-- NSET (R89): `N <- x[ra]`, from `K` to 256, `K` being set. -/
def execNset (ra : RegIdx) (s : State) : StepResult :=
  finish (encode (.nset ra)) s <| do
    let n := readX s ra
    raiseIf (s.k = 0 ∨ n.toNat < s.k ∨ n.toNat > 256) .invalidParameters n
    pure { s with n := n.toNat }

end Sys2Proof.Machine
end

