-- ==== Sys2Proof/Machine/FieldAlu.lean ====
section
/-!
DEFINITION. The field ALU (41_field_alu.md): FZERO, FONE, FADD, FMUL, FNEG, FINV, FEQ. Every source operand
is checked before anything is computed, `ra` then `rb` (R108).
-/

namespace Sys2Proof.Machine

open Sys2Proof (RegIdx)

/-- FZERO (R101): `x[rd] <- 0`. -/
def execFzero (rd : RegIdx) (s : State) : StepResult :=
  finish (encode (.fzero rd)) s (.ok (writeX s rd 0))

/-- FONE (R102): `x[rd] <- 1`. -/
def execFone (rd : RegIdx) (s : State) : StepResult :=
  finish (encode (.fone rd)) s (.ok (writeX s rd 1))

/-- FADD (R103): `x[rd] <- (a + b) mod 257`. -/
def execFadd (rd ra rb : RegIdx) (s : State) : StepResult :=
  finish (encode (.fadd rd ra rb)) s <| do
    let a ← fieldOperand s ra
    let b ← fieldOperand s rb
    pure (writeX s rd (feltWord (fadd a b)))

/-- FMUL (R104): `x[rd] <- (a * b) mod 257`. -/
def execFmul (rd ra rb : RegIdx) (s : State) : StepResult :=
  finish (encode (.fmul rd ra rb)) s <| do
    let a ← fieldOperand s ra
    let b ← fieldOperand s rb
    pure (writeX s rd (feltWord (fmul a b)))

/-- FNEG (R105): `x[rd] <- (257 - a) mod 257`. -/
def execFneg (rd ra : RegIdx) (s : State) : StepResult :=
  finish (encode (.fneg rd ra)) s <| do
    let a ← fieldOperand s ra
    pure (writeX s rd (feltWord (fneg a)))

/-- FINV (R106): `x[rd] <- finv(a)`; `DomainError(0)` for 0. -/
def execFinv (rd ra : RegIdx) (s : State) : StepResult :=
  finish (encode (.finv rd ra)) s <| do
    let a ← fieldOperand s ra
    raiseIf (a = 0) .domainError 0
    pure (writeX s rd (feltWord (finv a)))

/-- FEQ (R107): `x[rd] <- 1 if a = b else 0`. -/
def execFeq (rd ra rb : RegIdx) (s : State) : StepResult :=
  finish (encode (.feq rd ra rb)) s <| do
    let a ← fieldOperand s ra
    let b ← fieldOperand s rb
    pure (writeX s rd (if a = b then 1 else 0))

end Sys2Proof.Machine
end

