-- ==== Sys2Proof/Machine/Grid.lean ====
section
/-!
DEFINITION. Elimination on a grid of initialised field elements (R129, R135), and the augmented Vandermonde
grid (R152). A grid is its rows from the top, each a list of its elements from the left.
-/

namespace Sys2Proof.Machine

open Sys2Proof (Felt)

/-- A grid of initialised field elements, row by row. -/
abbrev Grid := List (List Felt)

/-- Row `r` of a grid. -/
def gridRow (g : Grid) (r : Nat) : List Felt := g.getD r []

/-- `m[r][c]`. -/
def entry (g : Grid) (r c : Nat) : Felt := (gridRow g r).getD c 0

/-- Swap rows `i` and `j` of a table (R124, R129). -/
def swapRows {α : Type} (g : List (List α)) (i j : Nat) : List (List α) :=
  (g.set i (g.getD j [])).set j (g.getD i [])

/-- A row with every element multiplied by a factor (R125). -/
def scaleRow (f : Felt) (row : List Felt) : List Felt := row.map fun v => fmul v f

/-- A row with `f` times another row added, lane by lane, each lane from the values before (R126). -/
def addScaledRow (dest src : List Felt) (f : Felt) : List Felt :=
  List.zipWith (fun d v => fadd d (fmul v f)) dest src

/-- For each row `r` of the grid that `sel` picks, counting from `first`: add the pivot row times
`fneg(m[r][col])`, which makes its element in column `col` 0 when the pivot is 1 (R129). -/
def eliminate (sel : Nat → Bool) (pivotRow : List Felt) (col : Nat) : Nat → Grid → Grid
  | _, [] => []
  | first, row :: rest =>
    (if sel first then addScaledRow row pivotRow (fneg (row.getD col 0)) else row)
      :: eliminate sel pivotRow col (first + 1) rest

/-- The forward pass under way (R129): the grid, the pivots found so far, last first, their number `p`, and
the bookkeeping of the determinant. -/
structure Elim where
  grid : Grid
  pivots : List (Nat × Nat)
  p : Nat
  sign : Felt
  prod : Felt
  deriving DecidableEq, Repr

/-- "the smallest r with p <= r < rows and m[r][col] != 0" (R129). -/
def findPivot (g : Grid) (rows p col : Nat) : Option Nat :=
  (List.range' p (rows - p)).find? fun r => entry g r col != 0

/-- The forward pass on one column whose pivot row is `q` (R129): swap it into place, scale it to 1, clear
the column in every row below. -/
def pivotOn (e : Elim) (col q : Nat) : Elim :=
  let swapped := if q = e.p then e.grid else swapRows e.grid q e.p
  let v := entry swapped e.p col
  let pivotRow := scaleRow (finv v) (gridRow swapped e.p)
  { grid := eliminate (fun r => e.p < r) pivotRow col 0 (swapped.set e.p pivotRow)
    pivots := (e.p, col) :: e.pivots
    p := e.p + 1
    sign := if q = e.p then e.sign else fneg e.sign
    prod := fmul e.prod v }

/-- The forward pass over the columns listed (R129): it stops when every row has a pivot and skips a column
that has none. -/
def forwardFrom (rows : Nat) : List Nat → Elim → Elim
  | [], e => e
  | col :: rest, e =>
    if e.p = rows then e
    else match findPivot e.grid rows e.p col with
      | none => forwardFrom rows rest e
      | some q => forwardFrom rows rest (pivotOn e col q)

/-- `forward(m, rows, cols)` (R129): every column is a candidate, left to right. -/
def forward (g : Grid) (rows cols : Nat) : Elim :=
  forwardFrom rows (List.range cols) ⟨g, [], 0, 1, 1⟩

/-- `backward(m, rows, cols, pivots)` (R129), the pivots given last to first: clear each pivot's column in
every row above it. -/
def backward : List (Nat × Nat) → Grid → Grid
  | [], g => g
  | (p, col) :: rest, g => backward rest (eliminate (fun r => r < p) (gridRow g p) col 0 g)

/-- The two passes: the reduced row echelon form (R129, R130). -/
def reduce (g : Grid) (rows cols : Nat) : Grid :=
  let e := forward g rows cols
  backward e.pivots e.grid

/-- `left_is_identity(m, n)` (R135). -/
def leftIsIdentity (g : Grid) (n : Nat) : Bool :=
  (List.range n).all fun i =>
    (List.range n).all fun j => entry g i j == if i = j then 1 else 0

/-- The grid `[m | I]` (R131) of a grid of `n` rows, counting rows from `first`. -/
def augmentIdentity (n : Nat) : Nat → Grid → Grid
  | _, [] => []
  | first, row :: rest =>
    (row ++ (List.range n).map fun c => if first = c then 1 else 0) :: augmentIdentity n (first + 1) rest

/-- The powers `acc, acc*x, acc*x^2, ...`, as many as asked for (R152). -/
def powersFrom (x : Felt) : Nat → Felt → List Felt
  | 0, _ => []
  | count + 1, acc => acc :: powersFrom x count (fmul acc x)

/-- Row `i` of `vand(PT, K)` (R152): `x^0` to `x^(K-1)`, with `x^0 = 1` for every `x`, then `y`. -/
def vandRow (k : Nat) (pt : Point) : List Felt := powersFrom pt.x k 1 ++ [pt.y]

/-- `vand(PT, K)` (R152), from the points `PT[0..K-1]`. -/
def vand (k : Nat) (pts : List Point) : Grid := pts.map (vandRow k)

end Sys2Proof.Machine
end

