-- ==== Sys2Proof/Machine/Interpolation.lean ====
section
/-!
DEFINITION. The Vandermonde solver (43_interpolation.md): PTSET, MVAND, ISOLVE.
-/

namespace Sys2Proof.Machine

open Sys2Proof (RegIdx BankSel Felt)

/-- PTSET (R151): `PT[i] <- (px, py)`. -/
def execPtset (ra rb rc : RegIdx) (s : State) : StepResult :=
  finish (encode (.ptset ra rb rc)) s <| do
    let i ← bufferIndex s ra
    let px ← fieldOperand s rb
    let py ← fieldOperand s rc
    pure { s with pt := s.pt.set i ⟨px, py⟩ }

/-- MVAND (R153): the subject bank becomes the augmented grid of the points, `K` by `K + 1`. -/
def execMvand (b : BankSel) (s : State) : StepResult :=
  finish (encode (.mvand b)) s <| do
    needK s
    pure (setBank s b (Bank.ofGrid s.k (s.k + 1) (vand s.k (points s))))

/-- The solution column of a reduced grid (R154): `t[j][k]` for `j < k`. -/
def solutionColumn (t : Grid) (k : Nat) : List Felt := (List.range k).map fun j => entry t j k

/-- ISOLVE (R154): `CB[0..K-1]` become the coefficients of the polynomial through the points, on a scratch
grid; `DegenerateSystemError` leaves `CB` as it was. -/
def execIsolve (s : State) : StepResult :=
  finish (encode .isolve) s <| do
    needK s
    let t := reduce (vand s.k (points s)) s.k (s.k + 1)
    raiseIf (leftIsIdentity t s.k = false) .degenerateSystem 0
    pure { s with cb := overwriteFirst (solutionColumn t s.k) s.cb }

end Sys2Proof.Machine
end

