-- ==== Sys2Proof/Machine/LinearSystem.lean ====
section
/-!
DEFINITION. The linear-system unit (42_linear_system.md): MNEW, MSET, MGET, MSWAP, MSCALE, MADDSR, MAPPC,
MAPPR, MRREF, MINV, MDET. `b` is the subject bank, the other bank is `otherBank b`; checks are in the order
of R120.
-/

namespace Sys2Proof.Machine

open Sys2Proof (RegIdx BankSel Felt)

/-- MNEW (R121): the subject bank becomes a matrix of `x[ra]` by `x[rb]` uninitialised elements. -/
def execMnew (b : BankSel) (ra rb : RegIdx) (s : State) : StepResult :=
  finish (encode (.mnew b ra rb)) s <| do
    let r ← dimOperand s ra s.params.matMaxRows
    let c ← dimOperand s rb s.params.matMaxCols
    pure (setBank s b ⟨r, c, List.replicate r (List.replicate c none)⟩)

/-- MSET (R122): `S.e[r][c] <- v`. -/
def execMset (b : BankSel) (ra rb rc : RegIdx) (s : State) : StepResult :=
  finish (encode (.mset b ra rb rc)) s <| do
    let m ← constructed s b
    let r ← indexOperand s ra m.rows
    let c ← indexOperand s rb m.cols
    let v ← fieldOperand s rc
    pure (setBank s b (m.setRow r ((m.row r).set c (some v))))

/-- MGET (R123): `x[rd] <- S.e[r][c]`, `UninitElement` if it is `none`. -/
def execMget (b : BankSel) (rd ra rb : RegIdx) (s : State) : StepResult :=
  finish (encode (.mget b rd ra rb)) s <| do
    let m ← constructed s b
    let r ← indexOperand s ra m.rows
    let c ← indexOperand s rb m.cols
    match m.elem r c with
    | none => .error ⟨.uninitElement, BitVec.ofNat 32 (r * m.cols + c)⟩
    | some v => pure (writeX s rd (feltWord v))

/-- MSWAP (R124): rows `x[ra]` and `x[rb]` change places, `none` elements as they are. -/
def execMswap (b : BankSel) (ra rb : RegIdx) (s : State) : StepResult :=
  finish (encode (.mswap b ra rb)) s <| do
    let m ← constructed s b
    let i ← indexOperand s ra m.rows
    let j ← indexOperand s rb m.rows
    pure (setBank s b { m with cells := swapRows m.cells i j })

/-- MSCALE (R125): every element of row `x[ra]` times the factor `x[rb]`. -/
def execMscale (b : BankSel) (ra rb : RegIdx) (s : State) : StepResult :=
  finish (encode (.mscale b ra rb)) s <| do
    let m ← constructed s b
    let r ← indexOperand s ra m.rows
    let f ← fieldOperand s rb
    let row ← rowOf m r
    pure (setBank s b (m.setRow r ((scaleRow f row).map some)))

/-- MADDSR (R126): row `x[rb]` plus the factor `x[rc]` times row `x[ra]`, each lane from the values before
the command. -/
def execMaddsr (b : BankSel) (ra rb rc : RegIdx) (s : State) : StepResult :=
  finish (encode (.maddsr b ra rb rc)) s <| do
    let m ← constructed s b
    let src ← indexOperand s ra m.rows
    let dest ← indexOperand s rb m.rows
    let f ← fieldOperand s rc
    let srcRow ← rowOf m src
    let destRow ← rowOf m dest
    pure (setBank s b (m.setRow dest ((addScaledRow destRow srcRow f).map some)))

/-- MAPPC (R127): the other bank's columns after the subject bank's. -/
def execMappc (b : BankSel) (s : State) : StepResult :=
  finish (encode (.mappc b)) s <| do
    let m ← constructed s b
    let o ← constructed s (otherBank b)
    raiseIf (m.rows ≠ o.rows) .dimMismatch (BitVec.ofNat 32 o.rows)
    raiseIf (m.cols + o.cols > s.params.matMaxCols) .operandRange (BitVec.ofNat 32 (m.cols + o.cols))
    pure (setBank s b ⟨m.rows, m.cols + o.cols, List.zipWith (· ++ ·) m.cells o.cells⟩)

/-- MAPPR (R128): the other bank's rows after the subject bank's. -/
def execMappr (b : BankSel) (s : State) : StepResult :=
  finish (encode (.mappr b)) s <| do
    let m ← constructed s b
    let o ← constructed s (otherBank b)
    raiseIf (m.cols ≠ o.cols) .dimMismatch (BitVec.ofNat 32 o.cols)
    raiseIf (m.rows + o.rows > s.params.matMaxRows) .operandRange (BitVec.ofNat 32 (m.rows + o.rows))
    pure (setBank s b ⟨m.rows + o.rows, m.cols, m.cells ++ o.cells⟩)

/-- MRREF (R130): the subject bank in reduced row echelon form. -/
def execMrref (b : BankSel) (s : State) : StepResult :=
  finish (encode (.mrref b)) s <| do
    let m ← constructed s b
    let g ← gridOf m
    pure (setBank s b (Bank.ofGrid m.rows m.cols (reduce g m.rows m.cols)))

/-- MINV (R131): the inverse of a square bank, worked out on a scratch grid of twice its width;
`SingularMatrix` leaves the bank as it was. -/
def execMinv (b : BankSel) (s : State) : StepResult :=
  finish (encode (.minv b)) s <| do
    let m ← constructed s b
    let n := m.rows
    raiseIf (m.cols ≠ n) .dimMismatch (BitVec.ofNat 32 m.cols)
    let g ← gridOf m
    let t := reduce (augmentIdentity n 0 g) n (2 * n)
    raiseIf (leftIsIdentity t n = false) .singularMatrix 0
    pure (setBank s b (Bank.ofGrid n n (t.map fun row => row.drop n)))

/-- MDET (R132): the determinant to `x[rd]`, 0 if some column lacks a pivot, and the bank in the forward
pass's echelon form. -/
def execMdet (b : BankSel) (rd : RegIdx) (s : State) : StepResult :=
  finish (encode (.mdet b rd)) s <| do
    let m ← constructed s b
    let n := m.rows
    raiseIf (m.cols ≠ n) .dimMismatch (BitVec.ofNat 32 m.cols)
    let g ← gridOf m
    let e := forward g n n
    let det : Felt := if e.pivots.length = n then fmul e.sign e.prod else 0
    pure (writeX (setBank s b (Bank.ofGrid n n e.grid)) rd (feltWord det))

end Sys2Proof.Machine
end

