-- ==== Sys2Proof/Machine/MaskStream.lean ====
section
/-!
DEFINITION. The pseudorandom masking XOR stream (44_mask_stream.md): MSEED, MNEXT, MXOR, MXORB.
-/

namespace Sys2Proof.Machine

open Sys2Proof (Byte MaskState RegIdx Felt)

/-- LCG16 (R161): `s' = (25173 * s + 13849) mod 65536`, and the byte `s'[15:8]`. -/
def lcg16 (z : MaskState) : MaskState × Byte :=
  let next : MaskState := BitVec.ofNat 16 (25173 * z.toNat + 13849)
  (next, next.extractLsb' 8 8)

/-- `step` of the machine's `MASKGEN` (R161). -/
def maskStep (s : State) : MaskState → MaskState × Byte :=
  match s.params.maskGen with
  | .lcg16 => lcg16
  | .other => Config.otherMaskStep

/-- Take one byte of the stream (R163): the state after it, and the byte; `MaskExhausted(0)` if none is
left. -/
def takeMaskByte (s : State) : Except Raise (State × Byte) := do
  raiseIf (s.prrem = 0) .maskExhausted 0
  let (next, b) := maskStep s s.prstate
  pure ({ s with prstate := next, prrem := s.prrem - 1 }, b)

/-- `v XOR b` for a value that is a byte (R164, R165). -/
def xorByte (v : Felt) (b : Byte) : Felt := feltOf (BitVec.ofNat 8 v.val ^^^ b).toNat

/-- XOR a list of values, in order, with the bytes a generator gives from a state (R165): the state after
the last byte, and the results. -/
def maskAll (next : MaskState → MaskState × Byte) : MaskState → List Felt → MaskState × List Felt
  | z, [] => (z, [])
  | z, v :: rest =>
    let (z', b) := next z
    let (zEnd, vs) := maskAll next z' rest
    (zEnd, xorByte v b :: vs)

/-- MSEED (R162): start the stream of `x[rb]` bytes from the 16-bit seed `x[ra]`. -/
def execMseed (ra rb : RegIdx) (s : State) : StepResult :=
  finish (encode (.mseed ra rb)) s <| do
    let z := readX s ra
    raiseIf (z.toNat > 65535) .operandRange z
    pure { s with prseed := z.setWidth 16, prstate := z.setWidth 16, prrem := readX s rb }

/-- MNEXT (R163): `x[rd] <-` the next byte of the stream. -/
def execMnext (rd : RegIdx) (s : State) : StepResult :=
  finish (encode (.mnext rd)) s <| do
    let (t, b) ← takeMaskByte s
    pure (writeX t rd (byteWord b))

/-- MXOR (R164): `x[rd] <- x[ra] XOR` the next byte of the stream. -/
def execMxor (rd ra : RegIdx) (s : State) : StepResult :=
  finish (encode (.mxor rd ra)) s <| do
    let v ← byteOperand s ra
    let (t, b) ← takeMaskByte s
    pure (writeX t rd (byteWord (v ^^^ b)))

/-- MXORB (R165): `CB[i] <- CB[i] XOR` the next byte of the stream, for `i` from 0 to `K - 1` in order. When
the stream has fewer than `K` bytes left none is taken. -/
def execMxorb (s : State) : StepResult :=
  finish (encode .mxorb) s <| do
    needK s
    let c ← byteCoefficients s
    raiseIf (s.prrem.toNat < s.k) .maskExhausted s.prrem
    let (zEnd, vs) := maskAll (maskStep s) s.prstate c
    pure { s with
      cb := overwriteFirst vs s.cb
      prstate := zEnd
      prrem := s.prrem - BitVec.ofNat 32 s.k }

end Sys2Proof.Machine
end

