-- ==== Sys2Proof/Machine/PolyEval.lean ====
section
/-!
DEFINITION. The modular polynomial evaluator and the overflow-avoidance rule (46_poly_eval.md): CSET, CGET,
PEVAL, PSHARE, EGET.
-/

namespace Sys2Proof.Machine

open Sys2Proof (Byte RegIdx Felt)

/-- `peval(c, x)` (R190), by Horner's rule reduced at every step, which R190 allows; coefficient 0 first. -/
def peval (c : List Felt) (x : Felt) : Felt :=
  c.foldr (fun ci acc => fadd ci (fmul acc x)) 0

/-- `e[x] = peval(c, x)` for `x = 1 .. n`, in that order (R196). -/
def evaluations (c : List Felt) (n : Nat) : List Felt :=
  (List.range' 1 n).map fun x => peval c (feltOf x)

/-- `c` with its first non-zero coefficient lowered by 1, an integer subtraction that never wraps (R196). -/
def decrementFirst : List Felt → List Felt
  | [] => []
  | v :: rest => if v = 0 then v :: decrementFirst rest else feltOf (v.val - 1) :: rest

/-- The sum of the coefficients as integers, which every pass of the correction lowers by 1 (R196). -/
def coefficientSum (c : List Felt) : Nat := (c.map (·.val)).sum

/-- The overflow-avoidance rule (R196) with at most `fuel` decrements: while an evaluation is 256, lower the
first non-zero coefficient; answers the coefficients and the number of decrements. -/
def correctOverflow (n : Nat) : Nat → List Felt → Nat → List Felt × Nat
  | 0, c, cnt => (c, cnt)
  | fuel + 1, c, cnt =>
    if (evaluations c n).contains 256 then correctOverflow n fuel (decrementFirst c) (cnt + 1)
    else (c, cnt)

/-- CSET (R191): `CB[i] <- v`. -/
def execCset (ra rb : RegIdx) (s : State) : StepResult :=
  finish (encode (.cset ra rb)) s <| do
    let i ← bufferIndex s ra
    let v ← fieldOperand s rb
    pure { s with cb := s.cb.set i v }

/-- CGET (R192): `x[rd] <- CB[i]`. -/
def execCget (rd ra : RegIdx) (s : State) : StepResult :=
  finish (encode (.cget rd ra)) s <| do
    let i ← bufferIndex s ra
    pure (writeX s rd (feltWord s.cb[i]))

/-- PEVAL (R194): `x[rd] <- peval(CB[0..K-1], x[ra])`, with no correction. -/
def execPeval (rd ra : RegIdx) (s : State) : StepResult :=
  finish (encode (.peval rd ra)) s <| do
    needK s
    let v ← fieldOperand s ra
    pure (writeX s rd (feltWord (peval (coefficients s) v)))

/-- PSHARE (R196): the evaluations of the block for `x = 1 .. N` after the overflow-avoidance rule, in `EV`;
the corrected coefficients in `CB`; the number of decrements in `CORRCNT`. The sum of the coefficients
bounds the decrements. -/
def execPshare (s : State) : StepResult :=
  finish (encode .pshare) s <| do
    raiseIf (s.n = 0) .invalidParameters 0
    let c ← byteCoefficients s
    let (corrected, cnt) := correctOverflow s.n (coefficientSum c) c 0
    pure { s with
      cb := overwriteFirst corrected s.cb
      ev := overwriteFirst ((evaluations corrected s.n).map fun e => BitVec.ofNat 8 e.val) s.ev
      corrcnt := BitVec.ofNat 32 cnt }

/-- EGET (R197): `x[rd] <- EV[x[ra]]`, the index counting from 1. -/
def execEget (rd ra : RegIdx) (s : State) : StepResult :=
  finish (encode (.eget rd ra)) s <| do
    let i ← evalIndex s ra
    pure (writeX s rd (byteWord s.ev[i]))

end Sys2Proof.Machine
end

