-- ==== Sys2Proof/Machine/Dispatch.lean ====
section
/-!
DEFINITION. The meaning of each command, one arm per constructor of `Instr`.
-/

namespace Sys2Proof.Machine

def exec (i : Instr) (s : State) : Host.Outcome State Fault Refusal :=
  match i with
  | .nop => Sys2Proof.Machine.execNop s
  | .li rd imm16 => Sys2Proof.Machine.execLi rd imm16 s
  | .lih rd imm16 => Sys2Proof.Machine.execLih rd imm16 s
  | .mov rd ra => Sys2Proof.Machine.execMov rd ra s
  | .csrr rd csr => Sys2Proof.Machine.execCsrr rd csr s
  | .out ra => Sys2Proof.Machine.execOut ra s
  | .errack => Sys2Proof.Machine.execErrack s
  | .srst => Sys2Proof.Machine.execSrst s
  | .kset ra => Sys2Proof.Machine.execKset ra s
  | .nset ra => Sys2Proof.Machine.execNset ra s
  | .fzero rd => Sys2Proof.Machine.execFzero rd s
  | .fone rd => Sys2Proof.Machine.execFone rd s
  | .fadd rd ra rb => Sys2Proof.Machine.execFadd rd ra rb s
  | .fmul rd ra rb => Sys2Proof.Machine.execFmul rd ra rb s
  | .fneg rd ra => Sys2Proof.Machine.execFneg rd ra s
  | .finv rd ra => Sys2Proof.Machine.execFinv rd ra s
  | .feq rd ra rb => Sys2Proof.Machine.execFeq rd ra rb s
  | .mnew b ra rb => Sys2Proof.Machine.execMnew b ra rb s
  | .mset b ra rb rc => Sys2Proof.Machine.execMset b ra rb rc s
  | .mget b rd ra rb => Sys2Proof.Machine.execMget b rd ra rb s
  | .mswap b ra rb => Sys2Proof.Machine.execMswap b ra rb s
  | .mscale b ra rb => Sys2Proof.Machine.execMscale b ra rb s
  | .maddsr b ra rb rc => Sys2Proof.Machine.execMaddsr b ra rb rc s
  | .mappc b => Sys2Proof.Machine.execMappc b s
  | .mappr b => Sys2Proof.Machine.execMappr b s
  | .mrref b => Sys2Proof.Machine.execMrref b s
  | .minv b => Sys2Proof.Machine.execMinv b s
  | .mdet b rd => Sys2Proof.Machine.execMdet b rd s
  | .ptset ra rb rc => Sys2Proof.Machine.execPtset ra rb rc s
  | .mvand b => Sys2Proof.Machine.execMvand b s
  | .isolve => Sys2Proof.Machine.execIsolve s
  | .mseed ra rb => Sys2Proof.Machine.execMseed ra rb s
  | .mnext rd => Sys2Proof.Machine.execMnext rd s
  | .mxor rd ra => Sys2Proof.Machine.execMxor rd ra s
  | .mxorb => Sys2Proof.Machine.execMxorb s
  | .bcopen ra rb => Sys2Proof.Machine.execBcopen ra rb s
  | .cvst1 ra rb => Sys2Proof.Machine.execCvst1 ra rb s
  | .cvst2 ra rb => Sys2Proof.Machine.execCvst2 ra rb s
  | .cvst4 ra rb => Sys2Proof.Machine.execCvst4 ra rb s
  | .cvld1 rd ra => Sys2Proof.Machine.execCvld1 rd ra s
  | .cvld2 rd ra => Sys2Proof.Machine.execCvld2 rd ra s
  | .cvld4 rd ra => Sys2Proof.Machine.execCvld4 rd ra s
  | .embed ra rb => Sys2Proof.Machine.execEmbed ra rb s
  | .extract rd ra => Sys2Proof.Machine.execExtract rd ra s
  | .embedc ra => Sys2Proof.Machine.execEmbedc ra s
  | .extractc rd => Sys2Proof.Machine.execExtractc rd s
  | .cset ra rb => Sys2Proof.Machine.execCset ra rb s
  | .cget rd ra => Sys2Proof.Machine.execCget rd ra s
  | .peval rd ra => Sys2Proof.Machine.execPeval rd ra s
  | .pshare => Sys2Proof.Machine.execPshare s
  | .eget rd ra => Sys2Proof.Machine.execEget rd ra s

end Sys2Proof.Machine
end

