-- ==== Sys2Proof/Machine/Sequencer.lean ====
section
/-!
DEFINITION. The command sequencer (R5, R90, R242): what one command word does, what pin reset does, and how a
run of words goes.
-/

namespace Sys2Proof.Machine

open Sys2Proof (Word)

/-- The execution of one command word (R90, R242). In READY an illegal word raises `IllegalCommand(0)` and
every other is executed; in FAULTED a word that is not NOP, CSRR, OUT, ERRACK or SRST is dropped, which
changes nothing at all. -/
def executeWord (w : Word) (s : State) : StepResult :=
  match decode w with
  | .ok i => if s.faulted && !passesFilter i then .next s else exec i s
  | .error _ => if s.faulted then .next s else finish w s (.error ⟨.illegalCommand, 0⟩)

/-- What the sequencer does with what the host did. -/
def takeInput : HostInput → State → StepResult
  | .command w, s => executeWord w s
  | .pinReset, s => .next (softReset s)

/-- A run of command words (R6): one after another, each to its end. -/
def runWords : List Word → State → StepResult
  | [], s => .next s
  | w :: rest, s =>
    match executeWord w s with
    | .next t => runWords rest t
    | .fault r => .fault r
    | .refused r => .refused r

end Sys2Proof.Machine
end

