-- ==== Sys2Proof/Machine/Step.lean ====
section
/-!
DEFINITION. One step of the machine: the next thing the host does, taken to its end.
-/

namespace Sys2Proof.Machine

open Sys2Proof (Word)

/-- One step (R5): the next input of the host, a command word or pin reset, is taken from the list and carried
out. With no input the block waits, all state kept (R255, R262). -/
def step (s : State) : Host.Outcome State Fault Refusal :=
  match s.input with
  | [] => .next s
  | i :: rest => takeInput i { s with input := rest }

/-- `s` with the command word of `w` as the next thing the host hands over. A command is one 32-bit word (R60);
bits from `nbits` up are 0. -/
def State.withFetchWord (s : State) (nbits w : Nat) : State :=
  { s with input := .command (BitVec.ofNat 32 (w % 2 ^ nbits)) :: s.input }

end Sys2Proof.Machine
end

