-- ==== Sys2Proof/Safety.lean ====
section
/-!
DEFINITION. What counts as a run that ended well (R6, R248), the invariants of R34, and the words claims are
stated in.
-/

namespace Sys2Proof.Safety

open Sys2Proof Sys2Proof.Machine

/-- A run has ended well iff `FAULTED = 0` at its end (R6, R248). -/
def EndedWell (s : State) : Prop := s.faulted = false

/-- The state `raise E(info)` leaves (R240), the error being given by its code (R231): `ERRCODE`, `ERRINFO`,
`ERRCMD`, `ERRSEQ` and `FAULTED` are written, and nothing else. -/
def raised (code : Nat) (info w : Word) (s : State) : State :=
  { s with
    errcode := BitVec.ofNat 32 code
    errinfo := info
    errcmd := w
    errseq := s.cmdcnt
    faulted := true }

/-- A bank is unconstructed, or constructed within the limits of R16, its grid having its dimensions
(R16; R34, 6). -/
def BankOk (p : Config.Params) (m : Bank) : Prop :=
  (m.rows = 0 ∧ m.cols = 0 ∧ m.cells = []) ∨
  (1 ≤ m.rows ∧ m.rows ≤ p.matMaxRows ∧ 1 ≤ m.cols ∧ m.cols ≤ p.matMaxCols ∧
    m.cells.length = m.rows ∧ ∀ row ∈ m.cells, row.length = m.cols)

/-- The invariants of R34, with the canonical form of cover memory. That `CB`, `PT` and matrix elements are
field elements, `EV` bytes and `PRSEED`, `PRSTATE` 16 bits wide (R34, 4 and 5) is in the types. -/
structure Inv (s : State) : Prop where
  /-- R34, 1 (R25). -/
  ready_clear : s.faulted = false → s.errcode = 0 ∧ s.errinfo = 0 ∧ s.errcmd = 0 ∧ s.errseq = 0
  /-- R34, 1, with "Codes 15 and above are never written to `ERRCODE`" (R231). -/
  faulted_code : s.faulted = true → 1 ≤ s.errcode.toNat ∧ s.errcode.toNat ≤ 14
  /-- R34, 2 (R22). -/
  k_range : s.k = 0 ∨ (2 ≤ s.k ∧ s.k ≤ 257)
  /-- R34, 2 (R22). -/
  n_range : s.n = 0 ∨ (s.k ≠ 0 ∧ s.k ≤ s.n ∧ s.n ≤ 256)
  /-- R34, 3 (R27). -/
  payoff_le : s.payoff.toNat ≤ s.cursor.toNat
  /-- R34, 3 (R27). -/
  cursor_le : s.cursor.toNat ≤ s.buflen.toNat
  /-- R34, 3 (R27). -/
  buflen_le : s.buflen.toNat ≤ s.params.coverMemBytes
  /-- R34, 3 (R27). -/
  cursor_mod : (s.cursor.toNat - s.payoff.toNat) % 8 = 0
  /-- R34, 6 (R16). -/
  ma_ok : BankOk s.params s.ma
  /-- R34, 6 (R16). -/
  mb_ok : BankOk s.params s.mb
  /-- The bytes written to cover memory are listed in canonical form. -/
  cv_wf : Memory.wf s.cv = true
  /-- Cover memory has addresses 0 to `COVER_MEM_BYTES - 1` (R28). -/
  cv_range : ∀ cell ∈ s.cv, cell.1 < s.params.coverMemBytes

/-- Every element of a bank within its dimensions is initialised (R17). -/
def AllInitialised (m : Bank) : Prop :=
  ∀ r c, r < m.rows → c < m.cols → m.elem r c ≠ none

/-- The value of an element, 0 for one that is `none`; read only where every element is initialised. -/
def elemValue (m : Bank) (r c : Nat) : Felt := (m.elem r c).getD 0

/-- Row echelon form with every pivot scaled to 1 (R129, R132), with the pivot column of each row that has one: a
pivot is 1, has only zeros below it in its column and to its left in its row, and lies to the right of the pivot of
the row above; the rows without a pivot are all zero and at the bottom. -/
def EchelonWith (m : Bank) (pivotCols : List Nat) : Prop :=
  pivotCols.length ≤ m.rows ∧ pivotCols.Pairwise (· < ·) ∧ (∀ c ∈ pivotCols, c < m.cols) ∧
  (∀ r c, pivotCols[r]? = some c →
    m.elem r c = some 1 ∧ (∀ r', r < r' → r' < m.rows → m.elem r' c = some 0) ∧
    (∀ c', c' < c → m.elem r c' = some 0)) ∧
  (∀ r c, pivotCols.length ≤ r → r < m.rows → c < m.cols → m.elem r c = some 0)

/-- The reduced row echelon form of R133: an echelon form in which every pivot has only zeros above it too, so that
it is the only non-zero entry of its column. -/
def ReducedWith (m : Bank) (pivotCols : List Nat) : Prop :=
  EchelonWith m pivotCols ∧
  ∀ r c, pivotCols[r]? = some c → ∀ r', r' < r → m.elem r' c = some 0

/-- The value of `c0 + c1*x + c2*x^2 + ...` modulo 257, summed on unbounded integers and then reduced
(R190), with `x^0 = 1` for every `x`. -/
def polyValue (c : List Felt) (x : Nat) : Nat :=
  (∑ i ∈ Finset.range c.length, (c.getD i 0).val * x ^ i) % 257

/-- The commands that act at `CURSOR` (R178, R179), an EMBEDC being given a byte. -/
def CursorCommand (s : State) : Instr → Prop
  | .extractc _ => True
  | .embedc ra => s.x[ra].toNat ≤ 255
  | _ => False

end Sys2Proof.Safety
end

