-- ==== Sys2Proof/Certificates/Slice0/Obligations.lean ====
section
/-!
DEFINITION. The statements for the provers, from the numbered rules of the spec: encodings, the step, whole-machine
rules, then the commands family by family. A command's statement gives the state it leaves as an equation, which
is its frame as well: a field not named in it is unchanged. `raised code info w s` is the error entry of R240.

`exec i s` is what the command does when it executes. In FAULTED a step executes only NOP, CSRR, OUT, ERRACK and
SRST (R242); that the filter stands in the step and not in `exec` is log entry 7, and StepRunsTheDecodedCommand and
FaultedDropsOtherWords say how the two go together.
-/

open Sys2Proof Sys2Proof.Machine Sys2Proof.Safety

/-! ### Encoding (30_encoding.md) -/

/-- Every command is decoded from its own word, with every operand at every value its field admits
(R61 to R69). -/
def Obligations.DecodeOfEncodeIsTheCommand : Prop :=
  ∀ i : Instr, i.wellFormed = true → decode (encode i) = .ok i

/-- A word that decodes is the word of its command: no bit of it is ignored (R66), and the command is one of
R67 (R71). -/
def Obligations.DecodedWordIsTheCommandsWord : Prop :=
  ∀ (w : Word) (i : Instr), decode w = .ok i → i.wellFormed = true ∧ encode i = w

/-- The opcodes of which every word is illegal are those R70 lists, and the CSR numbers are those of R71. -/
def Obligations.IllegalOpcodesAndCsrNumbersAreThoseListed : Prop :=
  (∀ w : Word, decode w = .error .unknownOpcode ↔
    (0x0A ≤ w.toNat / 2 ^ 24 ∧ w.toNat / 2 ^ 24 ≤ 0x0F) ∨ (0x17 ≤ w.toNat / 2 ^ 24 ∧ w.toNat / 2 ^ 24 ≤ 0x1F) ∨
    (0x2B ≤ w.toNat / 2 ^ 24 ∧ w.toNat / 2 ^ 24 ≤ 0x2F) ∨ (0x33 ≤ w.toNat / 2 ^ 24 ∧ w.toNat / 2 ^ 24 ≤ 0x3F) ∨
    (0x44 ≤ w.toNat / 2 ^ 24 ∧ w.toNat / 2 ^ 24 ≤ 0x4F) ∨ (0x5B ≤ w.toNat / 2 ^ 24 ∧ w.toNat / 2 ^ 24 ≤ 0x5F) ∨
    0x65 ≤ w.toNat / 2 ^ 24) ∧
  (∀ csr : BitVec 8, (csrOfNumber csr).isSome = true ↔
    csr.toNat ≤ 0x0A ∨ (0x10 ≤ csr.toNat ∧ csr.toNat ≤ 0x13) ∨ (0x18 ≤ csr.toNat ∧ csr.toNat ≤ 0x1A) ∨
    (0x20 ≤ csr.toNat ∧ csr.toNat ≤ 0x23) ∨ (0x28 ≤ csr.toNat ∧ csr.toNat ≤ 0x2A))

/-- The words of R77. -/
def Obligations.ExampleWordsDecode : Prop :=
  decode 0x12312000 = .ok (.fadd 3 1 2) ∧ decode 0x011000C8 = .ok (.li 1 200) ∧
  decode 0x21012301 = .ok (.mset .B 1 2 3) ∧ decode 0x04500003 = .ok (.csrr 5 3) ∧
  decode 0x63000000 = .ok .pshare ∧ decode 0x57045000 = .ok (.embed 4 5) ∧
  decode 0x12312001 = .error .unusedFieldSet ∧ decode 0x10310000 = .error .unusedFieldSet

/-! ### The step (00_scope.md, 40_control.md, 60_exceptions.md) -/

/-- When the next word the host hands over decodes to a command that the filter of R242 lets through, the step
takes the word from the host's inputs and is the command's meaning on the state that is left. -/
def Obligations.StepRunsTheDecodedCommand : Prop :=
  ∀ (s : State) (w : Word) (rest : List HostInput) (i : Instr),
    s.input = .command w :: rest → decode w = .ok i →
    (s.faulted = false ∨ i = .nop ∨ (∃ rd csr, i = .csrr rd csr) ∨ (∃ ra, i = .out ra) ∨ i = .errack ∨ i = .srst) →
    step s = exec i { s with input := rest }

/-- In FAULTED every word, legal or illegal, that does not decode to NOP, CSRR, OUT, ERRACK or SRST is dropped:
no state changes (R242). -/
def Obligations.FaultedDropsOtherWords : Prop :=
  ∀ (s : State) (w : Word) (rest : List HostInput),
    s.input = .command w :: rest → s.faulted = true →
    (∀ i, decode w = .ok i →
      i ≠ .nop ∧ (∀ rd csr, i ≠ .csrr rd csr) ∧ (∀ ra, i ≠ .out ra) ∧ i ≠ .errack ∧ i ≠ .srst) →
    step s = .next { s with input := rest }

/-- In READY an illegal word raises IllegalCommand with info 0, the word itself in ERRCMD (R70, R240). -/
def Obligations.IllegalWordRaisesInReady : Prop :=
  ∀ (s : State) (w : Word) (rest : List HostInput) (e : Illegal),
    s.input = .command w :: rest → s.faulted = false → decode w = .error e →
    step s = .next { s with
      input := rest, faulted := true, errcode := 1, errinfo := 0, errcmd := w, errseq := s.cmdcnt }

/-- The reset table of R30, with the values of R31 and R261: what power-up followed by reset leaves. -/
def Obligations.ResetLeavesTheTabledValues : Prop :=
  (∀ i : RegIdx, State.reset.x[i] = 0) ∧ State.reset.faulted = false ∧ State.reset.errcode = 0 ∧
  State.reset.errinfo = 0 ∧ State.reset.errcmd = 0 ∧ State.reset.errseq = 0 ∧ State.reset.cmdcnt = 0 ∧
  State.reset.k = 0 ∧ State.reset.n = 0 ∧ State.reset.corrcnt = 0 ∧
  (State.reset.ma.rows = 0 ∧ State.reset.ma.cols = 0 ∧ State.reset.ma.cells = []) ∧
  (State.reset.mb.rows = 0 ∧ State.reset.mb.cols = 0 ∧ State.reset.mb.cells = []) ∧
  (∀ i : Fin 257, State.reset.cb[i] = 0) ∧ (∀ i : Fin 256, State.reset.ev[i] = 0) ∧
  (∀ i : Fin 257, State.reset.pt[i] = ⟨0, 0⟩) ∧
  State.reset.prseed = 0 ∧ State.reset.prstate = 0 ∧ State.reset.prrem = 0 ∧
  State.reset.buflen = 0 ∧ State.reset.payoff = 0 ∧ State.reset.cursor = 0 ∧ State.reset.resp = [] ∧
  (∀ a, readByte State.reset.cv a = Config.cvInit a)

/-- SRST and pin reset have the same effect (R263), that of R30: every piece of state takes its reset value
but `CV` and `RESP`, which are as they were; SRST does not count itself (R87). That the model's own `input` and
`params` are kept is log entries 1 and 2. -/
def Obligations.SrstAndPinResetAgree : Prop :=
  ∀ s : State,
    exec .srst s = .next { State.reset with cv := s.cv, resp := s.resp, input := s.input, params := s.params } ∧
    ∀ rest, step { s with input := .pinReset :: rest } = exec .srst { s with input := rest }

/-- A step is total: it always answers a next state (R5). With no input left the block waits, all state kept
(R255, R262; that no input means waiting is log entry 1). -/
def Obligations.EveryStepAnswersANextState : Prop :=
  ∀ s : State, (∃ t, step s = .next t) ∧ (s.input = [] → step s = .next s)

/-! ### Whole-machine rules -/

/-- The invariants of R34, with the canonical form of cover memory, are kept by every step. -/
def Obligations.EveryStepKeepsTheInvariants : Prop :=
  ∀ s t : State, Inv s → step s = .next t → Inv t

/-- The invariants of R34 hold after reset. -/
def Obligations.ResetHasTheInvariants : Prop := Inv State.reset

/-- A command executed in READY either raises, and then changes nothing but the error record and `FAULTED`
(R240, R241), or completes, and then `FAULTED` and the error record are as before and, but for SRST, `CMDCNT`
is one more modulo 2^32 (R13, R90). -/
def Obligations.CommandRaisesOrCounts : Prop :=
  ∀ (i : Instr) (s : State), s.faulted = false → ∃ t, exec i s = .next t ∧
    ((∃ code info, 1 ≤ code ∧ code ≤ 14 ∧ t = raised code info (encode i) s) ∨
     (t.faulted = false ∧ (i ≠ .srst → t.cmdcnt = s.cmdcnt + 1) ∧
      (i ≠ .srst → i ≠ .errack →
        t.errcode = s.errcode ∧ t.errinfo = s.errinfo ∧ t.errcmd = s.errcmd ∧ t.errseq = s.errseq)))

/-- No error can be raised in FAULTED: the record stays that of the first error until `FAULTED` is cleared
(R25, R242, R244). -/
def Obligations.FaultedKeepsTheFirstRecord : Prop :=
  ∀ s t : State, s.faulted = true → step s = .next t →
    t.faulted = false ∨
    (t.faulted = true ∧ t.errcode = s.errcode ∧ t.errinfo = s.errinfo ∧ t.errcmd = s.errcmd ∧ t.errseq = s.errseq)

/-- The commands that may change a register of R22 to R27 or a buffer, as "changed by" of R23 and R19 to R21
name them; and OUT alone adds to the response stream, one word at its end (R29). -/
def Obligations.StateChangesOnlyByTheNamedCommands : Prop :=
  ∀ (i : Instr) (s t : State), exec i s = .next t → i ≠ .srst →
    (t.k ≠ s.k → ∃ ra, i = .kset ra) ∧
    (t.n ≠ s.n → (∃ ra, i = .nset ra) ∨ ∃ ra, i = .kset ra) ∧
    (t.corrcnt ≠ s.corrcnt → i = .pshare) ∧
    (t.cb ≠ s.cb → (∃ ra rb, i = .cset ra rb) ∨ i = .mxorb ∨ i = .pshare ∨ i = .isolve) ∧
    (t.ev ≠ s.ev → i = .pshare) ∧
    (t.pt ≠ s.pt → ∃ ra rb rc, i = .ptset ra rb rc) ∧
    (t.prseed ≠ s.prseed → ∃ ra rb, i = .mseed ra rb) ∧
    (t.prstate ≠ s.prstate ∨ t.prrem ≠ s.prrem →
      (∃ ra rb, i = .mseed ra rb) ∨ (∃ rd, i = .mnext rd) ∨ (∃ rd ra, i = .mxor rd ra) ∨ i = .mxorb) ∧
    (t.buflen ≠ s.buflen ∨ t.payoff ≠ s.payoff → ∃ ra rb, i = .bcopen ra rb) ∧
    (t.cursor ≠ s.cursor → (∃ ra rb, i = .bcopen ra rb) ∨ (∃ ra, i = .embedc ra) ∨ ∃ rd, i = .extractc rd) ∧
    (t.resp = match i with
      | .out ra => s.resp ++ [s.x[ra]]
      | _ => s.resp)

/-- Cover memory is written by stores and embeddings only, and no command, SRST included, reaches a byte at or
beyond `BUFLEN` (R28, R41): none changes such a byte, and none reads one, for a command does the same, but for those
bytes, in two states that differ only in them. -/
def Obligations.CoverMemoryBeyondBuflenIsOutOfReach : Prop :=
  ∀ (i : Instr) (s t : State), exec i s = .next t →
    (∀ a, s.buflen.toNat ≤ a → readByte t.cv a = readByte s.cv a) ∧
    (t.cv ≠ s.cv → (∃ ra rb, i = .cvst1 ra rb ∨ i = .cvst2 ra rb ∨ i = .cvst4 ra rb ∨ i = .embed ra rb) ∨
      ∃ ra, i = .embedc ra) ∧
    (∀ m : Memory, (∀ a, a < s.buflen.toNat → readByte m a = readByte s.cv a) →
      ∃ m', exec i { s with cv := m } = .next { t with cv := m' } ∧
        (∀ a, a < s.buflen.toNat → readByte m' a = readByte t.cv a) ∧
        ∀ a, s.buflen.toNat ≤ a → readByte m' a = readByte m a)

/-! ### Control, move and configuration (40_control.md) -/

/-- `exec` of NOP, LI, LIH, MOV, OUT, FZERO and FONE completes in every state with the effect of R80 to R83, R85,
R101 and R102. It is `exec` alone that is meant: in FAULTED a step drops LI, LIH, MOV, FZERO and FONE (R242; log
entry 7), as FaultedDropsOtherWords says. -/
def Obligations.MovesAndConstantsComplete : Prop :=
  ∀ (rd ra : RegIdx) (imm16 : BitVec 16) (s : State),
    exec .nop s = .next { s with cmdcnt := s.cmdcnt + 1 } ∧
    exec (.li rd imm16) s = .next { s with
      x := s.x.set rd (BitVec.ofNat 32 imm16.toNat), cmdcnt := s.cmdcnt + 1 } ∧
    exec (.lih rd imm16) s = .next { s with
      x := s.x.set rd (BitVec.ofNat 32 (imm16.toNat * 2 ^ 16 + s.x[rd].toNat % 2 ^ 16)), cmdcnt := s.cmdcnt + 1 } ∧
    exec (.mov rd ra) s = .next { s with x := s.x.set rd s.x[ra], cmdcnt := s.cmdcnt + 1 } ∧
    exec (.out ra) s = .next { s with resp := s.resp ++ [s.x[ra]], cmdcnt := s.cmdcnt + 1 } ∧
    exec (.fzero rd) s = .next { s with x := s.x.set rd 0, cmdcnt := s.cmdcnt + 1 } ∧
    exec (.fone rd) s = .next { s with x := s.x.set rd 1, cmdcnt := s.cmdcnt + 1 }

/-- CSRR reads, for every number of R23, the value of its row, from the state before the command (R84), with
`STATUS` as R24 lays it out and `CAPACITY` as R57 computes it. -/
def Obligations.CsrrReadsTheTabledValue : Prop :=
  ∀ (rd : RegIdx) (s : State), ∀ row ∈ ([
      (0x00#8, 257#32), (0x01#8, 1#32),
      (0x02#8, BitVec.ofNat 32 (s.faulted.toNat + 2 * (s.k != 0).toNat + 4 * (s.n != 0).toNat
        + 8 * (s.prrem != 0).toNat + 16 * (s.buflen != 0).toNat + 32 * (s.ma.rows != 0).toNat
        + 64 * (s.mb.rows != 0).toNat)),
      (0x03#8, s.errcode), (0x04#8, s.errinfo), (0x05#8, s.errcmd), (0x06#8, s.errseq), (0x07#8, s.cmdcnt),
      (0x08#8, BitVec.ofNat 32 s.k), (0x09#8, BitVec.ofNat 32 s.n), (0x0A#8, s.corrcnt),
      (0x10#8, s.buflen), (0x11#8, s.payoff), (0x12#8, s.cursor),
      (0x13#8, BitVec.ofNat 32 ((s.buflen.toNat - s.payoff.toNat) / 8)),
      (0x18#8, BitVec.ofNat 32 s.prseed.toNat), (0x19#8, BitVec.ofNat 32 s.prstate.toNat), (0x1A#8, s.prrem),
      (0x20#8, BitVec.ofNat 32 s.ma.rows), (0x21#8, BitVec.ofNat 32 s.ma.cols),
      (0x22#8, BitVec.ofNat 32 s.mb.rows), (0x23#8, BitVec.ofNat 32 s.mb.cols),
      (0x28#8, BitVec.ofNat 32 s.params.matMaxRows), (0x29#8, BitVec.ofNat 32 s.params.matMaxCols),
      (0x2A#8, BitVec.ofNat 32 s.params.coverMemBytes)] : List (BitVec 8 × Word)),
    exec (.csrr rd row.1) s = .next { s with x := s.x.set rd row.2, cmdcnt := s.cmdcnt + 1 }

/-- ERRACK, the return from an error, clears `FAULTED` and the four error registers and restores nothing
(R86, R244). After an error the state is what it was before the raising command, but for `CMDCNT`, which counts
the ERRACK (R241, R243). -/
def Obligations.ErrackClearsTheRecord : Prop :=
  (∀ s : State, exec .errack s = .next { s with
    faulted := false, errcode := 0, errinfo := 0, errcmd := 0, errseq := 0, cmdcnt := s.cmdcnt + 1 }) ∧
  (∀ (i : Instr) (s t : State), Inv s → s.faulted = false → exec i s = .next t → t.faulted = true →
    exec .errack t = .next { s with cmdcnt := s.cmdcnt + 1 })

/-- KSET sets `K` and clears `N` (R88); NSET sets `N` when `K` is set (R89). -/
def Obligations.KsetAndNsetSetTheParameters : Prop :=
  ∀ (ra : RegIdx) (s : State),
    (2 ≤ s.x[ra].toNat → s.x[ra].toNat ≤ 257 →
      exec (.kset ra) s = .next { s with k := s.x[ra].toNat, n := 0, cmdcnt := s.cmdcnt + 1 }) ∧
    (s.x[ra].toNat < 2 ∨ 257 < s.x[ra].toNat →
      exec (.kset ra) s = .next (raised 6 s.x[ra] (encode (.kset ra)) s)) ∧
    (s.k ≠ 0 → s.k ≤ s.x[ra].toNat → s.x[ra].toNat ≤ 256 →
      exec (.nset ra) s = .next { s with n := s.x[ra].toNat, cmdcnt := s.cmdcnt + 1 }) ∧
    (s.k = 0 ∨ s.x[ra].toNat < s.k ∨ 256 < s.x[ra].toNat →
      exec (.nset ra) s = .next (raised 6 s.x[ra] (encode (.nset ra)) s))

/-- LI32 expands to LI of the low half and LIH of the high half, two words whatever the value (R76). That the run of
the two leaves the 32-bit value in the register and counts two commands follows from R81, R82 and R90. -/
def Obligations.Li32LoadsTheWholeWord : Prop :=
  ∀ (rd : RegIdx) (v : Word) (s : State),
    li32 rd v = [.li rd (BitVec.ofNat 16 (v.toNat % 2 ^ 16)), .lih rd (BitVec.ofNat 16 (v.toNat / 2 ^ 16))] ∧
    (s.faulted = false →
      runWords ((li32 rd v).map encode) s = .next { s with x := s.x.set rd v, cmdcnt := s.cmdcnt + 2 })

/-! ### The field ALU (41_field_alu.md) -/

/-- FADD (R103). -/
def Obligations.FaddAddsInTheField : Prop :=
  ∀ (rd ra rb : RegIdx) (s : State),
    (s.x[ra].toNat < 257 → s.x[rb].toNat < 257 →
      exec (.fadd rd ra rb) s = .next { s with
        x := s.x.set rd (BitVec.ofNat 32 ((s.x[ra].toNat + s.x[rb].toNat) % 257)), cmdcnt := s.cmdcnt + 1 }) ∧
    (257 ≤ s.x[ra].toNat → exec (.fadd rd ra rb) s = .next (raised 2 s.x[ra] (encode (.fadd rd ra rb)) s)) ∧
    (s.x[ra].toNat < 257 → 257 ≤ s.x[rb].toNat →
      exec (.fadd rd ra rb) s = .next (raised 2 s.x[rb] (encode (.fadd rd ra rb)) s))

/-- FMUL (R104). -/
def Obligations.FmulMultipliesInTheField : Prop :=
  ∀ (rd ra rb : RegIdx) (s : State),
    (s.x[ra].toNat < 257 → s.x[rb].toNat < 257 →
      exec (.fmul rd ra rb) s = .next { s with
        x := s.x.set rd (BitVec.ofNat 32 ((s.x[ra].toNat * s.x[rb].toNat) % 257)), cmdcnt := s.cmdcnt + 1 }) ∧
    (257 ≤ s.x[ra].toNat → exec (.fmul rd ra rb) s = .next (raised 2 s.x[ra] (encode (.fmul rd ra rb)) s)) ∧
    (s.x[ra].toNat < 257 → 257 ≤ s.x[rb].toNat →
      exec (.fmul rd ra rb) s = .next (raised 2 s.x[rb] (encode (.fmul rd ra rb)) s))

/-- FNEG (R105). -/
def Obligations.FnegNegatesInTheField : Prop :=
  ∀ (rd ra : RegIdx) (s : State),
    (s.x[ra].toNat < 257 → exec (.fneg rd ra) s = .next { s with
      x := s.x.set rd (BitVec.ofNat 32 ((257 - s.x[ra].toNat) % 257)), cmdcnt := s.cmdcnt + 1 }) ∧
    (257 ≤ s.x[ra].toNat → exec (.fneg rd ra) s = .next (raised 2 s.x[ra] (encode (.fneg rd ra)) s))

/-- FINV writes the unique `y` in `[1, 257)` with `(a * y) mod 257 = 1`, and raises for 0 and for a value
out of range (R106). -/
def Obligations.FinvWritesTheUniqueInverse : Prop :=
  ∀ (rd ra : RegIdx) (s : State),
    (0 < s.x[ra].toNat → s.x[ra].toNat < 257 → ∃ y, 1 ≤ y ∧ y < 257 ∧ (s.x[ra].toNat * y) % 257 = 1 ∧
      (∀ z, 1 ≤ z → z < 257 → (s.x[ra].toNat * z) % 257 = 1 → z = y) ∧
      exec (.finv rd ra) s = .next { s with x := s.x.set rd (BitVec.ofNat 32 y), cmdcnt := s.cmdcnt + 1 }) ∧
    (s.x[ra].toNat = 0 ∨ 257 ≤ s.x[ra].toNat →
      exec (.finv rd ra) s = .next (raised 2 s.x[ra] (encode (.finv rd ra)) s))

/-- FEQ (R107): two equal out-of-range values raise, they do not compare equal. -/
def Obligations.FeqComparesFieldElements : Prop :=
  ∀ (rd ra rb : RegIdx) (s : State),
    (s.x[ra].toNat < 257 → s.x[rb].toNat < 257 →
      exec (.feq rd ra rb) s = .next { s with
        x := s.x.set rd (if s.x[ra].toNat = s.x[rb].toNat then 1 else 0), cmdcnt := s.cmdcnt + 1 }) ∧
    (257 ≤ s.x[ra].toNat → exec (.feq rd ra rb) s = .next (raised 2 s.x[ra] (encode (.feq rd ra rb)) s)) ∧
    (s.x[ra].toNat < 257 → 257 ≤ s.x[rb].toNat →
      exec (.feq rd ra rb) s = .next (raised 2 s.x[rb] (encode (.feq rd ra rb)) s))

/-- The field laws of R109 for the field arithmetic every unit computes with; the reciprocal of 0 fails. Of these,
distributivity and the two identities rest on the sentence R109 marks as not in the source: "Distributivity and the
identities `fadd(x, 0) = x`, `fmul(x, 1) = x` also hold [from general knowledge, not in source". -/
def Obligations.FieldLawsHold : Prop :=
  (∀ a b : Felt, fadd a b = fadd b a ∧ fmul a b = fmul b a) ∧
  (∀ a b c : Felt, fadd (fadd a b) c = fadd a (fadd b c) ∧ fmul (fmul a b) c = fmul a (fmul b c) ∧
    fmul a (fadd b c) = fadd (fmul a b) (fmul a c)) ∧
  (∀ a : Felt, fadd a 0 = a ∧ fmul a 1 = a ∧ fadd a (fneg a) = 0) ∧
  (∀ a : Felt, a ≠ 0 → fmul a (finv a) = 1) ∧
  (∀ (rd ra : RegIdx) (s : State), s.x[ra] = 0 →
    exec (.finv rd ra) s = .next (raised 2 0 (encode (.finv rd ra)) s))

/-! ### The linear-system unit (42_linear_system.md) -/

/-- MNEW makes a matrix of uninitialised elements; a dimension out of range raises OperandRange, the rows
checked first (R121). -/
def Obligations.MnewConstructsAnUninitialisedMatrix : Prop :=
  ∀ (b : BankSel) (ra rb : RegIdx) (s : State),
    (1 ≤ s.x[ra].toNat → s.x[ra].toNat ≤ s.params.matMaxRows →
      1 ≤ s.x[rb].toNat → s.x[rb].toNat ≤ s.params.matMaxCols →
      ∃ m, exec (.mnew b ra rb) s = .next { setBank s b m with cmdcnt := s.cmdcnt + 1 } ∧
        m.rows = s.x[ra].toNat ∧ m.cols = s.x[rb].toNat ∧ BankOk s.params m ∧ ∀ r c, m.elem r c = none) ∧
    (s.x[ra].toNat = 0 ∨ s.params.matMaxRows < s.x[ra].toNat →
      exec (.mnew b ra rb) s = .next (raised 13 s.x[ra] (encode (.mnew b ra rb)) s)) ∧
    (1 ≤ s.x[ra].toNat → s.x[ra].toNat ≤ s.params.matMaxRows →
      s.x[rb].toNat = 0 ∨ s.params.matMaxCols < s.x[rb].toNat →
      exec (.mnew b ra rb) s = .next (raised 13 s.x[rb] (encode (.mnew b ra rb)) s))

/-- MSET writes one element (R122). MGET reads one, and a `none` raises UninitElement with its linear index
(R18, R123). -/
def Obligations.MsetAndMgetReachOneElement : Prop :=
  (∀ (b : BankSel) (ra rb rc : RegIdx) (s : State), BankOk s.params (bankOf s b) →
    s.x[ra].toNat < (bankOf s b).rows → s.x[rb].toNat < (bankOf s b).cols → s.x[rc].toNat < 257 →
    ∃ m, exec (.mset b ra rb rc) s = .next { setBank s b m with cmdcnt := s.cmdcnt + 1 } ∧
      m.rows = (bankOf s b).rows ∧ m.cols = (bankOf s b).cols ∧
      ∀ r c, m.elem r c = if r = s.x[ra].toNat ∧ c = s.x[rb].toNat then some (feltOf s.x[rc].toNat)
        else (bankOf s b).elem r c) ∧
  (∀ (b : BankSel) (rd ra rb : RegIdx) (s : State),
    s.x[ra].toNat < (bankOf s b).rows → s.x[rb].toNat < (bankOf s b).cols →
    (∀ v, (bankOf s b).elem s.x[ra].toNat s.x[rb].toNat = some v →
      exec (.mget b rd ra rb) s = .next { s with x := s.x.set rd (BitVec.ofNat 32 v.val), cmdcnt := s.cmdcnt + 1 }) ∧
    ((bankOf s b).elem s.x[ra].toNat s.x[rb].toNat = none →
      exec (.mget b rd ra rb) s = .next (raised 7
        (BitVec.ofNat 32 (s.x[ra].toNat * (bankOf s b).cols + s.x[rb].toNat)) (encode (.mget b rd ra rb)) s)))

/-- The order of checks of R120 in MSET, MGET, MSWAP, MSCALE and MADDSR: the bank, then the index operands in
order, then the value operand. -/
def Obligations.ElementAndRowCommandsCheckInOrder : Prop :=
  ∀ (b : BankSel) (rd ra rb rc : RegIdx) (s : State),
    ((bankOf s b).rows = 0 →
      ∀ i ∈ [Instr.mset b ra rb rc, .mget b rd ra rb, .mswap b ra rb, .mscale b ra rb, .maddsr b ra rb rc],
        exec i s = .next (raised 14 (bankNumber b) (encode i) s)) ∧
    ((bankOf s b).rows ≠ 0 → (bankOf s b).rows ≤ s.x[ra].toNat →
      ∀ i ∈ [Instr.mset b ra rb rc, .mget b rd ra rb, .mswap b ra rb, .mscale b ra rb, .maddsr b ra rb rc],
        exec i s = .next (raised 8 s.x[ra] (encode i) s)) ∧
    (s.x[ra].toNat < (bankOf s b).rows →
      ((bankOf s b).cols ≤ s.x[rb].toNat → ∀ i ∈ [Instr.mset b ra rb rc, .mget b rd ra rb],
        exec i s = .next (raised 8 s.x[rb] (encode i) s)) ∧
      ((bankOf s b).rows ≤ s.x[rb].toNat → ∀ i ∈ [Instr.mswap b ra rb, .maddsr b ra rb rc],
        exec i s = .next (raised 8 s.x[rb] (encode i) s)) ∧
      (257 ≤ s.x[rb].toNat → exec (.mscale b ra rb) s = .next (raised 2 s.x[rb] (encode (.mscale b ra rb)) s)) ∧
      (257 ≤ s.x[rc].toNat →
        (s.x[rb].toNat < (bankOf s b).cols →
          exec (.mset b ra rb rc) s = .next (raised 2 s.x[rc] (encode (.mset b ra rb rc)) s)) ∧
        (s.x[rb].toNat < (bankOf s b).rows →
          exec (.maddsr b ra rb rc) s = .next (raised 2 s.x[rc] (encode (.maddsr b ra rb rc)) s))))

/-- MSWAP exchanges two rows, `none` elements as they are; a row with itself changes nothing (R124). -/
def Obligations.MswapExchangesRows : Prop :=
  ∀ (b : BankSel) (ra rb : RegIdx) (s : State), BankOk s.params (bankOf s b) →
    s.x[ra].toNat < (bankOf s b).rows → s.x[rb].toNat < (bankOf s b).rows →
    ∃ m, exec (.mswap b ra rb) s = .next { setBank s b m with cmdcnt := s.cmdcnt + 1 } ∧
      m.rows = (bankOf s b).rows ∧ m.cols = (bankOf s b).cols ∧
      ∀ r c, m.elem r c = (bankOf s b).elem
        (if r = s.x[ra].toNat then s.x[rb].toNat else if r = s.x[rb].toNat then s.x[ra].toNat else r) c

/-- MSCALE multiplies every element of one row by the factor (R125). -/
def Obligations.MscaleScalesOneRow : Prop :=
  ∀ (b : BankSel) (ra rb : RegIdx) (s : State), BankOk s.params (bankOf s b) →
    s.x[ra].toNat < (bankOf s b).rows → s.x[rb].toNat < 257 →
    (∀ c, c < (bankOf s b).cols → (bankOf s b).elem s.x[ra].toNat c ≠ none) →
    ∃ m, exec (.mscale b ra rb) s = .next { setBank s b m with cmdcnt := s.cmdcnt + 1 } ∧
      m.rows = (bankOf s b).rows ∧ m.cols = (bankOf s b).cols ∧
      ∀ r c, m.elem r c = if r = s.x[ra].toNat
        then ((bankOf s b).elem r c).map fun v => feltOf (v.val * s.x[rb].toNat)
        else (bankOf s b).elem r c

/-- MADDSR adds the factor times the source row to the destination row, each lane from the values before the
command; the two rows may be the same (R126). -/
def Obligations.MaddsrAddsAScaledRow : Prop :=
  ∀ (b : BankSel) (ra rb rc : RegIdx) (s : State), BankOk s.params (bankOf s b) →
    s.x[ra].toNat < (bankOf s b).rows → s.x[rb].toNat < (bankOf s b).rows → s.x[rc].toNat < 257 →
    (∀ c, c < (bankOf s b).cols → (bankOf s b).elem s.x[ra].toNat c ≠ none) →
    (∀ c, c < (bankOf s b).cols → (bankOf s b).elem s.x[rb].toNat c ≠ none) →
    ∃ m, exec (.maddsr b ra rb rc) s = .next { setBank s b m with cmdcnt := s.cmdcnt + 1 } ∧
      m.rows = (bankOf s b).rows ∧ m.cols = (bankOf s b).cols ∧
      ∀ r c, m.elem r c = if r = s.x[rb].toNat
        then ((bankOf s b).elem r c).bind fun d => ((bankOf s b).elem s.x[ra].toNat c).map fun v =>
          feltOf (d.val + v.val * s.x[rc].toNat)
        else (bankOf s b).elem r c

/-- A row command on a `none` element raises UninitElement with the smallest linear index in the row it checks
(R125, R126): MADDSR checks its source row whole before its destination row. -/
def Obligations.RowCommandsRefuseUninitialisedElements : Prop :=
  ∀ (b : BankSel) (ra rb rc : RegIdx) (s : State) (c : Nat), BankOk s.params (bankOf s b) →
    s.x[ra].toNat < (bankOf s b).rows → c < (bankOf s b).cols →
    ((bankOf s b).elem s.x[ra].toNat c = none →
      (∀ d, d < c → (bankOf s b).elem s.x[ra].toNat d ≠ none) →
      (s.x[rb].toNat < 257 → exec (.mscale b ra rb) s = .next (raised 7
        (BitVec.ofNat 32 (s.x[ra].toNat * (bankOf s b).cols + c)) (encode (.mscale b ra rb)) s)) ∧
      (s.x[rb].toNat < (bankOf s b).rows → s.x[rc].toNat < 257 → exec (.maddsr b ra rb rc) s = .next (raised 7
        (BitVec.ofNat 32 (s.x[ra].toNat * (bankOf s b).cols + c)) (encode (.maddsr b ra rb rc)) s))) ∧
    (s.x[rb].toNat < (bankOf s b).rows → s.x[rc].toNat < 257 →
      (∀ d, d < (bankOf s b).cols → (bankOf s b).elem s.x[ra].toNat d ≠ none) →
      (bankOf s b).elem s.x[rb].toNat c = none →
      (∀ d, d < c → (bankOf s b).elem s.x[rb].toNat d ≠ none) →
      exec (.maddsr b ra rb rc) s = .next (raised 7
        (BitVec.ofNat 32 (s.x[rb].toNat * (bankOf s b).cols + c)) (encode (.maddsr b ra rb rc)) s))

/-- MAPPC and MAPPR put the other bank's columns, or rows, after the subject bank's, `none` elements as they
are, and leave the other bank unchanged (R127, R128). -/
def Obligations.AppendsComposeTheTwoBanks : Prop :=
  ∀ (b : BankSel) (s : State), BankOk s.params (bankOf s b) → BankOk s.params (bankOf s (otherBank b)) →
    (bankOf s b).rows ≠ 0 → (bankOf s (otherBank b)).rows ≠ 0 →
    ((bankOf s b).rows = (bankOf s (otherBank b)).rows →
      (bankOf s b).cols + (bankOf s (otherBank b)).cols ≤ s.params.matMaxCols →
      ∃ m, exec (.mappc b) s = .next { setBank s b m with cmdcnt := s.cmdcnt + 1 } ∧
        m.rows = (bankOf s b).rows ∧ m.cols = (bankOf s b).cols + (bankOf s (otherBank b)).cols ∧
        ∀ r c, m.elem r c = if c < (bankOf s b).cols then (bankOf s b).elem r c
          else (bankOf s (otherBank b)).elem r (c - (bankOf s b).cols)) ∧
    ((bankOf s b).cols = (bankOf s (otherBank b)).cols →
      (bankOf s b).rows + (bankOf s (otherBank b)).rows ≤ s.params.matMaxRows →
      ∃ m, exec (.mappr b) s = .next { setBank s b m with cmdcnt := s.cmdcnt + 1 } ∧
        m.rows = (bankOf s b).rows + (bankOf s (otherBank b)).rows ∧ m.cols = (bankOf s b).cols ∧
        ∀ r c, m.elem r c = if r < (bankOf s b).rows then (bankOf s b).elem r c
          else (bankOf s (otherBank b)).elem (r - (bankOf s b).rows) c)

/-- What MAPPC and MAPPR raise, in order: NoMatrix for the subject bank, then for the other, DimMismatch,
OperandRange with the would-be dimension (R127, R128, R231). -/
def Obligations.AppendsRaiseInOrder : Prop :=
  ∀ (b : BankSel) (s : State),
    ((bankOf s b).rows = 0 → ∀ i ∈ [Instr.mappc b, .mappr b],
      exec i s = .next (raised 14 (bankNumber b) (encode i) s)) ∧
    ((bankOf s b).rows ≠ 0 → (bankOf s (otherBank b)).rows = 0 → ∀ i ∈ [Instr.mappc b, .mappr b],
      exec i s = .next (raised 14 (bankNumber (otherBank b)) (encode i) s)) ∧
    ((bankOf s b).rows ≠ 0 → (bankOf s (otherBank b)).rows ≠ 0 →
      ((bankOf s b).rows ≠ (bankOf s (otherBank b)).rows → exec (.mappc b) s =
        .next (raised 9 (BitVec.ofNat 32 (bankOf s (otherBank b)).rows) (encode (.mappc b)) s)) ∧
      ((bankOf s b).cols ≠ (bankOf s (otherBank b)).cols → exec (.mappr b) s =
        .next (raised 9 (BitVec.ofNat 32 (bankOf s (otherBank b)).cols) (encode (.mappr b)) s)) ∧
      ((bankOf s b).rows = (bankOf s (otherBank b)).rows →
        s.params.matMaxCols < (bankOf s b).cols + (bankOf s (otherBank b)).cols → exec (.mappc b) s =
        .next (raised 13 (BitVec.ofNat 32 ((bankOf s b).cols + (bankOf s (otherBank b)).cols))
          (encode (.mappc b)) s)) ∧
      ((bankOf s b).cols = (bankOf s (otherBank b)).cols →
        s.params.matMaxRows < (bankOf s b).rows + (bankOf s (otherBank b)).rows → exec (.mappr b) s =
        .next (raised 13 (BitVec.ofNat 32 ((bankOf s b).rows + (bankOf s (otherBank b)).rows))
          (encode (.mappr b)) s)))

/-- MRREF completes on every constructed bank of initialised elements, keeps its dimensions, and leaves it in
reduced row echelon form (R130), the form R133 derives from R129; "reducing an already-reduced matrix leaves it
unchanged" (R130). -/
def Obligations.MrrefLeavesTheReducedForm : Prop :=
  ∀ (b : BankSel) (s : State), BankOk s.params (bankOf s b) → (bankOf s b).rows ≠ 0 →
    AllInitialised (bankOf s b) →
    (∃ m pivotCols, exec (.mrref b) s = .next { setBank s b m with cmdcnt := s.cmdcnt + 1 } ∧
      m.rows = (bankOf s b).rows ∧ m.cols = (bankOf s b).cols ∧ BankOk s.params m ∧ AllInitialised m ∧
      ReducedWith m pivotCols) ∧
    (∀ pivotCols, ReducedWith (bankOf s b) pivotCols →
      exec (.mrref b) s = .next { s with cmdcnt := s.cmdcnt + 1 })

/-- MRREF and MDET keep the solutions: a vector that every row of the bank sends to 0 is sent to 0 by every row of
the bank they leave, and the other way round. It follows from R129: both passes are made of row operations. The form
of the bank they leave is in MrrefLeavesTheReducedForm and MdetComputesTheDeterminant. -/
def Obligations.EliminationKeepsTheSolutions : Prop :=
  ∀ (b : BankSel) (rd : RegIdx) (s t : State) (v : Nat → Felt), BankOk s.params (bankOf s b) →
    (bankOf s b).rows ≠ 0 → AllInitialised (bankOf s b) →
    (exec (.mrref b) s = .next t ∨ ((bankOf s b).cols = (bankOf s b).rows ∧ exec (.mdet b rd) s = .next t)) →
    ((∀ r, r < (bankOf s b).rows →
        (∑ c ∈ Finset.range (bankOf s b).cols, (elemValue (bankOf s b) r c).val * (v c).val) % 257 = 0) ↔
      (∀ r, r < (bankOf t b).rows →
        (∑ c ∈ Finset.range (bankOf t b).cols, (elemValue (bankOf t b) r c).val * (v c).val) % 257 = 0))

/-- MINV on a square bank of initialised elements: if the matrix has an inverse it completes and leaves it in
the bank; if it has none it raises SingularMatrix and the bank is unchanged (R131, R231). -/
def Obligations.MinvInvertsOrRaisesSingular : Prop :=
  ∀ (b : BankSel) (s : State) (n : Nat), BankOk s.params (bankOf s b) → (bankOf s b).rows = n →
    (bankOf s b).cols = n → n ≠ 0 → AllInitialised (bankOf s b) →
    ((∃ q : Nat → Nat → Felt, ∀ i j, i < n → j < n →
        (∑ l ∈ Finset.range n, (q i l).val * (elemValue (bankOf s b) l j).val) % 257 = if i = j then 1 else 0) →
      ∃ m, exec (.minv b) s = .next { setBank s b m with cmdcnt := s.cmdcnt + 1 } ∧
        m.rows = n ∧ m.cols = n ∧ AllInitialised m ∧
        ∀ i j, i < n → j < n →
          (∑ l ∈ Finset.range n, (elemValue m i l).val * (elemValue (bankOf s b) l j).val) % 257 =
            if i = j then 1 else 0) ∧
    ((¬∃ q : Nat → Nat → Felt, ∀ i j, i < n → j < n →
        (∑ l ∈ Finset.range n, (q i l).val * (elemValue (bankOf s b) l j).val) % 257 = if i = j then 1 else 0) →
      exec (.minv b) s = .next (raised 4 0 (encode (.minv b)) s))

/-- MDET on a square bank of initialised elements completes with the determinant of the matrix in the field,
singular matrices included, and leaves the bank in row echelon form, every pivot scaled to 1 and zeros below each
pivot (R129, R132). -/
def Obligations.MdetComputesTheDeterminant : Prop :=
  ∀ (b : BankSel) (rd : RegIdx) (s : State) (n : Nat), BankOk s.params (bankOf s b) → (bankOf s b).rows = n →
    (bankOf s b).cols = n → n ≠ 0 → AllInitialised (bankOf s b) →
    ∃ m pivotCols, exec (.mdet b rd) s = .next { setBank s b m with
        x := s.x.set rd (BitVec.ofNat 32
          (Matrix.det (Matrix.of fun i j : Fin n => ((elemValue (bankOf s b) i j).val : ZMod 257))).val)
        cmdcnt := s.cmdcnt + 1 } ∧
      m.rows = n ∧ m.cols = n ∧ BankOk s.params m ∧ AllInitialised m ∧ EchelonWith m pivotCols

/-- What MRREF, MINV and MDET raise before they compute: NoMatrix, DimMismatch on a bank that is not square
(MINV, MDET), UninitElement with the smallest linear index of the bank (R130, R131, R132). -/
def Obligations.WholeBankCommandsCheckInOrder : Prop :=
  ∀ (b : BankSel) (rd : RegIdx) (s : State),
    ((bankOf s b).rows = 0 → ∀ i ∈ [Instr.mrref b, .minv b, .mdet b rd],
      exec i s = .next (raised 14 (bankNumber b) (encode i) s)) ∧
    ((bankOf s b).rows ≠ 0 → (bankOf s b).cols ≠ (bankOf s b).rows → ∀ i ∈ [Instr.minv b, .mdet b rd],
      exec i s = .next (raised 9 (BitVec.ofNat 32 (bankOf s b).cols) (encode i) s)) ∧
    (∀ r c, BankOk s.params (bankOf s b) → r < (bankOf s b).rows → c < (bankOf s b).cols →
      (bankOf s b).elem r c = none →
      (∀ r' c', r' < (bankOf s b).rows → c' < (bankOf s b).cols → (bankOf s b).elem r' c' = none →
        r * (bankOf s b).cols + c ≤ r' * (bankOf s b).cols + c') →
      (exec (.mrref b) s = .next (raised 7 (BitVec.ofNat 32 (r * (bankOf s b).cols + c)) (encode (.mrref b)) s)) ∧
      ((bankOf s b).cols = (bankOf s b).rows → ∀ i ∈ [Instr.minv b, .mdet b rd],
        exec i s = .next (raised 7 (BitVec.ofNat 32 (r * (bankOf s b).cols + c)) (encode i) s)))

/-! ### The Vandermonde solver (43_interpolation.md) -/

/-- PTSET writes one point; the index is checked first, then x, then y (R151). -/
def Obligations.PtsetWritesOnePoint : Prop :=
  ∀ (ra rb rc : RegIdx) (s : State),
    (s.x[ra].toNat < 257 → s.x[rb].toNat < 257 → s.x[rc].toNat < 257 →
      ∃ pt', exec (.ptset ra rb rc) s = .next { s with pt := pt', cmdcnt := s.cmdcnt + 1 } ∧
        ∀ i : Fin 257, pt'[i] =
          if i.val = s.x[ra].toNat then ⟨feltOf s.x[rb].toNat, feltOf s.x[rc].toNat⟩ else s.pt[i]) ∧
    (257 ≤ s.x[ra].toNat → exec (.ptset ra rb rc) s = .next (raised 8 s.x[ra] (encode (.ptset ra rb rc)) s)) ∧
    (s.x[ra].toNat < 257 → 257 ≤ s.x[rb].toNat →
      exec (.ptset ra rb rc) s = .next (raised 2 s.x[rb] (encode (.ptset ra rb rc)) s)) ∧
    (s.x[ra].toNat < 257 → s.x[rb].toNat < 257 → 257 ≤ s.x[rc].toNat →
      exec (.ptset ra rb rc) s = .next (raised 2 s.x[rc] (encode (.ptset ra rb rc)) s))

/-- MVAND builds `K` rows of the powers of x, `x^0 = 1` for every x, and y (R152, R153). -/
def Obligations.MvandBuildsTheVandermondeGrid : Prop :=
  ∀ (b : BankSel) (s : State),
    (s.k ≠ 0 → s.k ≤ 257 →
      ∃ m, exec (.mvand b) s = .next { setBank s b m with cmdcnt := s.cmdcnt + 1 } ∧
        m.rows = s.k ∧ m.cols = s.k + 1 ∧ BankOk s.params m ∧
        ∀ i : Fin 257, i.val < s.k →
          (∀ j, j < s.k → m.elem i j = some (feltOf (s.pt[i].x.val ^ j))) ∧ m.elem i s.k = some s.pt[i].y) ∧
    (s.k = 0 → exec (.mvand b) s = .next (raised 6 0 (encode (.mvand b)) s))

/-- ISOLVE succeeds when the x-values of the points are pairwise distinct, and then writes to `CB[0..K-1]` the
only coefficients of a polynomial through the points, leaving `CB[K..256]` and the banks alone; when two
x-values are equal it raises DegenerateSystemError and `CB` is unchanged (R150, R154, R155). That the coefficients
are the only ones rests on the sentence R155 marks as from general knowledge, not in source. -/
def Obligations.IsolveInterpolatesIffDistinct : Prop :=
  ∀ s : State, s.k ≤ 257 →
    (s.k ≠ 0 → (∀ i j : Fin 257, i.val < s.k → j.val < s.k → i ≠ j → s.pt[i].x ≠ s.pt[j].x) →
      ∃ cb', exec .isolve s = .next { s with cb := cb', cmdcnt := s.cmdcnt + 1 } ∧
        (∀ i : Fin 257, i.val < s.k → polyValue (cb'.toList.take s.k) s.pt[i].x.val = s.pt[i].y.val) ∧
        (∀ i : Fin 257, s.k ≤ i.val → cb'[i] = s.cb[i]) ∧
        (∀ c : List Felt, c.length = s.k →
          (∀ i : Fin 257, i.val < s.k → polyValue c s.pt[i].x.val = s.pt[i].y.val) → c = cb'.toList.take s.k)) ∧
    ((∃ i j : Fin 257, i.val < s.k ∧ j.val < s.k ∧ i ≠ j ∧ s.pt[i].x = s.pt[j].x) →
      exec .isolve s = .next (raised 3 0 (encode .isolve) s)) ∧
    (s.k = 0 → exec .isolve s = .next (raised 6 0 (encode .isolve) s))

/-- The interpolation round trip. Evaluate the polynomial at `K` distinct x-values, load the points, and ISOLVE
writes back the coefficients `CB` already holds (R156). When PSHARE completes and the points loaded are any `K` of
the `(j, EV[j])` it leaves, `1 ≤ j ≤ N`, ISOLVE writes the corrected coefficients back (R199). -/
def Obligations.InterpolationRoundTrip : Prop :=
  (∀ s : State, s.k ≠ 0 → s.k ≤ 257 →
    (∀ i j : Fin 257, i.val < s.k → j.val < s.k → i ≠ j → s.pt[i].x ≠ s.pt[j].x) →
    (∀ i : Fin 257, i.val < s.k → s.pt[i].y.val = polyValue (s.cb.toList.take s.k) s.pt[i].x.val) →
    exec .isolve s = .next { s with cmdcnt := s.cmdcnt + 1 }) ∧
  (∀ (s t : State) (points' : Vector Point 257), s.k ≠ 0 → s.k ≤ 257 → s.n ≠ 0 → s.n ≤ 256 →
    (∀ i : Fin 257, i.val < s.k → s.cb[i].val ≤ 255) → exec .pshare s = .next t →
    (∀ i : Fin 257, i.val < s.k → ∃ j : Fin 256, j.val < s.n ∧
      points'[i].x.val = j.val + 1 ∧ points'[i].y.val = t.ev[j].toNat) →
    (∀ i j : Fin 257, i.val < s.k → j.val < s.k → i ≠ j → points'[i].x ≠ points'[j].x) →
    exec .isolve { t with pt := points' } = .next { t with pt := points', cmdcnt := t.cmdcnt + 1 })

/-! ### The mask stream (44_mask_stream.md) -/

/-- MSEED starts a stream; a seed above 65535 raises OperandRange (R162). With the default generator each byte of
the stream is that of LCG16 (R161). -/
def Obligations.MseedStartsAStream : Prop :=
  (∀ (ra rb : RegIdx) (s : State),
    (s.x[ra].toNat ≤ 65535 → exec (.mseed ra rb) s = .next { s with
      prseed := BitVec.ofNat 16 s.x[ra].toNat, prstate := BitVec.ofNat 16 s.x[ra].toNat
      prrem := s.x[rb], cmdcnt := s.cmdcnt + 1 }) ∧
    (65535 < s.x[ra].toNat → exec (.mseed ra rb) s = .next (raised 13 s.x[ra] (encode (.mseed ra rb)) s))) ∧
  (∀ (s : State) (z : MaskState), s.params.maskGen = .lcg16 →
    (maskStep s z).1.toNat = (25173 * z.toNat + 13849) % 65536 ∧
    (maskStep s z).2.toNat = (25173 * z.toNat + 13849) % 65536 / 256)

/-- MNEXT and MXOR take one byte of the stream, for every mask generator; MXOR checks its operand before the
stream (R163, R164). -/
def Obligations.MaskByteCommandsTakeOneByte : Prop :=
  ∀ (rd ra : RegIdx) (s : State),
    (s.prrem ≠ 0 → exec (.mnext rd) s = .next { s with
      prstate := (maskStep s s.prstate).1, prrem := s.prrem - 1
      x := s.x.set rd (BitVec.ofNat 32 (maskStep s s.prstate).2.toNat), cmdcnt := s.cmdcnt + 1 }) ∧
    (s.prrem = 0 → exec (.mnext rd) s = .next (raised 11 0 (encode (.mnext rd)) s)) ∧
    (s.x[ra].toNat ≤ 255 → s.prrem ≠ 0 → exec (.mxor rd ra) s = .next { s with
      prstate := (maskStep s s.prstate).1, prrem := s.prrem - 1
      x := s.x.set rd (BitVec.ofNat 32 (s.x[ra].toNat ^^^ (maskStep s s.prstate).2.toNat))
      cmdcnt := s.cmdcnt + 1 }) ∧
    (255 < s.x[ra].toNat → exec (.mxor rd ra) s = .next (raised 10 s.x[ra] (encode (.mxor rd ra)) s)) ∧
    (s.x[ra].toNat ≤ 255 → s.prrem = 0 → exec (.mxor rd ra) s = .next (raised 11 0 (encode (.mxor rd ra)) s))

/-- MXORB masks `CB[0..K-1]` with the next `K` bytes of the stream in order, for every mask generator; it raises
before it takes any byte (R165). -/
def Obligations.MxorbMasksTheBlock : Prop :=
  ∀ s : State, s.k ≤ 257 →
    (s.k ≠ 0 → (∀ i : Fin 257, i.val < s.k → s.cb[i].val ≤ 255) → s.k ≤ s.prrem.toNat →
      ∃ cb', exec .mxorb s = .next { s with
          cb := cb', prstate := (fun z => (maskStep s z).1)^[s.k] s.prstate
          prrem := s.prrem - BitVec.ofNat 32 s.k, cmdcnt := s.cmdcnt + 1 } ∧
        ∀ i : Fin 257, cb'[i].val = if i.val < s.k
          then s.cb[i].val ^^^ (maskStep s ((fun z => (maskStep s z).1)^[i.val] s.prstate)).2.toNat
          else s.cb[i].val) ∧
    (s.k = 0 → exec .mxorb s = .next (raised 6 0 (encode .mxorb) s)) ∧
    (∀ i : Fin 257, i.val < s.k → 255 < s.cb[i].val → (∀ j : Fin 257, j < i → s.cb[j].val ≤ 255) →
      exec .mxorb s = .next (raised 10 (BitVec.ofNat 32 i.val) (encode .mxorb) s)) ∧
    (s.k ≠ 0 → (∀ i : Fin 257, i.val < s.k → s.cb[i].val ≤ 255) → s.prrem.toNat < s.k →
      exec .mxorb s = .next (raised 11 s.prrem (encode .mxorb) s))

/-- Masking a block and then unmasking it with the same stretch of the stream gives the block back, for every
mask generator (R164, R165). -/
def Obligations.UnmaskingUndoesMasking : Prop :=
  ∀ s t : State, 1 ≤ s.k → s.k ≤ 257 → (∀ i : Fin 257, i.val < s.k → s.cb[i].val ≤ 255) →
    s.k ≤ s.prrem.toNat → exec .mxorb s = .next t →
    exec .mxorb { t with prstate := s.prstate, prrem := s.prrem } =
      .next { t with cb := s.cb, cmdcnt := t.cmdcnt + 1 }

/-! ### Cover memory and the bit channel (45_bit_channel.md, 20_memory.md) -/

/-- BCOPEN declares the buffer and puts the cursor at the payload offset; it changes no byte (R171). -/
def Obligations.BcopenDeclaresTheBuffer : Prop :=
  ∀ (ra rb : RegIdx) (s : State),
    (s.x[ra].toNat ≤ s.params.coverMemBytes → s.x[rb].toNat ≤ s.x[ra].toNat →
      exec (.bcopen ra rb) s = .next { s with
        buflen := s.x[ra], payoff := s.x[rb], cursor := s.x[rb], cmdcnt := s.cmdcnt + 1 }) ∧
    (s.params.coverMemBytes < s.x[ra].toNat →
      exec (.bcopen ra rb) s = .next (raised 13 s.x[ra] (encode (.bcopen ra rb)) s)) ∧
    (s.x[ra].toNat ≤ s.params.coverMemBytes → s.x[ra].toNat < s.x[rb].toNat →
      exec (.bcopen ra rb) s = .next (raised 13 s.x[rb] (encode (.bcopen ra rb)) s))

/-- CVST1, CVST2 and CVST4 store the low 1, 2 or 4 bytes of the data at the address in `x[ra]`, the lowest byte
first, at any alignment, and no other byte; a range that reaches beyond `BUFLEN` raises AddrRange (R44, R172). -/
def Obligations.StoresWriteLittleEndian : Prop :=
  ∀ (ra rb : RegIdx) (s : State),
    ∀ form ∈ [(1, Instr.cvst1 ra rb), (2, .cvst2 ra rb), (4, .cvst4 ra rb)],
      (s.x[ra].toNat + form.1 ≤ s.buflen.toNat →
        ∃ cv', exec form.2 s = .next { s with cv := cv', cmdcnt := s.cmdcnt + 1 } ∧
          ∀ a, readByte cv' a = if s.x[ra].toNat ≤ a ∧ a < s.x[ra].toNat + form.1
            then BitVec.ofNat 8 (s.x[rb].toNat / 256 ^ (a - s.x[ra].toNat)) else readByte s.cv a) ∧
      (s.buflen.toNat < s.x[ra].toNat + form.1 →
        exec form.2 s = .next (raised 12 s.x[ra] (encode form.2) s))

/-- CVLD1, CVLD2 and CVLD4 load 1, 2 or 4 bytes, the lowest first, zero-extended, at any alignment (R43, R173). -/
def Obligations.LoadsReadLittleEndian : Prop :=
  ∀ (rd ra : RegIdx) (s : State),
    ∀ form ∈ [(1, Instr.cvld1 rd ra), (2, .cvld2 rd ra), (4, .cvld4 rd ra)],
      (s.x[ra].toNat + form.1 ≤ s.buflen.toNat →
        exec form.2 s = .next { s with
          x := s.x.set rd (BitVec.ofNat 32
            (∑ i ∈ Finset.range form.1, (readByte s.cv (s.x[ra].toNat + i)).toNat * 2 ^ (8 * i)))
          cmdcnt := s.cmdcnt + 1 }) ∧
      (s.buflen.toNat < s.x[ra].toNat + form.1 →
        exec form.2 s = .next (raised 12 s.x[ra] (encode form.2) s))

/-- "a store followed by a load of the same bytes returns the stored bytes" (R47), for each width. -/
def Obligations.StoreThenLoadReturnsTheStoredBytes : Prop :=
  ∀ (rd ra rb : RegIdx) (s : State),
    ∀ form ∈ [(1, Instr.cvst1 ra rb, Instr.cvld1 rd ra), (2, .cvst2 ra rb, .cvld2 rd ra),
        (4, .cvst4 ra rb, .cvld4 rd ra)],
      s.x[ra].toNat + form.1 ≤ s.buflen.toNat →
      ∃ cv', exec form.2.1 s = .next { s with cv := cv', cmdcnt := s.cmdcnt + 1 } ∧
        exec form.2.2 { s with cv := cv', cmdcnt := s.cmdcnt + 1 } = .next { s with
          cv := cv', x := s.x.set rd (BitVec.ofNat 32 (s.x[rb].toNat % 2 ^ (8 * form.1)))
          cmdcnt := s.cmdcnt + 2 }

/-- EMBED writes the bits of the value, most significant first, into the least significant bits of eight bytes
from the address in `x[ra]`, and changes no other bit (R174, R176); the value is checked before the offset.
EXTRACT reads such a byte (R175, R177). -/
def Obligations.EmbedWritesAndExtractReadsEightBytes : Prop :=
  ∀ (rd ra rb : RegIdx) (s : State),
    (s.x[rb].toNat ≤ 255 → s.x[ra].toNat + 8 ≤ s.buflen.toNat →
      ∃ cv', exec (.embed ra rb) s = .next { s with cv := cv', cmdcnt := s.cmdcnt + 1 } ∧
        ∀ a, (readByte cv' a).toNat = if s.x[ra].toNat ≤ a ∧ a < s.x[ra].toNat + 8
          then (readByte s.cv a).toNat / 2 * 2 + s.x[rb].toNat / 2 ^ (7 - (a - s.x[ra].toNat)) % 2
          else (readByte s.cv a).toNat) ∧
    (255 < s.x[rb].toNat → exec (.embed ra rb) s = .next (raised 10 s.x[rb] (encode (.embed ra rb)) s)) ∧
    (s.x[rb].toNat ≤ 255 → s.buflen.toNat < s.x[ra].toNat + 8 →
      exec (.embed ra rb) s = .next (raised 5 s.x[ra] (encode (.embed ra rb)) s)) ∧
    (s.x[ra].toNat + 8 ≤ s.buflen.toNat →
      exec (.extract rd ra) s = .next { s with
        x := s.x.set rd (BitVec.ofNat 32
          (∑ i ∈ Finset.range 8, (readByte s.cv (s.x[ra].toNat + i)).toNat % 2 * 2 ^ (7 - i)))
        cmdcnt := s.cmdcnt + 1 }) ∧
    (s.buflen.toNat < s.x[ra].toNat + 8 →
      exec (.extract rd ra) s = .next (raised 12 s.x[ra] (encode (.extract rd ra)) s))

/-- EMBEDC and EXTRACTC act at `CURSOR` as EMBED and EXTRACT do at an offset, and advance it by 8; when they
raise it does not move (R178, R179). -/
def Obligations.CursorFormsAdvanceByEight : Prop :=
  ∀ (rd ra : RegIdx) (s : State),
    (s.x[ra].toNat ≤ 255 → s.cursor.toNat + 8 ≤ s.buflen.toNat →
      ∃ cv', exec (.embedc ra) s = .next { s with cv := cv', cursor := s.cursor + 8, cmdcnt := s.cmdcnt + 1 } ∧
        ∀ a, (readByte cv' a).toNat = if s.cursor.toNat ≤ a ∧ a < s.cursor.toNat + 8
          then (readByte s.cv a).toNat / 2 * 2 + s.x[ra].toNat / 2 ^ (7 - (a - s.cursor.toNat)) % 2
          else (readByte s.cv a).toNat) ∧
    (255 < s.x[ra].toNat → exec (.embedc ra) s = .next (raised 10 s.x[ra] (encode (.embedc ra)) s)) ∧
    (s.x[ra].toNat ≤ 255 → s.buflen.toNat < s.cursor.toNat + 8 →
      exec (.embedc ra) s = .next (raised 5 s.cursor (encode (.embedc ra)) s)) ∧
    (s.cursor.toNat + 8 ≤ s.buflen.toNat →
      exec (.extractc rd) s = .next { s with
        x := s.x.set rd (BitVec.ofNat 32
          (∑ i ∈ Finset.range 8, (readByte s.cv (s.cursor.toNat + i)).toNat % 2 * 2 ^ (7 - i)))
        cursor := s.cursor + 8, cmdcnt := s.cmdcnt + 1 }) ∧
    (s.buflen.toNat < s.cursor.toNat + 8 →
      exec (.extractc rd) s = .next (raised 12 s.cursor (encode (.extractc rd)) s))

/-- The bit-channel round trip (R180): EMBED then EXTRACT at the same offset returns the value, for every value
and every content of the eight bytes, whose other seven bits are unchanged; embedding twice is the same as once,
embedding what is hidden already changes nothing (both of which R180 derives from R174 and R175), and each byte
changes by at most 1. -/
def Obligations.EmbedThenExtractReturnsTheValue : Prop :=
  (∀ (rd ra rb : RegIdx) (s : State), s.x[rb].toNat ≤ 255 → s.x[ra].toNat + 8 ≤ s.buflen.toNat →
    ∃ cv', exec (.embed ra rb) s = .next { s with cv := cv', cmdcnt := s.cmdcnt + 1 } ∧
      (∀ a, readByte cv' a &&& 0xFE = readByte s.cv a &&& 0xFE) ∧
      exec (.extract rd ra) { s with cv := cv', cmdcnt := s.cmdcnt + 1 } = .next { s with
        cv := cv', x := s.x.set rd s.x[rb], cmdcnt := s.cmdcnt + 2 }) ∧
  (∀ (cover : Vector Byte 8) (v : Byte),
    extract8 (embed8 cover v) = v ∧ embed8 (embed8 cover v) v = embed8 cover v ∧ embed8 cover (extract8 cover) = cover ∧
    ∀ i : Fin 8, (embed8 cover v)[i] &&& 0xFE = cover[i] &&& 0xFE ∧
      (embed8 cover v)[i].toNat ≤ cover[i].toNat + 1 ∧ cover[i].toNat ≤ (embed8 cover v)[i].toNat + 1)

/-- From a fresh BCOPEN in READY exactly `CAPACITY` cursor commands complete, EMBEDC of a byte and EXTRACTC in any
mixture and with any registers, the cursor growing by 8 each; the next one, of either kind, raises (R57, R181). -/
def Obligations.CapacityCountsTheCursorCommands : Prop :=
  ∀ (s : State) (commands : List Instr), s.faulted = false → s.cursor = s.payoff →
    s.payoff.toNat ≤ s.buflen.toNat → (∀ i ∈ commands, CursorCommand s i) →
    commands.length ≤ (s.buflen.toNat - s.payoff.toNat) / 8 →
    ∃ t, runWords (commands.map encode) s = .next t ∧ t.faulted = false ∧ t.payoff = s.payoff ∧
      t.buflen = s.buflen ∧ t.cursor.toNat = s.payoff.toNat + 8 * commands.length ∧
      t.cmdcnt = s.cmdcnt + BitVec.ofNat 32 commands.length ∧
      (commands.length = (s.buflen.toNat - s.payoff.toNat) / 8 →
        (∀ rd, exec (.extractc rd) t = .next (raised 12 t.cursor (encode (.extractc rd)) t)) ∧
        (∀ ra, t.x[ra].toNat ≤ 255 → exec (.embedc ra) t = .next (raised 5 t.cursor (encode (.embedc ra)) t)) ∧
        (∀ ra, 255 < t.x[ra].toNat → exec (.embedc ra) t = .next (raised 10 t.x[ra] (encode (.embedc ra)) t)))

/-! ### The polynomial evaluator (46_poly_eval.md) -/

/-- CSET writes one coefficient, 256 included; CGET reads one (R191, R192). EGET reads one evaluation, the
index counting from 1 (R197). -/
def Obligations.BufferEntriesAreWrittenAndRead : Prop :=
  ∀ (rd ra rb : RegIdx) (s : State),
    (s.x[ra].toNat < 257 → s.x[rb].toNat < 257 →
      ∃ cb', exec (.cset ra rb) s = .next { s with cb := cb', cmdcnt := s.cmdcnt + 1 } ∧
        ∀ i : Fin 257, cb'[i] = if i.val = s.x[ra].toNat then feltOf s.x[rb].toNat else s.cb[i]) ∧
    (257 ≤ s.x[ra].toNat → exec (.cset ra rb) s = .next (raised 8 s.x[ra] (encode (.cset ra rb)) s)) ∧
    (s.x[ra].toNat < 257 → 257 ≤ s.x[rb].toNat →
      exec (.cset ra rb) s = .next (raised 2 s.x[rb] (encode (.cset ra rb)) s)) ∧
    (∀ i : Fin 257, i.val = s.x[ra].toNat → exec (.cget rd ra) s = .next { s with
      x := s.x.set rd (BitVec.ofNat 32 s.cb[i].val), cmdcnt := s.cmdcnt + 1 }) ∧
    (257 ≤ s.x[ra].toNat → exec (.cget rd ra) s = .next (raised 8 s.x[ra] (encode (.cget rd ra)) s)) ∧
    (∀ i : Fin 256, s.x[ra].toNat = i.val + 1 → exec (.eget rd ra) s = .next { s with
      x := s.x.set rd (BitVec.ofNat 32 s.ev[i].toNat), cmdcnt := s.cmdcnt + 1 }) ∧
    (s.x[ra].toNat = 0 ∨ 256 < s.x[ra].toNat →
      exec (.eget rd ra) s = .next (raised 8 s.x[ra] (encode (.eget rd ra)) s))

/-- PEVAL writes the value of the polynomial, 256 included, and corrects nothing (R190, R194). -/
def Obligations.PevalEvaluatesThePolynomial : Prop :=
  ∀ (rd ra : RegIdx) (s : State), s.k ≤ 257 →
    (s.k ≠ 0 → s.x[ra].toNat < 257 → exec (.peval rd ra) s = .next { s with
      x := s.x.set rd (BitVec.ofNat 32 (polyValue (s.cb.toList.take s.k) s.x[ra].toNat))
      cmdcnt := s.cmdcnt + 1 }) ∧
    (s.k = 0 → exec (.peval rd ra) s = .next (raised 6 0 (encode (.peval rd ra)) s)) ∧
    (s.k ≠ 0 → 257 ≤ s.x[ra].toNat →
      exec (.peval rd ra) s = .next (raised 2 s.x[ra] (encode (.peval rd ra)) s))

/-- PSHARE follows the overflow-avoidance rule (R196): it decrements the first non-zero coefficient as long as
some evaluation for `x = 1 .. N` is 256 and stops at the first pass in which none is, after at most `255 * K`
decrements; `CB[0..K-1]` hold the corrected coefficients, `EV[1..N]` their evaluations, `CORRCNT` the number of
decrements; `CB[K..256]` and `EV[N+1..256]` are kept. A decrement lowers the first non-zero
coefficient by 1 and no other. -/
def Obligations.PshareAvoidsOverflow : Prop :=
  (∀ (zeros rest : List Felt) (v : Felt), (∀ z ∈ zeros, z = 0) → v ≠ 0 →
    ∃ u : Felt, decrementFirst (zeros ++ v :: rest) = zeros ++ u :: rest ∧ u.val + 1 = v.val) ∧
  (∀ s : State, s.k ≤ 257 → s.n ≤ 256 →
    (s.n ≠ 0 → (∀ i : Fin 257, i.val < s.k → s.cb[i].val ≤ 255) →
      ∃ (passes : Nat) (cb' : Vector Felt 257) (ev' : Vector Byte 256),
        passes ≤ 255 * s.k ∧
        exec .pshare s = .next { s with
          cb := cb', ev := ev', corrcnt := BitVec.ofNat 32 passes, cmdcnt := s.cmdcnt + 1 } ∧
        (∀ p, p < passes → ∃ x, 1 ≤ x ∧ x ≤ s.n ∧
          polyValue (decrementFirst^[p] (s.cb.toList.take s.k)) x = 256) ∧
        cb'.toList.take s.k = decrementFirst^[passes] (s.cb.toList.take s.k) ∧
        (∀ i : Fin 257, s.k ≤ i.val → cb'[i] = s.cb[i]) ∧
        (∀ i : Fin 256, i.val < s.n → ev'[i].toNat = polyValue (cb'.toList.take s.k) (i.val + 1)) ∧
        (∀ i : Fin 256, s.n ≤ i.val → ev'[i] = s.ev[i])) ∧
    (s.n = 0 → exec .pshare s = .next (raised 6 0 (encode .pshare) s)) ∧
    (s.n ≠ 0 → ∀ i : Fin 257, i.val < s.k → 255 < s.cb[i].val → (∀ j : Fin 257, j < i → s.cb[j].val ≤ 255) →
      exec .pshare s = .next (raised 10 (BitVec.ofNat 32 i.val) (encode .pshare) s))
)
end

