-- ==== Sys2Proof/Laws/State.lean ====
section
/-!
SUPPORT. The small lemmas of the named state updates: one per field and update, each true by unfolding.
-/

namespace Sys2Proof.Machine

open Sys2Proof (Word RegIdx BankSel)

/-! ### writeX -/

@[simp] theorem writeX_x (s : State) (i : RegIdx) (v : Word) : (writeX s i v).x = s.x.set i v := rfl
@[simp] theorem writeX_faulted (s : State) (i : RegIdx) (v : Word) : (writeX s i v).faulted = s.faulted := rfl
@[simp] theorem writeX_errcode (s : State) (i : RegIdx) (v : Word) : (writeX s i v).errcode = s.errcode := rfl
@[simp] theorem writeX_errinfo (s : State) (i : RegIdx) (v : Word) : (writeX s i v).errinfo = s.errinfo := rfl
@[simp] theorem writeX_errcmd (s : State) (i : RegIdx) (v : Word) : (writeX s i v).errcmd = s.errcmd := rfl
@[simp] theorem writeX_errseq (s : State) (i : RegIdx) (v : Word) : (writeX s i v).errseq = s.errseq := rfl
@[simp] theorem writeX_cmdcnt (s : State) (i : RegIdx) (v : Word) : (writeX s i v).cmdcnt = s.cmdcnt := rfl
@[simp] theorem writeX_k (s : State) (i : RegIdx) (v : Word) : (writeX s i v).k = s.k := rfl
@[simp] theorem writeX_n (s : State) (i : RegIdx) (v : Word) : (writeX s i v).n = s.n := rfl
@[simp] theorem writeX_corrcnt (s : State) (i : RegIdx) (v : Word) : (writeX s i v).corrcnt = s.corrcnt := rfl
@[simp] theorem writeX_ma (s : State) (i : RegIdx) (v : Word) : (writeX s i v).ma = s.ma := rfl
@[simp] theorem writeX_mb (s : State) (i : RegIdx) (v : Word) : (writeX s i v).mb = s.mb := rfl
@[simp] theorem writeX_cb (s : State) (i : RegIdx) (v : Word) : (writeX s i v).cb = s.cb := rfl
@[simp] theorem writeX_ev (s : State) (i : RegIdx) (v : Word) : (writeX s i v).ev = s.ev := rfl
@[simp] theorem writeX_pt (s : State) (i : RegIdx) (v : Word) : (writeX s i v).pt = s.pt := rfl
@[simp] theorem writeX_prseed (s : State) (i : RegIdx) (v : Word) : (writeX s i v).prseed = s.prseed := rfl
@[simp] theorem writeX_prstate (s : State) (i : RegIdx) (v : Word) : (writeX s i v).prstate = s.prstate := rfl
@[simp] theorem writeX_prrem (s : State) (i : RegIdx) (v : Word) : (writeX s i v).prrem = s.prrem := rfl
@[simp] theorem writeX_buflen (s : State) (i : RegIdx) (v : Word) : (writeX s i v).buflen = s.buflen := rfl
@[simp] theorem writeX_payoff (s : State) (i : RegIdx) (v : Word) : (writeX s i v).payoff = s.payoff := rfl
@[simp] theorem writeX_cursor (s : State) (i : RegIdx) (v : Word) : (writeX s i v).cursor = s.cursor := rfl
@[simp] theorem writeX_cv (s : State) (i : RegIdx) (v : Word) : (writeX s i v).cv = s.cv := rfl
@[simp] theorem writeX_resp (s : State) (i : RegIdx) (v : Word) : (writeX s i v).resp = s.resp := rfl
@[simp] theorem writeX_input (s : State) (i : RegIdx) (v : Word) : (writeX s i v).input = s.input := rfl
@[simp] theorem writeX_params (s : State) (i : RegIdx) (v : Word) : (writeX s i v).params = s.params := rfl

/-! ### countCommand -/

@[simp] theorem countCommand_x (s : State) : (countCommand s).x = s.x := rfl
@[simp] theorem countCommand_faulted (s : State) : (countCommand s).faulted = s.faulted := rfl
@[simp] theorem countCommand_errcode (s : State) : (countCommand s).errcode = s.errcode := rfl
@[simp] theorem countCommand_errinfo (s : State) : (countCommand s).errinfo = s.errinfo := rfl
@[simp] theorem countCommand_errcmd (s : State) : (countCommand s).errcmd = s.errcmd := rfl
@[simp] theorem countCommand_errseq (s : State) : (countCommand s).errseq = s.errseq := rfl
@[simp] theorem countCommand_cmdcnt (s : State) : (countCommand s).cmdcnt = s.cmdcnt + 1 := rfl
@[simp] theorem countCommand_k (s : State) : (countCommand s).k = s.k := rfl
@[simp] theorem countCommand_n (s : State) : (countCommand s).n = s.n := rfl
@[simp] theorem countCommand_corrcnt (s : State) : (countCommand s).corrcnt = s.corrcnt := rfl
@[simp] theorem countCommand_ma (s : State) : (countCommand s).ma = s.ma := rfl
@[simp] theorem countCommand_mb (s : State) : (countCommand s).mb = s.mb := rfl
@[simp] theorem countCommand_cb (s : State) : (countCommand s).cb = s.cb := rfl
@[simp] theorem countCommand_ev (s : State) : (countCommand s).ev = s.ev := rfl
@[simp] theorem countCommand_pt (s : State) : (countCommand s).pt = s.pt := rfl
@[simp] theorem countCommand_prseed (s : State) : (countCommand s).prseed = s.prseed := rfl
@[simp] theorem countCommand_prstate (s : State) : (countCommand s).prstate = s.prstate := rfl
@[simp] theorem countCommand_prrem (s : State) : (countCommand s).prrem = s.prrem := rfl
@[simp] theorem countCommand_buflen (s : State) : (countCommand s).buflen = s.buflen := rfl
@[simp] theorem countCommand_payoff (s : State) : (countCommand s).payoff = s.payoff := rfl
@[simp] theorem countCommand_cursor (s : State) : (countCommand s).cursor = s.cursor := rfl
@[simp] theorem countCommand_cv (s : State) : (countCommand s).cv = s.cv := rfl
@[simp] theorem countCommand_resp (s : State) : (countCommand s).resp = s.resp := rfl
@[simp] theorem countCommand_input (s : State) : (countCommand s).input = s.input := rfl
@[simp] theorem countCommand_params (s : State) : (countCommand s).params = s.params := rfl

/-! ### errorEntry -/

@[simp] theorem errorEntry_x (e : Raise) (w : Word) (s : State) : (errorEntry e w s).x = s.x := rfl
@[simp] theorem errorEntry_faulted (e : Raise) (w : Word) (s : State) : (errorEntry e w s).faulted = true := rfl
@[simp] theorem errorEntry_errcode (e : Raise) (w : Word) (s : State) : (errorEntry e w s).errcode = e.kind.code := rfl
@[simp] theorem errorEntry_errinfo (e : Raise) (w : Word) (s : State) : (errorEntry e w s).errinfo = e.info := rfl
@[simp] theorem errorEntry_errcmd (e : Raise) (w : Word) (s : State) : (errorEntry e w s).errcmd = w := rfl
@[simp] theorem errorEntry_errseq (e : Raise) (w : Word) (s : State) : (errorEntry e w s).errseq = s.cmdcnt := rfl
@[simp] theorem errorEntry_cmdcnt (e : Raise) (w : Word) (s : State) : (errorEntry e w s).cmdcnt = s.cmdcnt := rfl
@[simp] theorem errorEntry_k (e : Raise) (w : Word) (s : State) : (errorEntry e w s).k = s.k := rfl
@[simp] theorem errorEntry_n (e : Raise) (w : Word) (s : State) : (errorEntry e w s).n = s.n := rfl
@[simp] theorem errorEntry_corrcnt (e : Raise) (w : Word) (s : State) : (errorEntry e w s).corrcnt = s.corrcnt := rfl
@[simp] theorem errorEntry_ma (e : Raise) (w : Word) (s : State) : (errorEntry e w s).ma = s.ma := rfl
@[simp] theorem errorEntry_mb (e : Raise) (w : Word) (s : State) : (errorEntry e w s).mb = s.mb := rfl
@[simp] theorem errorEntry_cb (e : Raise) (w : Word) (s : State) : (errorEntry e w s).cb = s.cb := rfl
@[simp] theorem errorEntry_ev (e : Raise) (w : Word) (s : State) : (errorEntry e w s).ev = s.ev := rfl
@[simp] theorem errorEntry_pt (e : Raise) (w : Word) (s : State) : (errorEntry e w s).pt = s.pt := rfl
@[simp] theorem errorEntry_prseed (e : Raise) (w : Word) (s : State) : (errorEntry e w s).prseed = s.prseed := rfl
@[simp] theorem errorEntry_prstate (e : Raise) (w : Word) (s : State) : (errorEntry e w s).prstate = s.prstate := rfl
@[simp] theorem errorEntry_prrem (e : Raise) (w : Word) (s : State) : (errorEntry e w s).prrem = s.prrem := rfl
@[simp] theorem errorEntry_buflen (e : Raise) (w : Word) (s : State) : (errorEntry e w s).buflen = s.buflen := rfl
@[simp] theorem errorEntry_payoff (e : Raise) (w : Word) (s : State) : (errorEntry e w s).payoff = s.payoff := rfl
@[simp] theorem errorEntry_cursor (e : Raise) (w : Word) (s : State) : (errorEntry e w s).cursor = s.cursor := rfl
@[simp] theorem errorEntry_cv (e : Raise) (w : Word) (s : State) : (errorEntry e w s).cv = s.cv := rfl
@[simp] theorem errorEntry_resp (e : Raise) (w : Word) (s : State) : (errorEntry e w s).resp = s.resp := rfl
@[simp] theorem errorEntry_input (e : Raise) (w : Word) (s : State) : (errorEntry e w s).input = s.input := rfl
@[simp] theorem errorEntry_params (e : Raise) (w : Word) (s : State) : (errorEntry e w s).params = s.params := rfl

/-! ### clearError -/

@[simp] theorem clearError_x (s : State) : (clearError s).x = s.x := rfl
@[simp] theorem clearError_faulted (s : State) : (clearError s).faulted = false := rfl
@[simp] theorem clearError_errcode (s : State) : (clearError s).errcode = 0 := rfl
@[simp] theorem clearError_errinfo (s : State) : (clearError s).errinfo = 0 := rfl
@[simp] theorem clearError_errcmd (s : State) : (clearError s).errcmd = 0 := rfl
@[simp] theorem clearError_errseq (s : State) : (clearError s).errseq = 0 := rfl
@[simp] theorem clearError_cmdcnt (s : State) : (clearError s).cmdcnt = s.cmdcnt := rfl
@[simp] theorem clearError_k (s : State) : (clearError s).k = s.k := rfl
@[simp] theorem clearError_n (s : State) : (clearError s).n = s.n := rfl
@[simp] theorem clearError_corrcnt (s : State) : (clearError s).corrcnt = s.corrcnt := rfl
@[simp] theorem clearError_ma (s : State) : (clearError s).ma = s.ma := rfl
@[simp] theorem clearError_mb (s : State) : (clearError s).mb = s.mb := rfl
@[simp] theorem clearError_cb (s : State) : (clearError s).cb = s.cb := rfl
@[simp] theorem clearError_ev (s : State) : (clearError s).ev = s.ev := rfl
@[simp] theorem clearError_pt (s : State) : (clearError s).pt = s.pt := rfl
@[simp] theorem clearError_prseed (s : State) : (clearError s).prseed = s.prseed := rfl
@[simp] theorem clearError_prstate (s : State) : (clearError s).prstate = s.prstate := rfl
@[simp] theorem clearError_prrem (s : State) : (clearError s).prrem = s.prrem := rfl
@[simp] theorem clearError_buflen (s : State) : (clearError s).buflen = s.buflen := rfl
@[simp] theorem clearError_payoff (s : State) : (clearError s).payoff = s.payoff := rfl
@[simp] theorem clearError_cursor (s : State) : (clearError s).cursor = s.cursor := rfl
@[simp] theorem clearError_cv (s : State) : (clearError s).cv = s.cv := rfl
@[simp] theorem clearError_resp (s : State) : (clearError s).resp = s.resp := rfl
@[simp] theorem clearError_input (s : State) : (clearError s).input = s.input := rfl
@[simp] theorem clearError_params (s : State) : (clearError s).params = s.params := rfl

/-! ### softReset -/

@[simp] theorem softReset_x (s : State) : (softReset s).x = Vector.replicate 16 0 := rfl
@[simp] theorem softReset_faulted (s : State) : (softReset s).faulted = false := rfl
@[simp] theorem softReset_errcode (s : State) : (softReset s).errcode = 0 := rfl
@[simp] theorem softReset_errinfo (s : State) : (softReset s).errinfo = 0 := rfl
@[simp] theorem softReset_errcmd (s : State) : (softReset s).errcmd = 0 := rfl
@[simp] theorem softReset_errseq (s : State) : (softReset s).errseq = 0 := rfl
@[simp] theorem softReset_cmdcnt (s : State) : (softReset s).cmdcnt = 0 := rfl
@[simp] theorem softReset_k (s : State) : (softReset s).k = 0 := rfl
@[simp] theorem softReset_n (s : State) : (softReset s).n = 0 := rfl
@[simp] theorem softReset_corrcnt (s : State) : (softReset s).corrcnt = 0 := rfl
@[simp] theorem softReset_ma (s : State) : (softReset s).ma = Bank.unconstructed := rfl
@[simp] theorem softReset_mb (s : State) : (softReset s).mb = Bank.unconstructed := rfl
@[simp] theorem softReset_cb (s : State) : (softReset s).cb = Vector.replicate Config.bufSize 0 := rfl
@[simp] theorem softReset_ev (s : State) : (softReset s).ev = Vector.replicate Config.evSize 0 := rfl
@[simp] theorem softReset_pt (s : State) : (softReset s).pt = Vector.replicate Config.bufSize ⟨0, 0⟩ := rfl
@[simp] theorem softReset_prseed (s : State) : (softReset s).prseed = 0 := rfl
@[simp] theorem softReset_prstate (s : State) : (softReset s).prstate = 0 := rfl
@[simp] theorem softReset_prrem (s : State) : (softReset s).prrem = 0 := rfl
@[simp] theorem softReset_buflen (s : State) : (softReset s).buflen = 0 := rfl
@[simp] theorem softReset_payoff (s : State) : (softReset s).payoff = 0 := rfl
@[simp] theorem softReset_cursor (s : State) : (softReset s).cursor = 0 := rfl
@[simp] theorem softReset_cv (s : State) : (softReset s).cv = s.cv := rfl
@[simp] theorem softReset_resp (s : State) : (softReset s).resp = s.resp := rfl
@[simp] theorem softReset_input (s : State) : (softReset s).input = s.input := rfl
@[simp] theorem softReset_params (s : State) : (softReset s).params = s.params := rfl

/-! ### setBank -/

@[simp] theorem setBank_x (s : State) (b : BankSel) (m : Bank) : (setBank s b m).x = s.x := by cases b <;> rfl
@[simp] theorem setBank_faulted (s : State) (b : BankSel) (m : Bank) : (setBank s b m).faulted = s.faulted := by cases b <;> rfl
@[simp] theorem setBank_errcode (s : State) (b : BankSel) (m : Bank) : (setBank s b m).errcode = s.errcode := by cases b <;> rfl
@[simp] theorem setBank_errinfo (s : State) (b : BankSel) (m : Bank) : (setBank s b m).errinfo = s.errinfo := by cases b <;> rfl
@[simp] theorem setBank_errcmd (s : State) (b : BankSel) (m : Bank) : (setBank s b m).errcmd = s.errcmd := by cases b <;> rfl
@[simp] theorem setBank_errseq (s : State) (b : BankSel) (m : Bank) : (setBank s b m).errseq = s.errseq := by cases b <;> rfl
@[simp] theorem setBank_cmdcnt (s : State) (b : BankSel) (m : Bank) : (setBank s b m).cmdcnt = s.cmdcnt := by cases b <;> rfl
@[simp] theorem setBank_k (s : State) (b : BankSel) (m : Bank) : (setBank s b m).k = s.k := by cases b <;> rfl
@[simp] theorem setBank_n (s : State) (b : BankSel) (m : Bank) : (setBank s b m).n = s.n := by cases b <;> rfl
@[simp] theorem setBank_corrcnt (s : State) (b : BankSel) (m : Bank) : (setBank s b m).corrcnt = s.corrcnt := by cases b <;> rfl
@[simp] theorem setBank_cb (s : State) (b : BankSel) (m : Bank) : (setBank s b m).cb = s.cb := by cases b <;> rfl
@[simp] theorem setBank_ev (s : State) (b : BankSel) (m : Bank) : (setBank s b m).ev = s.ev := by cases b <;> rfl
@[simp] theorem setBank_pt (s : State) (b : BankSel) (m : Bank) : (setBank s b m).pt = s.pt := by cases b <;> rfl
@[simp] theorem setBank_prseed (s : State) (b : BankSel) (m : Bank) : (setBank s b m).prseed = s.prseed := by cases b <;> rfl
@[simp] theorem setBank_prstate (s : State) (b : BankSel) (m : Bank) : (setBank s b m).prstate = s.prstate := by cases b <;> rfl
@[simp] theorem setBank_prrem (s : State) (b : BankSel) (m : Bank) : (setBank s b m).prrem = s.prrem := by cases b <;> rfl
@[simp] theorem setBank_buflen (s : State) (b : BankSel) (m : Bank) : (setBank s b m).buflen = s.buflen := by cases b <;> rfl
@[simp] theorem setBank_payoff (s : State) (b : BankSel) (m : Bank) : (setBank s b m).payoff = s.payoff := by cases b <;> rfl
@[simp] theorem setBank_cursor (s : State) (b : BankSel) (m : Bank) : (setBank s b m).cursor = s.cursor := by cases b <;> rfl
@[simp] theorem setBank_cv (s : State) (b : BankSel) (m : Bank) : (setBank s b m).cv = s.cv := by cases b <;> rfl
@[simp] theorem setBank_resp (s : State) (b : BankSel) (m : Bank) : (setBank s b m).resp = s.resp := by cases b <;> rfl
@[simp] theorem setBank_input (s : State) (b : BankSel) (m : Bank) : (setBank s b m).input = s.input := by cases b <;> rfl
@[simp] theorem setBank_params (s : State) (b : BankSel) (m : Bank) : (setBank s b m).params = s.params := by cases b <;> rfl
@[simp] theorem setBank_A_ma (s : State) (m : Bank) : (setBank s .A m).ma = m := rfl
@[simp] theorem setBank_A_mb (s : State) (m : Bank) : (setBank s .A m).mb = s.mb := rfl
@[simp] theorem setBank_B_ma (s : State) (m : Bank) : (setBank s .B m).ma = s.ma := rfl
@[simp] theorem setBank_B_mb (s : State) (m : Bank) : (setBank s .B m).mb = m := rfl

/-- The bank just set is the one read back (R16). -/
@[simp] theorem bankOf_setBank (s : State) (b : BankSel) (m : Bank) : bankOf (setBank s b m) b = m := by
  cases b <;> rfl

/-- Setting a bank leaves the other as it was (R121, R127). -/
@[simp] theorem bankOf_other_setBank (s : State) (b : BankSel) (m : Bank) :
    bankOf (setBank s b m) (otherBank b) = bankOf s (otherBank b) := by
  cases b <;> rfl

/-! ### withFetchWord -/

@[simp] theorem withFetchWord_x (s : State) (nbits w : Nat) : (s.withFetchWord nbits w).x = s.x := rfl
@[simp] theorem withFetchWord_faulted (s : State) (nbits w : Nat) : (s.withFetchWord nbits w).faulted = s.faulted := rfl
@[simp] theorem withFetchWord_errcode (s : State) (nbits w : Nat) : (s.withFetchWord nbits w).errcode = s.errcode := rfl
@[simp] theorem withFetchWord_errinfo (s : State) (nbits w : Nat) : (s.withFetchWord nbits w).errinfo = s.errinfo := rfl
@[simp] theorem withFetchWord_errcmd (s : State) (nbits w : Nat) : (s.withFetchWord nbits w).errcmd = s.errcmd := rfl
@[simp] theorem withFetchWord_errseq (s : State) (nbits w : Nat) : (s.withFetchWord nbits w).errseq = s.errseq := rfl
@[simp] theorem withFetchWord_cmdcnt (s : State) (nbits w : Nat) : (s.withFetchWord nbits w).cmdcnt = s.cmdcnt := rfl
@[simp] theorem withFetchWord_k (s : State) (nbits w : Nat) : (s.withFetchWord nbits w).k = s.k := rfl
@[simp] theorem withFetchWord_n (s : State) (nbits w : Nat) : (s.withFetchWord nbits w).n = s.n := rfl
@[simp] theorem withFetchWord_corrcnt (s : State) (nbits w : Nat) : (s.withFetchWord nbits w).corrcnt = s.corrcnt := rfl
@[simp] theorem withFetchWord_ma (s : State) (nbits w : Nat) : (s.withFetchWord nbits w).ma = s.ma := rfl
@[simp] theorem withFetchWord_mb (s : State) (nbits w : Nat) : (s.withFetchWord nbits w).mb = s.mb := rfl
@[simp] theorem withFetchWord_cb (s : State) (nbits w : Nat) : (s.withFetchWord nbits w).cb = s.cb := rfl
@[simp] theorem withFetchWord_ev (s : State) (nbits w : Nat) : (s.withFetchWord nbits w).ev = s.ev := rfl
@[simp] theorem withFetchWord_pt (s : State) (nbits w : Nat) : (s.withFetchWord nbits w).pt = s.pt := rfl
@[simp] theorem withFetchWord_prseed (s : State) (nbits w : Nat) : (s.withFetchWord nbits w).prseed = s.prseed := rfl
@[simp] theorem withFetchWord_prstate (s : State) (nbits w : Nat) : (s.withFetchWord nbits w).prstate = s.prstate := rfl
@[simp] theorem withFetchWord_prrem (s : State) (nbits w : Nat) : (s.withFetchWord nbits w).prrem = s.prrem := rfl
@[simp] theorem withFetchWord_buflen (s : State) (nbits w : Nat) : (s.withFetchWord nbits w).buflen = s.buflen := rfl
@[simp] theorem withFetchWord_payoff (s : State) (nbits w : Nat) : (s.withFetchWord nbits w).payoff = s.payoff := rfl
@[simp] theorem withFetchWord_cursor (s : State) (nbits w : Nat) : (s.withFetchWord nbits w).cursor = s.cursor := rfl
@[simp] theorem withFetchWord_cv (s : State) (nbits w : Nat) : (s.withFetchWord nbits w).cv = s.cv := rfl
@[simp] theorem withFetchWord_resp (s : State) (nbits w : Nat) : (s.withFetchWord nbits w).resp = s.resp := rfl
@[simp] theorem withFetchWord_input (s : State) (nbits w : Nat) :
    (s.withFetchWord nbits w).input = .command (BitVec.ofNat 32 (w % 2 ^ nbits)) :: s.input := rfl
@[simp] theorem withFetchWord_params (s : State) (nbits w : Nat) : (s.withFetchWord nbits w).params = s.params := rfl

end Sys2Proof.Machine
end

