-- ==== Sys2Proof/Laws/Memory.lean ====
section
/-!
SUPPORT. Cover memory: reading after writing, the canonical form, and what a store of several bytes does.
-/

namespace Sys2Proof.Machine

open Sys2Proof (Word Byte)

/-- Reading the byte just written. -/
@[simp] theorem find_write_same (m : Memory) (addr : Nat) (v : Byte) :
    Memory.find (Memory.write m addr v) addr = some v := by
  induction m with
  | nil => simp [Memory.write, Memory.find]
  | cons cell rest ih =>
    obtain ⟨a, b⟩ := cell
    simp only [Memory.write]
    split_ifs with h1 h2
    · simp [Memory.find]
    · simp [Memory.find]
    · simp [Memory.find, ih, Ne.symm h2]

/-- A write leaves every other address alone. -/
theorem find_write_other (m : Memory) {addr a' : Nat} (v : Byte) (h : a' ≠ addr) :
    Memory.find (Memory.write m addr v) a' = Memory.find m a' := by
  induction m with
  | nil => simp [Memory.write, Memory.find, Ne.symm h]
  | cons cell rest ih =>
    obtain ⟨a, b⟩ := cell
    simp only [Memory.write]
    split_ifs with h1 h2
    · simp [Memory.find, Ne.symm h]
    · subst h2
      simp [Memory.find, Ne.symm h]
    · simp [Memory.find, ih]

/-- `readByte` after a write, in one line. -/
theorem readByte_write (m : Memory) (addr a' : Nat) (v : Byte) :
    readByte (Memory.write m addr v) a' = if a' = addr then v else readByte m a' := by
  by_cases h : a' = addr
  · simp [readByte, h]
  · simp [readByte, h, find_write_other m v h]

/-- The head of a memory after a write is the lower of the old head and the address written. -/
theorem write_head_gt {m : Memory} {addr a : Nat} {v : Byte} (ha : a < addr)
    (hm : ∀ c ∈ m, a < c.1) : ∀ c ∈ Memory.write m addr v, a < c.1 := by
  induction m with
  | nil => simpa [Memory.write] using ha
  | cons cell rest ih =>
    obtain ⟨a0, b0⟩ := cell
    simp only [Memory.write]
    intro c hc
    have hrest : ∀ c ∈ rest, a < c.1 := fun c hc => hm c (List.mem_cons_of_mem _ hc)
    split_ifs at hc with h1 h2
    · rcases List.mem_cons.1 hc with rfl | hc
      · exact ha
      · exact hm c hc
    · rcases List.mem_cons.1 hc with rfl | hc
      · exact ha
      · exact hrest c hc
    · rcases List.mem_cons.1 hc with rfl | hc
      · exact hm _ (List.mem_cons_self ..)
      · exact ih hrest c hc

/-- The canonical form, said of the head and the tail. -/
theorem wf_cons {cell : Host.Cell} {rest : Memory} :
    Memory.wf (cell :: rest) = true ↔ (∀ c ∈ rest, cell.1 < c.1) ∧ Memory.wf rest = true := by
  induction rest generalizing cell with
  | nil => simp [Memory.wf]
  | cons b rest ih =>
    simp only [Memory.wf, Bool.and_eq_true, decide_eq_true_eq]
    constructor
    · rintro ⟨h1, h2⟩
      refine ⟨fun c hc => ?_, h2⟩
      rcases List.mem_cons.1 hc with rfl | hc
      · exact h1
      · exact lt_trans h1 ((ih.1 h2).1 c hc)
    · rintro ⟨h1, h2⟩
      exact ⟨h1 b (List.mem_cons_self ..), h2⟩

/-- A write keeps the canonical form. -/
theorem write_wf {m : Memory} (h : Memory.wf m = true) (addr : Nat) (v : Byte) :
    Memory.wf (Memory.write m addr v) = true := by
  induction m with
  | nil => simp [Memory.write, Memory.wf]
  | cons cell rest ih =>
    obtain ⟨a, b⟩ := cell
    obtain ⟨hhead, hrest⟩ := wf_cons.1 h
    simp only [Memory.write]
    split_ifs with h1 h2
    · refine wf_cons.2 ⟨fun c hc => ?_, h⟩
      rcases List.mem_cons.1 hc with rfl | hc
      · exact h1
      · exact lt_trans h1 (hhead c hc)
    · subst h2
      exact wf_cons.2 ⟨hhead, hrest⟩
    · refine wf_cons.2 ⟨write_head_gt (by omega) hhead, ih hrest⟩

/-- A store of several bytes keeps the canonical form. -/
theorem writeBytes_wf {m : Memory} (h : Memory.wf m = true) (addr : Nat) (bytes : List Byte) :
    Memory.wf (writeBytes m addr bytes) = true := by
  induction bytes generalizing m addr with
  | nil => exact h
  | cons b rest ih => exact ih (write_wf h addr b) (addr + 1)

/-- A little-endian store keeps the canonical form. -/
theorem memWrite_wf {m : Memory} (h : Memory.wf m = true) (addr n v : Nat) :
    Memory.wf (memWrite m addr n v) = true :=
  writeBytes_wf h addr (leBytes n v)

/-- The addresses listed after a write are those listed before and the one written. -/
theorem mem_write {m : Memory} {addr : Nat} {v : Byte} {c : Host.Cell} (h : c ∈ Memory.write m addr v) :
    c = (addr, v) ∨ c ∈ m := by
  induction m with
  | nil => simpa [Memory.write] using h
  | cons cell rest ih =>
    obtain ⟨a, b⟩ := cell
    simp only [Memory.write] at h
    split_ifs at h with h1 h2
    · simpa using h
    · rcases List.mem_cons.1 h with h | h
      · exact .inl h
      · exact .inr (List.mem_cons_of_mem _ h)
    · rcases List.mem_cons.1 h with h | h
      · exact .inr (h ▸ List.mem_cons_self ..)
      · exact (ih h).imp id (List.mem_cons_of_mem _)

/-- Every address listed after a store of several bytes was listed before or is one of those stored to. -/
theorem mem_writeBytes {m : Memory} {addr : Nat} {bytes : List Byte} {c : Host.Cell}
    (h : c ∈ writeBytes m addr bytes) :
    c ∈ m ∨ (addr ≤ c.1 ∧ c.1 < addr + bytes.length) := by
  induction bytes generalizing m addr with
  | nil => exact .inl h
  | cons b rest ih =>
    simp only [List.length_cons]
    rcases ih h with h | h
    · rcases mem_write h with rfl | h
      · right; simp
      · exact .inl h
    · right; omega

/-- What a store of several bytes does to each byte of cover memory: byte `i` stored is read at `addr + i`,
and every other address reads as before (R44). -/
theorem readByte_writeBytes (m : Memory) (addr : Nat) (bytes : List Byte) (a : Nat) :
    readByte (writeBytes m addr bytes) a =
      if h : addr ≤ a ∧ a - addr < bytes.length then bytes[a - addr]'h.2 else readByte m a := by
  induction bytes generalizing m addr with
  | nil => simp [writeBytes]
  | cons b rest ih =>
    simp only [writeBytes, ih, readByte_write, List.length_cons]
    by_cases h1 : a = addr
    · subst h1; simp
    · by_cases h2 : addr + 1 ≤ a ∧ a - (addr + 1) < rest.length
      · have h3 : addr ≤ a ∧ a - addr < rest.length + 1 := by omega
        have h4 : a - addr = (a - (addr + 1)) + 1 := by omega
        simp only [h2, h3, and_self, dite_true]
        simp only [h4, List.getElem_cons_succ]
      · have h3 : ¬(addr ≤ a ∧ a - addr < rest.length + 1) := by omega
        rw [dif_neg h2, dif_neg h3, if_neg h1]

@[simp] theorem leBytes_length (n v : Nat) : (leBytes n v).length = n := by
  induction n generalizing v with
  | zero => rfl
  | succ n ih => simp [leBytes, ih]

/-- A little-endian store leaves every byte outside the `n` stored alone (R44). -/
theorem readByte_memWrite_other (m : Memory) {addr n v a : Nat} (h : a < addr ∨ addr + n ≤ a) :
    readByte (memWrite m addr n v) a = readByte m a := by
  rw [memWrite, readByte_writeBytes, dif_neg]
  simp only [leBytes_length]
  omega

/-- A byte of a listed address lower than every address is not found. -/
theorem find_none_of_lt {m : Memory} {a : Nat} (h : ∀ c ∈ m, a < c.1) : Memory.find m a = none := by
  induction m with
  | nil => rfl
  | cons cell rest ih =>
    have h1 := h cell (List.mem_cons_self ..)
    simp [Memory.find, Nat.ne_of_gt h1, ih fun c hc => h c (List.mem_cons_of_mem _ hc)]

/-- Memories in canonical form in which the same bytes have been written with the same values are equal
data. -/
theorem memory_ext {m m' : Memory} (h : Memory.wf m = true) (h' : Memory.wf m' = true)
    (hf : ∀ a, Memory.find m a = Memory.find m' a) : m = m' := by
  induction m generalizing m' with
  | nil =>
    cases m' with
    | nil => rfl
    | cons c' rest' => simpa [Memory.find] using hf c'.1
  | cons c rest ih =>
    cases m' with
    | nil => simpa [Memory.find] using hf c.1
    | cons c' rest' =>
      obtain ⟨hc, hrest⟩ := wf_cons.1 h
      obtain ⟨hc', hrest'⟩ := wf_cons.1 h'
      have below : ∀ {d : Host.Cell} {r r' : Memory} {d' : Host.Cell},
          (∀ e ∈ r', d'.1 < e.1) → d.1 < d'.1 →
            Memory.find (d :: r) d.1 ≠ Memory.find (d' :: r') d.1 := by
        intro d r r' d' hr hlt
        rw [find_none_of_lt (m := d' :: r')]
        · simp [Memory.find]
        · intro e he
          rcases List.mem_cons.1 he with rfl | he
          · exact hlt
          · exact lt_trans hlt (hr e he)
      have haddr : c.1 = c'.1 := by
        rcases Nat.lt_trichotomy c.1 c'.1 with hlt | heq | hgt
        · exact absurd (hf c.1) (below hc' hlt)
        · exact heq
        · exact absurd (hf c'.1).symm (below hc hgt)
      have hval : c.2 = c'.2 := by simpa [Memory.find, haddr] using hf c.1
      rw [Prod.ext haddr hval, ih hrest hrest' fun a => ?_]
      by_cases ha : a = c.1
      · rw [find_none_of_lt fun e he => ha ▸ hc e he,
          find_none_of_lt fun e he => ha ▸ haddr ▸ hc' e he]
      · have hc'a : c'.1 ≠ a := haddr ▸ Ne.symm ha
        simpa [Memory.find, Ne.symm ha, hc'a] using hf a

/-- A read depends only on the `n` bytes from its address. -/
theorem memRead_congr {m m' : Memory} {addr n : Nat}
    (h : ∀ a, addr ≤ a → a < addr + n → readByte m a = readByte m' a) :
    memRead m addr n = memRead m' addr n := by
  induction n generalizing addr with
  | zero => rfl
  | succ n ih =>
    simp only [memRead]
    rw [h addr le_rfl (by omega), ih fun a h1 h2 => h a (by omega) (by omega)]

/-- A read of `n` bytes is in `[0, 2^(8n))` (R43). -/
theorem memRead_lt (m : Memory) (addr n : Nat) : memRead m addr n < 256 ^ n := by
  induction n generalizing addr with
  | zero => simp [memRead]
  | succ n ih =>
    have h1 := (readByte m addr).isLt
    have h2 := ih (addr + 1)
    rw [pow_succ]
    simp only [memRead]
    omega

end Sys2Proof.Machine
end

