-- ==== Sys2Proof/Laws/Ops.lean ====
section
/-!
SUPPORT. The shared operations: for each, once, everything it can answer.
-/

namespace Sys2Proof.Machine

open Sys2Proof (Word Byte RegIdx Felt BankSel)

/-! ### Completing and raising -/

/-- A command that ends without raising is counted (R13, R90). -/
@[simp] theorem finish_ok (w : Word) (s t : State) : finish w s (.ok t) = .next (countCommand t) := rfl

/-- A command that raises leaves the error entry on the state it began in (R240). -/
@[simp] theorem finish_error (w : Word) (s : State) (e : Raise) :
    finish w s (.error e) = .next (errorEntry e w s) := rfl

/-- A command whose rule answers `t` ends in `t`, counted (R13, R90). -/
theorem finish_of_ok {w : Word} {s t : State} {r : Except Raise State} (h : r = .ok t) :
    finish w s r = .next (countCommand t) := by
  subst h; rfl

/-- A command whose rule raises ends in the error entry (R240). -/
theorem finish_of_error {w : Word} {s : State} {e : Raise} {r : Except Raise State} (h : r = .error e) :
    finish w s r = .next (errorEntry e w s) := by
  subst h; rfl

/-- Every way a command can end: it completes and is counted, or it raises; there is no third (R90). -/
theorem finish_cases {w : Word} {s t : State} {r : Except Raise State} (h : finish w s r = .next t) :
    (∃ u, r = .ok u ∧ t = countCommand u) ∨ (∃ e, r = .error e ∧ t = errorEntry e w s) := by
  cases r with
  | ok u => exact .inl ⟨u, rfl, (Host.Outcome.next.inj h).symm⟩
  | error e => exact .inr ⟨e, rfl, (Host.Outcome.next.inj h).symm⟩

/-- The end of a command is a next state. -/
theorem finish_next (w : Word) (s : State) (r : Except Raise State) : ∃ t, finish w s r = .next t := by
  cases r <;> exact ⟨_, rfl⟩

/-- What a chain of checks answers: the first part raised, or it gave a value and the rest went on. -/
theorem bind_ok {α β : Type} {r : Except Raise α} {f : α → Except Raise β} {b : β} :
    (r >>= f) = .ok b ↔ ∃ a, r = .ok a ∧ f a = .ok b := by
  cases r with
  | ok a =>
    constructor
    · exact fun h => ⟨a, rfl, h⟩
    · rintro ⟨_, h, h'⟩
      cases h
      exact h'
  | error e =>
    constructor
    · intro h
      cases h
    · rintro ⟨_, h, _⟩
      cases h

/-- The first failing check is the one reported (R238). -/
theorem bind_error {α β : Type} {r : Except Raise α} {f : α → Except Raise β} {e : Raise} :
    (r >>= f) = .error e ↔ r = .error e ∨ ∃ a, r = .ok a ∧ f a = .error e := by
  cases r with
  | ok a =>
    constructor
    · exact fun h => .inr ⟨a, rfl, h⟩
    · rintro (h | ⟨_, h, h'⟩)
      · cases h
      · cases h; exact h'
  | error e' =>
    constructor
    · intro h; cases h; exact .inl rfl
    · rintro (h | ⟨_, h, _⟩)
      · cases h; rfl
      · cases h

@[simp] theorem raiseIf_ok {p : Prop} [Decidable p] {kind : ErrKind} {info : Word} {u : Unit} :
    raiseIf p kind info = .ok u ↔ ¬p := by
  unfold raiseIf; split <;> simp_all

@[simp] theorem raiseIf_error {p : Prop} [Decidable p] {kind : ErrKind} {info : Word} {e : Raise} :
    raiseIf p kind info = .error e ↔ p ∧ e = ⟨kind, info⟩ := by
  unfold raiseIf; split <;> simp_all [eq_comm]

/-- The code of an error is one of 1 to 14 (R231). -/
theorem code_range (k : ErrKind) : 1 ≤ k.code.toNat ∧ k.code.toNat ≤ 14 := by
  cases k <;> decide

/-! ### Scalar registers -/

/-- A statement's `s.x[i]` is the operation every meaning reads a register with. -/
theorem getElem_x (s : State) (i : RegIdx) : s.x[i] = readX s i := rfl

/-- Reading a register after writing one (R10). -/
theorem readX_writeX (s : State) (i j : RegIdx) (v : Word) :
    readX (writeX s i v) j = if i = j then v else readX s j := by
  simp only [readX, writeX, Fin.getElem_fin, Vector.getElem_set, Fin.ext_iff]

/-! ### Values on their way into a register -/

@[simp] theorem feltOf_val (v : Nat) : (feltOf v).val = v % 257 := rfl

@[simp] theorem feltOf_felt (a : Felt) : feltOf a.val = a := by
  ext; exact Nat.mod_eq_of_lt a.isLt

@[simp] theorem feltWord_toNat (a : Felt) : (feltWord a).toNat = a.val := by
  simp only [feltWord, BitVec.toNat_ofNat]
  exact Nat.mod_eq_of_lt (by have := a.isLt; omega)

@[simp] theorem byteWord_toNat (b : Byte) : (byteWord b).toNat = b.toNat := by
  simp only [byteWord, BitVec.toNat_setWidth]
  exact Nat.mod_eq_of_lt (by have := b.isLt; omega)

/-- The field operations on values (R100). -/
theorem fadd_val (a b : Felt) : (fadd a b).val = (a.val + b.val) % 257 := rfl

theorem fmul_val (a b : Felt) : (fmul a b).val = (a.val * b.val) % 257 := rfl

theorem fneg_val (a : Felt) : (fneg a).val = (257 - a.val) % 257 := rfl

theorem finv_val (a : Felt) : (finv a).val = a.val ^ 255 % 257 := rfl

/-- The model's field operations are those Lean gives `Fin 257`. -/
theorem fadd_eq (a b : Felt) : fadd a b = a + b := by
  ext; simp [fadd_val, Fin.val_add]

theorem fmul_eq (a b : Felt) : fmul a b = a * b := by
  ext; simp [fmul_val, Fin.val_mul]

theorem fneg_eq (a : Felt) : fneg a = -a := by
  ext; simp [fneg_val, Fin.val_neg']

/-! ### Buffers -/

/-- Replacing the first entries of a buffer: entry `i` is the new one if the list has it, the old one if
not (R19, R20). -/
theorem overlay_getElem {α : Type} (vs olds : List α) (i : Nat) (h : i < (overlay vs olds).length) :
    (overlay vs olds)[i] =
      if h' : i < vs.length then vs[i] else olds[i]'(by rwa [overlay_length] at h) := by
  induction vs, olds using overlay.induct generalizing i with
  | case1 v vs old olds ih =>
    cases i with
    | zero => simp [overlay]
    | succ i =>
      simp only [overlay, List.getElem_cons_succ, List.length_cons, Nat.add_lt_add_iff_right]
      exact ih i (by simpa [overlay] using h)
  | case2 olds => simp [overlay]
  | case3 v vs => simp [overlay] at h

theorem overwriteFirst_getElem {α : Type} {n : Nat} (vs : List α) (buf : Vector α n) (i : Nat) (h : i < n) :
    (overwriteFirst vs buf)[i] = if h' : i < vs.length then vs[i] else buf[i] := by
  simp [overwriteFirst, overlay_getElem]

/-- `CB[0..K-1]` has `K` entries while `K` is at most 257 (R19, R22). -/
theorem coefficients_length {s : State} (h : s.k ≤ 257) : (coefficients s).length = s.k := by
  simp [coefficients, h]

theorem points_length {s : State} (h : s.k ≤ 257) : (points s).length = s.k := by
  simp [points, h]

/-! ### Matrix banks -/

/-- A row of initialised elements reads as its values. -/
theorem rowValues_map_some (i : Nat) (vs : List Felt) : rowValues i (vs.map some) = .ok vs := by
  induction vs generalizing i with
  | nil => rfl
  | cons v vs ih => simp [rowValues, ih]

/-- Reading a row gives its values exactly when every element is initialised. -/
theorem rowValues_ok {i : Nat} {row : List (Option Felt)} {vs : List Felt} :
    rowValues i row = .ok vs ↔ row = vs.map some := by
  constructor
  · induction row generalizing i vs with
    | nil =>
      intro h
      cases h
      rfl
    | cons c rest ih =>
      cases c with
      | none => simp [rowValues]
      | some v =>
        cases h : rowValues (i + 1) rest with
        | error j => simp [rowValues, h]
        | ok us =>
          simp only [rowValues, h, Except.ok.injEq]
          rintro rfl
          rw [ih h, List.map_cons]
  · rintro rfl
    exact rowValues_map_some i vs

/-- Otherwise it gives the linear index of the first `none` (R18, R120). -/
theorem rowValues_error {i j : Nat} {row : List (Option Felt)} :
    rowValues i row = .error j ↔
      ∃ c, j = i + c ∧ row[c]? = some none ∧ ∀ d < c, ∃ v, row[d]? = some (some v) := by
  induction row generalizing i j with
  | nil => simp [rowValues]
  | cons e rest ih =>
    cases e with
    | none =>
      simp only [rowValues, Except.error.injEq]
      constructor
      · rintro rfl; exact ⟨0, by simp⟩
      · rintro ⟨c, rfl, h0, hlt⟩
        cases c with
        | zero => rfl
        | succ c => simpa using hlt 0 (Nat.succ_pos c)
    | some v =>
      have hstep : rowValues i (some v :: rest) = .error j ↔ rowValues (i + 1) rest = .error j := by
        cases h : rowValues (i + 1) rest <;> simp [rowValues, h]
      rw [hstep, ih]
      constructor
      · rintro ⟨c, rfl, h0, hlt⟩
        refine ⟨c + 1, by omega, by simpa using h0, fun d hd => ?_⟩
        cases d with
        | zero => exact ⟨v, rfl⟩
        | succ d => simpa using hlt d (by omega)
      · rintro ⟨c, rfl, h0, hlt⟩
        cases c with
        | zero => simp at h0
        | succ c => exact ⟨c, by omega, by simpa using h0, fun d hd => by simpa using hlt (d + 1) (by omega)⟩

/-- A grid of initialised elements reads as its values. -/
theorem gridValues_map_some (cols r : Nat) (g : List (List Felt)) :
    gridValues cols r (g.map fun row => row.map some) = .ok g := by
  induction g generalizing r with
  | nil => rfl
  | cons row rest ih => simp [gridValues, rowValues_map_some, ih]

/-- Reading a grid gives its values exactly when every element is initialised. -/
theorem gridValues_ok {cols r : Nat} {cells : List (List (Option Felt))} {g : List (List Felt)} :
    gridValues cols r cells = .ok g ↔ cells = g.map fun row => row.map some := by
  constructor
  · induction cells generalizing r g with
    | nil =>
      intro h
      cases h
      rfl
    | cons row rest ih =>
      cases hrow : rowValues (r * cols) row with
      | error j => simp [gridValues, hrow]
      | ok vs =>
        cases hrest : gridValues cols (r + 1) rest with
        | error j => simp [gridValues, hrow, hrest]
        | ok g' =>
          simp only [gridValues, hrow, hrest, Except.ok.injEq]
          rintro rfl
          rw [ih hrest, rowValues_ok.1 hrow, List.map_cons]
  · rintro rfl
    exact gridValues_map_some cols r g

end Sys2Proof.Machine
end

