-- ==== Sys2Proof/Laws/Operands.lean ====
section
/-!
SUPPORT. The operand forms: when each gives a value, and what each raises.
-/

namespace Sys2Proof.Machine

open Sys2Proof (Word Byte RegIdx Felt BankSel)

theorem fieldOperand_ok {s : State} {r : RegIdx} {a : Felt} :
    fieldOperand s r = .ok a ↔ (readX s r).toNat = a.val := by
  unfold fieldOperand
  split
  · simp [Fin.ext_iff]
  · rename_i h
    simp only [reduceCtorEq, false_iff]
    have := a.isLt
    omega

theorem fieldOperand_error {s : State} {r : RegIdx} {e : Raise} :
    fieldOperand s r = .error e ↔ 257 ≤ (readX s r).toNat ∧ e = ⟨.domainError, readX s r⟩ := by
  unfold fieldOperand
  split <;> simp_all [eq_comm]

theorem byteOperand_ok {s : State} {r : RegIdx} {v : Byte} :
    byteOperand s r = .ok v ↔ (readX s r).toNat = v.toNat := by
  unfold byteOperand
  split
  · rename_i h
    rw [Except.ok.injEq, ← BitVec.toNat_inj, BitVec.toNat_setWidth, Nat.mod_eq_of_lt (by omega)]
  · rename_i h
    simp only [reduceCtorEq, false_iff]
    have := v.isLt
    omega

theorem byteOperand_error {s : State} {r : RegIdx} {e : Raise} :
    byteOperand s r = .error e ↔ 256 ≤ (readX s r).toNat ∧ e = ⟨.byteRange, readX s r⟩ := by
  unfold byteOperand
  split
  · simp only [reduceCtorEq, false_iff]
    omega
  · simp only [Except.error.injEq, eq_comm (a := e)]
    constructor
    · exact fun h => ⟨by omega, h⟩
    · exact fun h => h.2

theorem indexOperand_ok {s : State} {r : RegIdx} {bound i : Nat} :
    indexOperand s r bound = .ok i ↔ i < bound ∧ (readX s r).toNat = i := by
  unfold indexOperand
  split
  · simp only [Except.ok.injEq]
    constructor
    · rintro rfl
      exact ⟨by assumption, rfl⟩
    · exact fun h => h.2
  · simp only [reduceCtorEq, false_iff]
    omega

theorem indexOperand_error {s : State} {r : RegIdx} {bound : Nat} {e : Raise} :
    indexOperand s r bound = .error e ↔ bound ≤ (readX s r).toNat ∧ e = ⟨.indexRange, readX s r⟩ := by
  unfold indexOperand
  split
  · simp only [reduceCtorEq, false_iff]
    omega
  · simp only [Except.error.injEq, eq_comm (a := e)]
    constructor
    · exact fun h => ⟨by omega, h⟩
    · exact fun h => h.2

theorem bufferIndex_ok {s : State} {r : RegIdx} {i : Fin Config.bufSize} :
    bufferIndex s r = .ok i ↔ (readX s r).toNat = i.val := by
  unfold bufferIndex
  split
  · simp [Fin.ext_iff]
  · simp only [reduceCtorEq, false_iff]
    have := i.isLt
    omega

theorem bufferIndex_error {s : State} {r : RegIdx} {e : Raise} :
    bufferIndex s r = .error e ↔ 257 ≤ (readX s r).toNat ∧ e = ⟨.indexRange, readX s r⟩ := by
  unfold bufferIndex
  split <;> simp_all [Config.bufSize, eq_comm]

theorem evalIndex_ok {s : State} {r : RegIdx} {i : Fin Config.evSize} :
    evalIndex s r = .ok i ↔ (readX s r).toNat = i.val + 1 := by
  unfold evalIndex
  have := i.isLt
  split
  · rename_i h
    simp only [Except.ok.injEq, Fin.ext_iff]
    omega
  · rename_i h
    simp only [reduceCtorEq, false_iff]
    omega

theorem evalIndex_error {s : State} {r : RegIdx} {e : Raise} :
    evalIndex s r = .error e ↔
      ((readX s r).toNat = 0 ∨ 257 ≤ (readX s r).toNat) ∧ e = ⟨.indexRange, readX s r⟩ := by
  unfold evalIndex
  split
  · rename_i h
    simp only [reduceCtorEq, false_iff]
    have := h.2
    simp only [Config.evSize] at this
    omega
  · rename_i h
    simp only [Config.evSize] at h
    simp only [Except.error.injEq, eq_comm (a := e)]
    constructor
    · exact fun h' => ⟨by omega, h'⟩
    · exact fun h' => h'.2

theorem dimOperand_ok {s : State} {r : RegIdx} {max v : Nat} :
    dimOperand s r max = .ok v ↔ (1 ≤ v ∧ v ≤ max) ∧ (readX s r).toNat = v := by
  unfold dimOperand
  split
  · simp only [Except.ok.injEq]
    constructor
    · rintro rfl
      exact ⟨by assumption, rfl⟩
    · exact fun h => h.2
  · simp only [reduceCtorEq, false_iff]
    omega

theorem dimOperand_error {s : State} {r : RegIdx} {max : Nat} {e : Raise} :
    dimOperand s r max = .error e ↔
      ¬(1 ≤ (readX s r).toNat ∧ (readX s r).toNat ≤ max) ∧ e = ⟨.operandRange, readX s r⟩ := by
  unfold dimOperand
  split <;> simp_all [eq_comm]

theorem constructed_ok {s : State} {b : BankSel} {m : Bank} :
    constructed s b = .ok m ↔ m = bankOf s b ∧ m.rows ≠ 0 := by
  unfold constructed
  by_cases h : (bankOf s b).rows = 0
  · simp only [h, if_true, reduceCtorEq, false_iff]
    rintro ⟨rfl, h'⟩
    exact h' h
  · simp only [h, if_false, Except.ok.injEq]
    constructor
    · rintro rfl
      exact ⟨rfl, h⟩
    · exact fun h' => h'.1.symm

theorem constructed_error {s : State} {b : BankSel} {e : Raise} :
    constructed s b = .error e ↔ (bankOf s b).rows = 0 ∧ e = ⟨.noMatrix, bankNumber b⟩ := by
  unfold constructed
  by_cases h : (bankOf s b).rows = 0 <;> simp [h, eq_comm]

/-- A row gives its values exactly when every element of it is initialised (R17). -/
theorem rowOf_ok {m : Bank} {r : Nat} {vs : List Felt} :
    rowOf m r = .ok vs ↔ m.row r = vs.map some := by
  unfold rowOf
  split
  · rename_i us h
    rw [Except.ok.injEq, ← rowValues_ok, h, Except.ok.injEq]
  · rename_i j h
    simp only [reduceCtorEq, ← rowValues_ok (i := r * m.cols), h]

theorem rowOf_error {m : Bank} {r : Nat} {e : Raise} :
    rowOf m r = .error e ↔
      ∃ j, rowValues (r * m.cols) (m.row r) = .error j ∧ e = ⟨.uninitElement, BitVec.ofNat 32 j⟩ := by
  unfold rowOf
  cases rowValues (r * m.cols) (m.row r) <;> simp [eq_comm]

/-- A bank gives its grid exactly when every element of it is initialised (R17). -/
theorem gridOf_ok {m : Bank} {g : List (List Felt)} :
    gridOf m = .ok g ↔ m.cells = g.map fun row => row.map some := by
  unfold gridOf
  split
  · rename_i us h
    rw [Except.ok.injEq, ← gridValues_ok, h, Except.ok.injEq]
  · rename_i j h
    simp only [reduceCtorEq, ← gridValues_ok (cols := m.cols) (r := 0), h]

theorem gridOf_error {m : Bank} {e : Raise} :
    gridOf m = .error e ↔
      ∃ j, gridValues m.cols 0 m.cells = .error j ∧ e = ⟨.uninitElement, BitVec.ofNat 32 j⟩ := by
  unfold gridOf
  cases gridValues m.cols 0 m.cells <;> simp [eq_comm]

@[simp] theorem needK_ok {s : State} {u : Unit} : needK s = .ok u ↔ s.k ≠ 0 := by
  simp [needK]

@[simp] theorem needK_error {s : State} {e : Raise} :
    needK s = .error e ↔ s.k = 0 ∧ e = ⟨.invalidParameters, 0⟩ := by
  simp [needK]

@[simp] theorem coverRange_ok {s : State} {addr : Word} {n : Nat} {kind : ErrKind} {u : Unit} :
    coverRange s addr n kind = .ok u ↔ addr.toNat + n ≤ s.buflen.toNat := by
  simp [coverRange]

@[simp] theorem coverRange_error {s : State} {addr : Word} {n : Nat} {kind : ErrKind} {e : Raise} :
    coverRange s addr n kind = .error e ↔ s.buflen.toNat < addr.toNat + n ∧ e = ⟨kind, addr⟩ := by
  simp [coverRange]

/-- The coefficients are given when all are bytes. -/
theorem byteCoefficients_ok {s : State} {c : List Felt} :
    byteCoefficients s = .ok c ↔ c = coefficients s ∧ ∀ v ∈ c, v.val ≤ 255 := by
  unfold byteCoefficients
  split
  · rename_i i h
    simp only [reduceCtorEq, false_iff]
    rintro ⟨rfl, hall⟩
    obtain ⟨v, hv, hbig⟩ := List.findIdx?_isSome.symm.trans (by rw [h]; rfl) |> List.any_eq_true.1
    have := hall v hv
    simp at hbig
    omega
  · rename_i h
    rw [List.findIdx?_eq_none_iff] at h
    simp only [Except.ok.injEq]
    constructor
    · rintro rfl
      exact ⟨rfl, fun v hv => by simpa using h v hv⟩
    · exact fun h' => h'.1.symm

theorem byteCoefficients_error {s : State} {e : Raise} :
    byteCoefficients s = .error e ↔
      ∃ i, (coefficients s).findIdx? (fun v => 255 < v.val) = some i ∧
        e = ⟨.byteRange, BitVec.ofNat 32 i⟩ := by
  unfold byteCoefficients
  cases (coefficients s).findIdx? (fun v => 255 < v.val) <;> simp [eq_comm]

end Sys2Proof.Machine
end

