-- ==== Sys2Proof/Laws/Sequencer.lean ====
section
/-!
SUPPORT. What a command word and a step can do, said once.
-/

namespace Sys2Proof.Machine

open Sys2Proof (Word)

/-- Everything a command word can do (R90, R242): it is dropped, it is executed, or it is illegal in READY. -/
theorem executeWord_cases {w : Word} {s : State} {r : StepResult} (h : executeWord w s = r) :
    (s.faulted = true ∧ r = .next s) ∨
    (∃ i, decode w = .ok i ∧ (s.faulted = true → passesFilter i = true) ∧ r = exec i s) ∨
    ((∃ e, decode w = .error e) ∧ s.faulted = false ∧
      r = .next (errorEntry ⟨.illegalCommand, 0⟩ w s)) := by
  subst h
  unfold executeWord
  cases hd : decode w with
  | ok i =>
    cases hf : s.faulted <;> cases hp : passesFilter i <;> simp [hp]
  | error e =>
    cases hf : s.faulted <;> simp [finish]

/-- Everything a step can do: wait, execute the next command word, or reset (R5, R255, R262). -/
theorem step_cases {s : State} {r : StepResult} (h : step s = r) :
    (s.input = [] ∧ r = .next s) ∨
    (∃ w rest, s.input = .command w :: rest ∧ r = executeWord w { s with input := rest }) ∨
    (∃ rest, s.input = .pinReset :: rest ∧ r = .next (softReset { s with input := rest })) := by
  subst h
  unfold step
  match hi : s.input with
  | [] => exact .inl ⟨rfl, rfl⟩
  | .command w :: rest => exact .inr (.inl ⟨w, rest, rfl, rfl⟩)
  | .pinReset :: rest => exact .inr (.inr ⟨rest, rfl, rfl⟩)

/-- The word `withFetchWord` hands over is the one the next step takes. -/
theorem step_withFetchWord (s : State) (nbits w : Nat) :
    step (s.withFetchWord nbits w) = executeWord (BitVec.ofNat 32 (w % 2 ^ nbits)) s := rfl

end Sys2Proof.Machine
end

