-- ==== Sys2Proof/Laws/PerInstr.lean ====
section
/-!
SUPPORT. Lemmas made per command, one for each constructor of `Instr`.
-/

namespace Sys2Proof.Laws

open Sys2Proof

/-- The row of the opcode table a command belongs to, as `mask` and `match` of R66. -/
def maskAndMatch : Instr → Word × Word
  | .nop => (0xFFFFFFFF#32, 0x00000000#32)
  | .li _ _ => (0xFF0F0000#32, 0x01000000#32)
  | .lih _ _ => (0xFF0F0000#32, 0x02000000#32)
  | .mov _ _ => (0xFF00FFFF#32, 0x03000000#32)
  | .csrr _ _ => (0xFF0FFF00#32, 0x04000000#32)
  | .out _ => (0xFFF0FFFF#32, 0x05000000#32)
  | .errack => (0xFFFFFFFF#32, 0x06000000#32)
  | .srst => (0xFFFFFFFF#32, 0x07000000#32)
  | .kset _ => (0xFFF0FFFF#32, 0x08000000#32)
  | .nset _ => (0xFFF0FFFF#32, 0x09000000#32)
  | .fzero _ => (0xFF0FFFFF#32, 0x10000000#32)
  | .fone _ => (0xFF0FFFFF#32, 0x11000000#32)
  | .fadd _ _ _ => (0xFF000FFF#32, 0x12000000#32)
  | .fmul _ _ _ => (0xFF000FFF#32, 0x13000000#32)
  | .fneg _ _ => (0xFF00FFFF#32, 0x14000000#32)
  | .finv _ _ => (0xFF00FFFF#32, 0x15000000#32)
  | .feq _ _ _ => (0xFF000FFF#32, 0x16000000#32)
  | .mnew _ _ _ => (0xFFF00FFE#32, 0x20000000#32)
  | .mset _ _ _ _ => (0xFFF000FE#32, 0x21000000#32)
  | .mget _ _ _ _ => (0xFF000FFE#32, 0x22000000#32)
  | .mswap _ _ _ => (0xFFF00FFE#32, 0x23000000#32)
  | .mscale _ _ _ => (0xFFF00FFE#32, 0x24000000#32)
  | .maddsr _ _ _ _ => (0xFFF000FE#32, 0x25000000#32)
  | .mappc _ => (0xFFFFFFFE#32, 0x26000000#32)
  | .mappr _ => (0xFFFFFFFE#32, 0x27000000#32)
  | .mrref _ => (0xFFFFFFFE#32, 0x28000000#32)
  | .minv _ => (0xFFFFFFFE#32, 0x29000000#32)
  | .mdet _ _ => (0xFF0FFFFE#32, 0x2A000000#32)
  | .ptset _ _ _ => (0xFFF000FF#32, 0x30000000#32)
  | .mvand _ => (0xFFFFFFFE#32, 0x31000000#32)
  | .isolve => (0xFFFFFFFF#32, 0x32000000#32)
  | .mseed _ _ => (0xFFF00FFF#32, 0x40000000#32)
  | .mnext _ => (0xFF0FFFFF#32, 0x41000000#32)
  | .mxor _ _ => (0xFF00FFFF#32, 0x42000000#32)
  | .mxorb => (0xFFFFFFFF#32, 0x43000000#32)
  | .bcopen _ _ => (0xFFF00FFF#32, 0x50000000#32)
  | .cvst1 _ _ => (0xFFF00FFF#32, 0x51000000#32)
  | .cvst2 _ _ => (0xFFF00FFF#32, 0x52000000#32)
  | .cvst4 _ _ => (0xFFF00FFF#32, 0x53000000#32)
  | .cvld1 _ _ => (0xFF00FFFF#32, 0x54000000#32)
  | .cvld2 _ _ => (0xFF00FFFF#32, 0x55000000#32)
  | .cvld4 _ _ => (0xFF00FFFF#32, 0x56000000#32)
  | .embed _ _ => (0xFFF00FFF#32, 0x57000000#32)
  | .extract _ _ => (0xFF00FFFF#32, 0x58000000#32)
  | .embedc _ => (0xFFF0FFFF#32, 0x59000000#32)
  | .extractc _ => (0xFF0FFFFF#32, 0x5A000000#32)
  | .cset _ _ => (0xFFF00FFF#32, 0x60000000#32)
  | .cget _ _ => (0xFF00FFFF#32, 0x61000000#32)
  | .peval _ _ => (0xFF00FFFF#32, 0x62000000#32)
  | .pshare => (0xFFFFFFFF#32, 0x63000000#32)
  | .eget _ _ => (0xFF00FFFF#32, 0x64000000#32)

/-- Masking a word assembled from its fields masks each field (R61). -/
theorem formatR_and (op op' fn fn' : BitVec 8) (rd rd' ra ra' rb rb' rc rc' : BitVec 4) :
    formatR op rd ra rb rc fn &&& formatR op' rd' ra' rb' rc' fn' =
      formatR (op &&& op') (rd &&& rd') (ra &&& ra') (rb &&& rb') (rc &&& rc') (fn &&& fn') := by
  change (op ++ rd ++ ra ++ rb ++ rc ++ fn : BitVec (8 + 4 + 4 + 4 + 4 + 8)) &&&
    (op' ++ rd' ++ ra' ++ rb' ++ rc' ++ fn' : BitVec (8 + 4 + 4 + 4 + 4 + 8)) = _
  simp only [BitVec.and_append]
  rfl

theorem formatI_and (op op' : BitVec 8) (rd rd' : BitVec 4) (imm imm' : BitVec 16) :
    formatI op rd imm &&& (op' ++ rd' ++ 0xF#4 ++ imm' : Word) =
      formatI (op &&& op') (rd &&& rd') (imm &&& imm') := by
  change (op ++ rd ++ 0#4 ++ imm : BitVec (8 + 4 + 4 + 16)) &&&
    (op' ++ rd' ++ 0xF#4 ++ imm' : BitVec (8 + 4 + 4 + 16)) = _
  simp only [BitVec.and_append, BitVec.zero_and]
  rfl

/-- The bits of a command word that its row fixes have the values its row gives them (R66). -/
def FixedBits.Statement (i : Instr) : Prop :=
  encode i &&& (maskAndMatch i).1 = (maskAndMatch i).2

namespace FixedBits

theorem nop : Statement (.nop) := rfl

theorem li (rd : RegIdx) (imm16 : BitVec 16) : Statement (.li rd imm16) := by
  refine (formatI_and _ 0xFF#8 _ 0x0#4 _ 0x0#16).trans ?_
  simp only [BitVec.and_zero]
  rfl

theorem lih (rd : RegIdx) (imm16 : BitVec 16) : Statement (.lih rd imm16) := by
  refine (formatI_and _ 0xFF#8 _ 0x0#4 _ 0x0#16).trans ?_
  simp only [BitVec.and_zero]
  rfl

theorem mov (rd : RegIdx) (ra : RegIdx) : Statement (.mov rd ra) :=
  (formatR_and _ 0xff#8 _ 0xff#8 _ 0x0#4 _ 0x0#4 _ 0xf#4 _ 0xf#4).trans
    (by simp only [BitVec.and_zero]; rfl)

theorem csrr (rd : RegIdx) (csr : BitVec 8) : Statement (.csrr rd csr) :=
  (formatR_and _ 0xff#8 _ 0x00#8 _ 0x0#4 _ 0xf#4 _ 0xf#4 _ 0xf#4).trans
    (by simp only [BitVec.and_zero]; rfl)

theorem out (ra : RegIdx) : Statement (.out ra) :=
  (formatR_and _ 0xff#8 _ 0xff#8 _ 0xf#4 _ 0x0#4 _ 0xf#4 _ 0xf#4).trans
    (by simp only [BitVec.and_zero]; rfl)

theorem errack : Statement (.errack) := rfl

theorem srst : Statement (.srst) := rfl

theorem kset (ra : RegIdx) : Statement (.kset ra) :=
  (formatR_and _ 0xff#8 _ 0xff#8 _ 0xf#4 _ 0x0#4 _ 0xf#4 _ 0xf#4).trans
    (by simp only [BitVec.and_zero]; rfl)

theorem nset (ra : RegIdx) : Statement (.nset ra) :=
  (formatR_and _ 0xff#8 _ 0xff#8 _ 0xf#4 _ 0x0#4 _ 0xf#4 _ 0xf#4).trans
    (by simp only [BitVec.and_zero]; rfl)

theorem fzero (rd : RegIdx) : Statement (.fzero rd) :=
  (formatR_and _ 0xff#8 _ 0xff#8 _ 0x0#4 _ 0xf#4 _ 0xf#4 _ 0xf#4).trans
    (by simp only [BitVec.and_zero]; rfl)

theorem fone (rd : RegIdx) : Statement (.fone rd) :=
  (formatR_and _ 0xff#8 _ 0xff#8 _ 0x0#4 _ 0xf#4 _ 0xf#4 _ 0xf#4).trans
    (by simp only [BitVec.and_zero]; rfl)

theorem fadd (rd : RegIdx) (ra : RegIdx) (rb : RegIdx) : Statement (.fadd rd ra rb) :=
  (formatR_and _ 0xff#8 _ 0xff#8 _ 0x0#4 _ 0x0#4 _ 0x0#4 _ 0xf#4).trans
    (by simp only [BitVec.and_zero]; rfl)

theorem fmul (rd : RegIdx) (ra : RegIdx) (rb : RegIdx) : Statement (.fmul rd ra rb) :=
  (formatR_and _ 0xff#8 _ 0xff#8 _ 0x0#4 _ 0x0#4 _ 0x0#4 _ 0xf#4).trans
    (by simp only [BitVec.and_zero]; rfl)

theorem fneg (rd : RegIdx) (ra : RegIdx) : Statement (.fneg rd ra) :=
  (formatR_and _ 0xff#8 _ 0xff#8 _ 0x0#4 _ 0x0#4 _ 0xf#4 _ 0xf#4).trans
    (by simp only [BitVec.and_zero]; rfl)

theorem finv (rd : RegIdx) (ra : RegIdx) : Statement (.finv rd ra) :=
  (formatR_and _ 0xff#8 _ 0xff#8 _ 0x0#4 _ 0x0#4 _ 0xf#4 _ 0xf#4).trans
    (by simp only [BitVec.and_zero]; rfl)

theorem feq (rd : RegIdx) (ra : RegIdx) (rb : RegIdx) : Statement (.feq rd ra rb) :=
  (formatR_and _ 0xff#8 _ 0xff#8 _ 0x0#4 _ 0x0#4 _ 0x0#4 _ 0xf#4).trans
    (by simp only [BitVec.and_zero]; rfl)

theorem mnew (b : BankSel) (ra : RegIdx) (rb : RegIdx) : Statement (.mnew b ra rb) := by
  cases b
  all_goals
    exact (formatR_and _ 0xff#8 _ 0xfe#8 _ 0xf#4 _ 0x0#4 _ 0x0#4 _ 0xf#4).trans (by simp only [BitVec.and_zero]; rfl)

theorem mset (b : BankSel) (ra : RegIdx) (rb : RegIdx) (rc : RegIdx) : Statement (.mset b ra rb rc) := by
  cases b
  all_goals
    exact (formatR_and _ 0xff#8 _ 0xfe#8 _ 0xf#4 _ 0x0#4 _ 0x0#4 _ 0x0#4).trans (by simp only [BitVec.and_zero]; rfl)

theorem mget (b : BankSel) (rd : RegIdx) (ra : RegIdx) (rb : RegIdx) : Statement (.mget b rd ra rb) := by
  cases b
  all_goals
    exact (formatR_and _ 0xff#8 _ 0xfe#8 _ 0x0#4 _ 0x0#4 _ 0x0#4 _ 0xf#4).trans (by simp only [BitVec.and_zero]; rfl)

theorem mswap (b : BankSel) (ra : RegIdx) (rb : RegIdx) : Statement (.mswap b ra rb) := by
  cases b
  all_goals
    exact (formatR_and _ 0xff#8 _ 0xfe#8 _ 0xf#4 _ 0x0#4 _ 0x0#4 _ 0xf#4).trans (by simp only [BitVec.and_zero]; rfl)

theorem mscale (b : BankSel) (ra : RegIdx) (rb : RegIdx) : Statement (.mscale b ra rb) := by
  cases b
  all_goals
    exact (formatR_and _ 0xff#8 _ 0xfe#8 _ 0xf#4 _ 0x0#4 _ 0x0#4 _ 0xf#4).trans (by simp only [BitVec.and_zero]; rfl)

theorem maddsr (b : BankSel) (ra : RegIdx) (rb : RegIdx) (rc : RegIdx) : Statement (.maddsr b ra rb rc) := by
  cases b
  all_goals
    exact (formatR_and _ 0xff#8 _ 0xfe#8 _ 0xf#4 _ 0x0#4 _ 0x0#4 _ 0x0#4).trans (by simp only [BitVec.and_zero]; rfl)

theorem mappc (b : BankSel) : Statement (.mappc b) := by cases b <;> rfl

theorem mappr (b : BankSel) : Statement (.mappr b) := by cases b <;> rfl

theorem mrref (b : BankSel) : Statement (.mrref b) := by cases b <;> rfl

theorem minv (b : BankSel) : Statement (.minv b) := by cases b <;> rfl

theorem mdet (b : BankSel) (rd : RegIdx) : Statement (.mdet b rd) := by
  cases b
  all_goals
    exact (formatR_and _ 0xff#8 _ 0xfe#8 _ 0x0#4 _ 0xf#4 _ 0xf#4 _ 0xf#4).trans (by simp only [BitVec.and_zero]; rfl)

theorem ptset (ra : RegIdx) (rb : RegIdx) (rc : RegIdx) : Statement (.ptset ra rb rc) :=
  (formatR_and _ 0xff#8 _ 0xff#8 _ 0xf#4 _ 0x0#4 _ 0x0#4 _ 0x0#4).trans
    (by simp only [BitVec.and_zero]; rfl)

theorem mvand (b : BankSel) : Statement (.mvand b) := by cases b <;> rfl

theorem isolve : Statement (.isolve) := rfl

theorem mseed (ra : RegIdx) (rb : RegIdx) : Statement (.mseed ra rb) :=
  (formatR_and _ 0xff#8 _ 0xff#8 _ 0xf#4 _ 0x0#4 _ 0x0#4 _ 0xf#4).trans
    (by simp only [BitVec.and_zero]; rfl)

theorem mnext (rd : RegIdx) : Statement (.mnext rd) :=
  (formatR_and _ 0xff#8 _ 0xff#8 _ 0x0#4 _ 0xf#4 _ 0xf#4 _ 0xf#4).trans
    (by simp only [BitVec.and_zero]; rfl)

theorem mxor (rd : RegIdx) (ra : RegIdx) : Statement (.mxor rd ra) :=
  (formatR_and _ 0xff#8 _ 0xff#8 _ 0x0#4 _ 0x0#4 _ 0xf#4 _ 0xf#4).trans
    (by simp only [BitVec.and_zero]; rfl)

theorem mxorb : Statement (.mxorb) := rfl

theorem bcopen (ra : RegIdx) (rb : RegIdx) : Statement (.bcopen ra rb) :=
  (formatR_and _ 0xff#8 _ 0xff#8 _ 0xf#4 _ 0x0#4 _ 0x0#4 _ 0xf#4).trans
    (by simp only [BitVec.and_zero]; rfl)

theorem cvst1 (ra : RegIdx) (rb : RegIdx) : Statement (.cvst1 ra rb) :=
  (formatR_and _ 0xff#8 _ 0xff#8 _ 0xf#4 _ 0x0#4 _ 0x0#4 _ 0xf#4).trans
    (by simp only [BitVec.and_zero]; rfl)

theorem cvst2 (ra : RegIdx) (rb : RegIdx) : Statement (.cvst2 ra rb) :=
  (formatR_and _ 0xff#8 _ 0xff#8 _ 0xf#4 _ 0x0#4 _ 0x0#4 _ 0xf#4).trans
    (by simp only [BitVec.and_zero]; rfl)

theorem cvst4 (ra : RegIdx) (rb : RegIdx) : Statement (.cvst4 ra rb) :=
  (formatR_and _ 0xff#8 _ 0xff#8 _ 0xf#4 _ 0x0#4 _ 0x0#4 _ 0xf#4).trans
    (by simp only [BitVec.and_zero]; rfl)

theorem cvld1 (rd : RegIdx) (ra : RegIdx) : Statement (.cvld1 rd ra) :=
  (formatR_and _ 0xff#8 _ 0xff#8 _ 0x0#4 _ 0x0#4 _ 0xf#4 _ 0xf#4).trans
    (by simp only [BitVec.and_zero]; rfl)

theorem cvld2 (rd : RegIdx) (ra : RegIdx) : Statement (.cvld2 rd ra) :=
  (formatR_and _ 0xff#8 _ 0xff#8 _ 0x0#4 _ 0x0#4 _ 0xf#4 _ 0xf#4).trans
    (by simp only [BitVec.and_zero]; rfl)

theorem cvld4 (rd : RegIdx) (ra : RegIdx) : Statement (.cvld4 rd ra) :=
  (formatR_and _ 0xff#8 _ 0xff#8 _ 0x0#4 _ 0x0#4 _ 0xf#4 _ 0xf#4).trans
    (by simp only [BitVec.and_zero]; rfl)

theorem embed (ra : RegIdx) (rb : RegIdx) : Statement (.embed ra rb) :=
  (formatR_and _ 0xff#8 _ 0xff#8 _ 0xf#4 _ 0x0#4 _ 0x0#4 _ 0xf#4).trans
    (by simp only [BitVec.and_zero]; rfl)

theorem extract (rd : RegIdx) (ra : RegIdx) : Statement (.extract rd ra) :=
  (formatR_and _ 0xff#8 _ 0xff#8 _ 0x0#4 _ 0x0#4 _ 0xf#4 _ 0xf#4).trans
    (by simp only [BitVec.and_zero]; rfl)

theorem embedc (ra : RegIdx) : Statement (.embedc ra) :=
  (formatR_and _ 0xff#8 _ 0xff#8 _ 0xf#4 _ 0x0#4 _ 0xf#4 _ 0xf#4).trans
    (by simp only [BitVec.and_zero]; rfl)

theorem extractc (rd : RegIdx) : Statement (.extractc rd) :=
  (formatR_and _ 0xff#8 _ 0xff#8 _ 0x0#4 _ 0xf#4 _ 0xf#4 _ 0xf#4).trans
    (by simp only [BitVec.and_zero]; rfl)

theorem cset (ra : RegIdx) (rb : RegIdx) : Statement (.cset ra rb) :=
  (formatR_and _ 0xff#8 _ 0xff#8 _ 0xf#4 _ 0x0#4 _ 0x0#4 _ 0xf#4).trans
    (by simp only [BitVec.and_zero]; rfl)

theorem cget (rd : RegIdx) (ra : RegIdx) : Statement (.cget rd ra) :=
  (formatR_and _ 0xff#8 _ 0xff#8 _ 0x0#4 _ 0x0#4 _ 0xf#4 _ 0xf#4).trans
    (by simp only [BitVec.and_zero]; rfl)

theorem peval (rd : RegIdx) (ra : RegIdx) : Statement (.peval rd ra) :=
  (formatR_and _ 0xff#8 _ 0xff#8 _ 0x0#4 _ 0x0#4 _ 0xf#4 _ 0xf#4).trans
    (by simp only [BitVec.and_zero]; rfl)

theorem pshare : Statement (.pshare) := rfl

theorem eget (rd : RegIdx) (ra : RegIdx) : Statement (.eget rd ra) :=
  (formatR_and _ 0xff#8 _ 0xff#8 _ 0x0#4 _ 0x0#4 _ 0xf#4 _ 0xf#4).trans
    (by simp only [BitVec.and_zero]; rfl)

end FixedBits

end Sys2Proof.Laws
end

