-- ==== Sys2Proof/Laws/Decode.lean ====
section
/-!
SUPPORT. The opcode table and the fields of an assembled word.
-/

namespace Sys2Proof

/-- The table has the 51 rows of R67. -/
theorem opTable_length : opTable.length = 51 := by decide

/-- "No two rows share an opcode" (R74). -/
theorem opTable_opcodes_distinct : (opTable.map fun row => opField row.pattern).Nodup := by decide +kernel

/-- Each row's mask covers the opcode, and its match has 0 outside the mask (R66). -/
theorem opTable_patterns_masked :
    ∀ row ∈ opTable, row.pattern &&& row.mask = row.pattern ∧ opField row.mask = 0xFF#8 := by decide +kernel

/-- Appending fields is shifting and adding. -/
theorem toNat_append_add {m n : Nat} (x : BitVec m) (y : BitVec n) :
    (x ++ y).toNat = x.toNat * 2 ^ n + y.toNat := by
  rw [BitVec.toNat_append, ← Nat.shiftLeft_add_eq_or_of_lt y.isLt, Nat.shiftLeft_eq]

/-- `word = op<<24 | rd<<20 | ra<<16 | rb<<12 | rc<<8 | fn` (R77), as a number. -/
theorem formatR_toNat (op : BitVec 8) (rd ra rb rc : BitVec 4) (fn : BitVec 8) :
    (formatR op rd ra rb rc fn).toNat =
      op.toNat * 2 ^ 24 + rd.toNat * 2 ^ 20 + ra.toNat * 2 ^ 16 + rb.toNat * 2 ^ 12 + rc.toNat * 2 ^ 8
        + fn.toNat := by
  change (op ++ rd ++ ra ++ rb ++ rc ++ fn : BitVec (8 + 4 + 4 + 4 + 4 + 8)).toNat = _
  simp only [toNat_append_add]
  omega

/-- Format I as a number (R64). -/
theorem formatI_toNat (op : BitVec 8) (rd : BitVec 4) (imm16 : BitVec 16) :
    (formatI op rd imm16).toNat = op.toNat * 2 ^ 24 + rd.toNat * 2 ^ 20 + imm16.toNat := by
  change (op ++ rd ++ 0#4 ++ imm16 : BitVec (8 + 4 + 4 + 16)).toNat = _
  simp only [toNat_append_add, BitVec.toNat_ofNat]
  omega

/-! ### The fields of an assembled word read back (R61, R68, R69) -/

@[simp] theorem opField_formatR (op : BitVec 8) (rd ra rb rc : BitVec 4) (fn : BitVec 8) :
    opField (formatR op rd ra rb rc fn) = op := by
  have h0 := op.isLt
  have h1 := rd.isLt
  have h2 := ra.isLt
  have h3 := rb.isLt
  have h4 := rc.isLt
  have h5 := fn.isLt
  apply BitVec.eq_of_toNat_eq
  simp only [opField, BitVec.extractLsb'_toNat, formatR_toNat, Nat.shiftRight_eq_div_pow]
  omega

@[simp] theorem rdField_formatR (op : BitVec 8) (rd ra rb rc : BitVec 4) (fn : BitVec 8) :
    rdField (formatR op rd ra rb rc fn) = rd.toFin := by
  have h0 := op.isLt
  have h1 := rd.isLt
  have h2 := ra.isLt
  have h3 := rb.isLt
  have h4 := rc.isLt
  have h5 := fn.isLt
  apply Fin.ext
  simp only [rdField, BitVec.val_toFin, BitVec.extractLsb'_toNat, formatR_toNat, Nat.shiftRight_eq_div_pow]
  omega

@[simp] theorem raField_formatR (op : BitVec 8) (rd ra rb rc : BitVec 4) (fn : BitVec 8) :
    raField (formatR op rd ra rb rc fn) = ra.toFin := by
  have h0 := op.isLt
  have h1 := rd.isLt
  have h2 := ra.isLt
  have h3 := rb.isLt
  have h4 := rc.isLt
  have h5 := fn.isLt
  apply Fin.ext
  simp only [raField, BitVec.val_toFin, BitVec.extractLsb'_toNat, formatR_toNat, Nat.shiftRight_eq_div_pow]
  omega

@[simp] theorem rbField_formatR (op : BitVec 8) (rd ra rb rc : BitVec 4) (fn : BitVec 8) :
    rbField (formatR op rd ra rb rc fn) = rb.toFin := by
  have h0 := op.isLt
  have h1 := rd.isLt
  have h2 := ra.isLt
  have h3 := rb.isLt
  have h4 := rc.isLt
  have h5 := fn.isLt
  apply Fin.ext
  simp only [rbField, BitVec.val_toFin, BitVec.extractLsb'_toNat, formatR_toNat, Nat.shiftRight_eq_div_pow]
  omega

@[simp] theorem rcField_formatR (op : BitVec 8) (rd ra rb rc : BitVec 4) (fn : BitVec 8) :
    rcField (formatR op rd ra rb rc fn) = rc.toFin := by
  have h0 := op.isLt
  have h1 := rd.isLt
  have h2 := ra.isLt
  have h3 := rb.isLt
  have h4 := rc.isLt
  have h5 := fn.isLt
  apply Fin.ext
  simp only [rcField, BitVec.val_toFin, BitVec.extractLsb'_toNat, formatR_toNat, Nat.shiftRight_eq_div_pow]
  omega

@[simp] theorem fnField_formatR (op : BitVec 8) (rd ra rb rc : BitVec 4) (fn : BitVec 8) :
    fnField (formatR op rd ra rb rc fn) = fn := by
  have h0 := op.isLt
  have h1 := rd.isLt
  have h2 := ra.isLt
  have h3 := rb.isLt
  have h4 := rc.isLt
  have h5 := fn.isLt
  apply BitVec.eq_of_toNat_eq
  simp only [fnField, BitVec.extractLsb'_toNat, formatR_toNat, Nat.shiftRight_eq_div_pow]
  omega

@[simp] theorem opField_formatI (op : BitVec 8) (rd : BitVec 4) (imm16 : BitVec 16) :
    opField (formatI op rd imm16) = op := by
  have h0 := op.isLt
  have h1 := rd.isLt
  have h2 := imm16.isLt
  apply BitVec.eq_of_toNat_eq
  simp only [opField, BitVec.extractLsb'_toNat, formatI_toNat, Nat.shiftRight_eq_div_pow]
  omega

@[simp] theorem rdField_formatI (op : BitVec 8) (rd : BitVec 4) (imm16 : BitVec 16) :
    rdField (formatI op rd imm16) = rd.toFin := by
  have h0 := op.isLt
  have h1 := rd.isLt
  have h2 := imm16.isLt
  apply Fin.ext
  simp only [rdField, BitVec.val_toFin, BitVec.extractLsb'_toNat, formatI_toNat, Nat.shiftRight_eq_div_pow]
  omega

@[simp] theorem immField_formatI (op : BitVec 8) (rd : BitVec 4) (imm16 : BitVec 16) :
    immField (formatI op rd imm16) = imm16 := by
  have h0 := op.isLt
  have h1 := rd.isLt
  have h2 := imm16.isLt
  apply BitVec.eq_of_toNat_eq
  simp only [immField, BitVec.extractLsb'_toNat, formatI_toNat, Nat.shiftRight_eq_div_pow]
  omega

/-- The bank bit of a format M word reads back (R63). -/
@[simp] theorem bankField_formatR (op : BitVec 8) (rd ra rb rc : BitVec 4) (b : BankSel) :
    bankField (formatR op rd ra rb rc (bankByte b)) = b := by
  have h : ∀ w : Word, w.getLsbD 0 = decide (w.toNat % 2 = 1) := fun w => by
    simp [BitVec.getLsbD, Nat.testBit_zero]
  have hb : (bankByte b).toNat = match b with | .A => 0 | .B => 1 := by cases b <;> rfl
  simp only [bankField, h, formatR_toNat, hb]
  cases b
  · rw [if_neg]
    simp only [decide_eq_true_eq]
    omega
  · rw [if_pos]
    simp only [decide_eq_true_eq]
    omega

end Sys2Proof
end

