-- ==== Sys2Proof/Laws/Units.lean ====
section
/-!
SUPPORT. The operations the commands of a unit share: for each, once, what it can answer or what shape its
result has.
-/

namespace Sys2Proof.Machine

open Sys2Proof (Word Byte MaskState RegIdx Felt)

/-! ### The mask stream -/

/-- A byte is taken exactly when one is left; it and the next state are the generator's (R163). -/
theorem takeMaskByte_ok {s t : State} {b : Byte} :
    takeMaskByte s = .ok (t, b) ↔
      s.prrem ≠ 0 ∧ b = (maskStep s s.prstate).2 ∧
        t = { s with prstate := (maskStep s s.prstate).1, prrem := s.prrem - 1 } := by
  unfold takeMaskByte
  rw [bind_ok]
  simp only [raiseIf_ok]
  constructor
  · rintro ⟨_, h, h'⟩
    cases h'
    exact ⟨h, rfl, rfl⟩
  · rintro ⟨h, rfl, rfl⟩
    exact ⟨(), h, rfl⟩

theorem takeMaskByte_error {s : State} {e : Raise} :
    takeMaskByte s = .error e ↔ s.prrem = 0 ∧ e = ⟨.maskExhausted, 0⟩ := by
  unfold takeMaskByte
  rw [bind_error]
  simp only [raiseIf_error]
  constructor
  · rintro (h | ⟨_, _, h⟩)
    · exact h
    · cases h
  · exact fun h => .inl h

/-- Masking keeps the number of values (R165). -/
@[simp] theorem maskAll_length (next : MaskState → MaskState × Byte) (z : MaskState) (vs : List Felt) :
    (maskAll next z vs).2.length = vs.length := by
  induction vs generalizing z with
  | nil => rfl
  | cons v rest ih => simp [maskAll, ih]

/-! ### Cover memory -/

/-- A store of `n` bytes completes exactly when they all lie below `BUFLEN` (R41, R172). -/
theorem storeBytes_ok {n : Nat} {ra rb : RegIdx} {s t : State} :
    storeBytes n ra rb s = .ok t ↔
      (readX s ra).toNat + n ≤ s.buflen.toNat ∧
        t = { s with cv := memWrite s.cv (readX s ra).toNat n ((readX s rb).toNat % 2 ^ (8 * n)) } := by
  simp only [storeBytes, bind_ok, coverRange_ok, pure, Except.pure, Except.ok.injEq]
  constructor
  · rintro ⟨_, h, rfl⟩; exact ⟨h, rfl⟩
  · rintro ⟨h, rfl⟩; exact ⟨(), h, rfl⟩

theorem storeBytes_error {n : Nat} {ra rb : RegIdx} {s : State} {e : Raise} :
    storeBytes n ra rb s = .error e ↔
      s.buflen.toNat < (readX s ra).toNat + n ∧ e = ⟨.addrRange, readX s ra⟩ := by
  simp [storeBytes, bind_error, pure, Except.pure]

/-- A load of `n` bytes completes exactly when they all lie below `BUFLEN` (R41, R173). -/
theorem loadBytes_ok {n : Nat} {rd ra : RegIdx} {s t : State} :
    loadBytes n rd ra s = .ok t ↔
      (readX s ra).toNat + n ≤ s.buflen.toNat ∧
        t = writeX s rd (BitVec.ofNat 32 (memRead s.cv (readX s ra).toNat n)) := by
  simp only [loadBytes, bind_ok, coverRange_ok, pure, Except.pure, Except.ok.injEq]
  constructor
  · rintro ⟨_, h, rfl⟩; exact ⟨h, rfl⟩
  · rintro ⟨h, rfl⟩; exact ⟨(), h, rfl⟩

theorem loadBytes_error {n : Nat} {rd ra : RegIdx} {s : State} {e : Raise} :
    loadBytes n rd ra s = .error e ↔
      s.buflen.toNat < (readX s ra).toNat + n ∧ e = ⟨.addrRange, readX s ra⟩ := by
  simp [loadBytes, bind_error, pure, Except.pure]

/-- What embedding a byte does to each byte of cover memory: byte `i` of the eight takes bit `7 - i` of the
value, and every other byte reads as before (R174, R176). -/
theorem readByte_embedAt (s : State) (addr : Nat) (v : Byte) (a : Nat) :
    readByte (embedAt s addr v).cv a =
      if addr ≤ a ∧ a < addr + 8 then embedBit (readByte s.cv a) (v.getLsbD (7 - (a - addr)))
      else readByte s.cv a := by
  simp only [embedAt, readByte_writeBytes, Vector.length_toList]
  by_cases h : addr ≤ a ∧ a < addr + 8
  · have h' : addr ≤ a ∧ a - addr < 8 := by omega
    have h'' : addr + (a - addr) = a := by omega
    rw [dif_pos h', if_pos h]
    simp [embed8, eightBytes, h'']
  · rw [dif_neg (by omega), if_neg h]

/-! ### Elimination -/

/-- The pivot row found is the first row from `p` on with a non-zero element in the column (R129). -/
theorem findPivot_some {g : Grid} {rows p col q : Nat} :
    findPivot g rows p col = some q ↔
      p ≤ q ∧ q < rows ∧ entry g q col ≠ 0 ∧ ∀ r, p ≤ r → r < q → entry g r col = 0 := by
  simp only [findPivot, List.find?_range'_eq_some, List.mem_range'_1, bne_iff_ne, ne_eq,
    Bool.not_eq_true', bne_eq_false_iff_eq]
  constructor
  · rintro ⟨h1, ⟨h2, h3⟩, h4⟩
    exact ⟨h2, by omega, h1, h4⟩
  · rintro ⟨h1, h2, h3, h4⟩
    exact ⟨h3, ⟨h1, by omega⟩, h4⟩

/-- There is no pivot row exactly when the column is 0 from row `p` on (R129). -/
theorem findPivot_none {g : Grid} {rows p col : Nat} :
    findPivot g rows p col = none ↔ ∀ r, p ≤ r → r < rows → entry g r col = 0 := by
  simp only [findPivot, List.find?_eq_none, List.mem_range'_1, bne_iff_ne, ne_eq, not_not]
  constructor
  · intro h r h1 h2; exact h r ⟨h1, by omega⟩
  · rintro h r ⟨h1, h2⟩; exact h r h1 (by omega)

@[simp] theorem scaleRow_length (f : Felt) (row : List Felt) : (scaleRow f row).length = row.length := by
  simp [scaleRow]

@[simp] theorem addScaledRow_length (dest src : List Felt) (f : Felt) :
    (addScaledRow dest src f).length = min dest.length src.length := by
  simp [addScaledRow]

@[simp] theorem swapRows_length {α : Type} (g : List (List α)) (i j : Nat) :
    (swapRows g i j).length = g.length := by
  simp [swapRows]

@[simp] theorem eliminate_length (sel : Nat → Bool) (pivotRow : List Felt) (col first : Nat) (g : Grid) :
    (eliminate sel pivotRow col first g).length = g.length := by
  induction g generalizing first with
  | nil => rfl
  | cons row rest ih => simp [eliminate, ih]

/-- What clearing a column does to each row: the rows picked get the pivot row times `fneg` of their own
element added, the others stay (R129). -/
theorem eliminate_getElem (sel : Nat → Bool) (pivotRow : List Felt) (col first : Nat) (g : Grid) (r : Nat)
    (h : r < g.length) :
    (eliminate sel pivotRow col first g)[r]'(by simpa using h) =
      if sel (first + r) then addScaledRow g[r] pivotRow (fneg (g[r].getD col 0)) else g[r] := by
  induction g generalizing first r with
  | nil => simp at h
  | cons row rest ih =>
    cases r with
    | zero => simp [eliminate]
    | succ r =>
      have h' : r < rest.length := by simpa using h
      simp only [eliminate, List.getElem_cons_succ]
      rw [ih (first + 1) r h']
      have : first + 1 + r = first + (r + 1) := by omega
      rw [this]

@[simp] theorem powersFrom_length (x : Felt) (count : Nat) (acc : Felt) :
    (powersFrom x count acc).length = count := by
  induction count generalizing acc with
  | zero => rfl
  | succ count ih => simp [powersFrom, ih]

@[simp] theorem vandRow_length (k : Nat) (pt : Point) : (vandRow k pt).length = k + 1 := by
  simp [vandRow]

@[simp] theorem solutionColumn_length (t : Grid) (k : Nat) : (solutionColumn t k).length = k := by
  simp [solutionColumn]

/-! ### The overflow-avoidance rule -/

@[simp] theorem evaluations_length (c : List Felt) (n : Nat) : (evaluations c n).length = n := by
  simp [evaluations]

@[simp] theorem decrementFirst_length (c : List Felt) : (decrementFirst c).length = c.length := by
  induction c with
  | nil => rfl
  | cons v rest ih =>
    simp only [decrementFirst]
    split <;> simp [ih]

/-- What the correction answers: some number of decrements within its bound, each made because an evaluation
was 256, and an evaluation of 256 left only if the bound was used up (R196). -/
theorem correctOverflow_spec (n fuel : Nat) (c : List Felt) (cnt : Nat) :
    ∃ p, p ≤ fuel ∧ correctOverflow n fuel c cnt = (decrementFirst^[p] c, cnt + p) ∧
      (∀ q, q < p → 256 ∈ evaluations (decrementFirst^[q] c) n) ∧
      (p < fuel → 256 ∉ evaluations (decrementFirst^[p] c) n) := by
  induction fuel generalizing c cnt with
  | zero => exact ⟨0, le_rfl, rfl, by simp, by simp⟩
  | succ fuel ih =>
    by_cases h : 256 ∈ evaluations c n
    · obtain ⟨p, h1, h2, h3, h4⟩ := ih (decrementFirst c) (cnt + 1)
      refine ⟨p + 1, by omega, ?_, ?_, ?_⟩
      · rw [correctOverflow, if_pos (by simpa using h), h2, Function.iterate_succ_apply]
        congr 1
        omega
      · intro q hq
        cases q with
        | zero => exact h
        | succ q => rw [Function.iterate_succ_apply]; exact h3 q (by omega)
      · intro hp
        rw [Function.iterate_succ_apply]
        exact h4 (by omega)
    · refine ⟨0, by omega, ?_, by simp, fun _ => h⟩
      rw [correctOverflow, if_neg (by simpa using h)]
      rfl

end Sys2Proof.Machine
end

