-- ==== Sys2Proof/Machine/Assembly.lean ====
section
/-!
DEFINITION. The assembly spelling of a command (R75). It says nothing that the command word does not (R6): no step
uses it.
-/

namespace Sys2Proof

/-- A register is written `x0` to `x15` (R75). -/
def regName (r : RegIdx) : String := "x" ++ toString r.val

/-- The names of the CSRs (R23). -/
def csrName : Csr → String
  | .modulus => "MODULUS"
  | .version => "VERSION"
  | .status => "STATUS"
  | .errcode => "ERRCODE"
  | .errinfo => "ERRINFO"
  | .errcmd => "ERRCMD"
  | .errseq => "ERRSEQ"
  | .cmdcnt => "CMDCNT"
  | .kreg => "KREG"
  | .nreg => "NREG"
  | .corrcnt => "CORRCNT"
  | .buflen => "BUFLEN"
  | .payoff => "PAYOFF"
  | .cursor => "CURSOR"
  | .capacity => "CAPACITY"
  | .prseed => "PRSEED"
  | .prstate => "PRSTATE"
  | .prrem => "PRREM"
  | .marows => "MAROWS"
  | .macols => "MACOLS"
  | .mbrows => "MBROWS"
  | .mbcols => "MBCOLS"
  | .matmaxr => "MATMAXR"
  | .matmaxc => "MATMAXC"
  | .covmax => "COVMAX"

/-- A CSR by its name, a number that names none by itself (R75). -/
def csrSpelling (csr : BitVec 8) : String :=
  match csrOfNumber csr with
  | some c => csrName c
  | none => toString csr.toNat

/-- The suffix of a format M mnemonic, which no other has (R75). -/
def bankSuffix : BankSel → String
  | .A => ".A"
  | .B => ".B"

/-- The mnemonic of R67, with the bank suffix of format M, and the operands in the order R67 lists. -/
def spelling : Instr → String × List String
  | .nop => ("NOP", [])
  | .li rd imm16 => ("LI", [regName rd, toString imm16.toNat])
  | .lih rd imm16 => ("LIH", [regName rd, toString imm16.toNat])
  | .mov rd ra => ("MOV", [regName rd, regName ra])
  | .csrr rd csr => ("CSRR", [regName rd, csrSpelling csr])
  | .out ra => ("OUT", [regName ra])
  | .errack => ("ERRACK", [])
  | .srst => ("SRST", [])
  | .kset ra => ("KSET", [regName ra])
  | .nset ra => ("NSET", [regName ra])
  | .fzero rd => ("FZERO", [regName rd])
  | .fone rd => ("FONE", [regName rd])
  | .fadd rd ra rb => ("FADD", [regName rd, regName ra, regName rb])
  | .fmul rd ra rb => ("FMUL", [regName rd, regName ra, regName rb])
  | .fneg rd ra => ("FNEG", [regName rd, regName ra])
  | .finv rd ra => ("FINV", [regName rd, regName ra])
  | .feq rd ra rb => ("FEQ", [regName rd, regName ra, regName rb])
  | .mnew b ra rb => ("MNEW" ++ bankSuffix b, [regName ra, regName rb])
  | .mset b ra rb rc => ("MSET" ++ bankSuffix b, [regName ra, regName rb, regName rc])
  | .mget b rd ra rb => ("MGET" ++ bankSuffix b, [regName rd, regName ra, regName rb])
  | .mswap b ra rb => ("MSWAP" ++ bankSuffix b, [regName ra, regName rb])
  | .mscale b ra rb => ("MSCALE" ++ bankSuffix b, [regName ra, regName rb])
  | .maddsr b ra rb rc => ("MADDSR" ++ bankSuffix b, [regName ra, regName rb, regName rc])
  | .mappc b => ("MAPPC" ++ bankSuffix b, [])
  | .mappr b => ("MAPPR" ++ bankSuffix b, [])
  | .mrref b => ("MRREF" ++ bankSuffix b, [])
  | .minv b => ("MINV" ++ bankSuffix b, [])
  | .mdet b rd => ("MDET" ++ bankSuffix b, [regName rd])
  | .ptset ra rb rc => ("PTSET", [regName ra, regName rb, regName rc])
  | .mvand b => ("MVAND" ++ bankSuffix b, [])
  | .isolve => ("ISOLVE", [])
  | .mseed ra rb => ("MSEED", [regName ra, regName rb])
  | .mnext rd => ("MNEXT", [regName rd])
  | .mxor rd ra => ("MXOR", [regName rd, regName ra])
  | .mxorb => ("MXORB", [])
  | .bcopen ra rb => ("BCOPEN", [regName ra, regName rb])
  | .cvst1 ra rb => ("CVST1", [regName ra, regName rb])
  | .cvst2 ra rb => ("CVST2", [regName ra, regName rb])
  | .cvst4 ra rb => ("CVST4", [regName ra, regName rb])
  | .cvld1 rd ra => ("CVLD1", [regName rd, regName ra])
  | .cvld2 rd ra => ("CVLD2", [regName rd, regName ra])
  | .cvld4 rd ra => ("CVLD4", [regName rd, regName ra])
  | .embed ra rb => ("EMBED", [regName ra, regName rb])
  | .extract rd ra => ("EXTRACT", [regName rd, regName ra])
  | .embedc ra => ("EMBEDC", [regName ra])
  | .extractc rd => ("EXTRACTC", [regName rd])
  | .cset ra rb => ("CSET", [regName ra, regName rb])
  | .cget rd ra => ("CGET", [regName rd, regName ra])
  | .peval rd ra => ("PEVAL", [regName rd, regName ra])
  | .pshare => ("PSHARE", [])
  | .eget rd ra => ("EGET", [regName rd, regName ra])

/-- One command as one line: the mnemonic, then its operands separated by commas (R75). -/
def assembly (i : Instr) : String :=
  match spelling i with
  | (m, []) => m
  | (m, operands) => m ++ " " ++ ", ".intercalate operands

end Sys2Proof
end

