-- ==== Sys2Proof/Tests/Slice0.lean ====
section
/-!
SUPPORT. Tests with results from the spec (its examples and 95_test_vectors.md), and for every statement with
hypotheses a state and operands that meet them, clause by clause and at the ends of their ranges.
-/

namespace Sys2Proof.Tests

-- One test at a time: checked side by side they take one thread each.
set_option Elab.async false


open Sys2Proof Sys2Proof.Machine Sys2Proof.Safety

/-! ### Small states -/

/-- The state after reset with some registers set. -/
def regs (l : List (RegIdx × Nat)) : State :=
  l.foldl (fun s p => writeX s p.1 (BitVec.ofNat 32 p.2)) State.reset

/-- A bank of initialised elements, row by row. -/
def bank (g : List (List Nat)) : Bank :=
  ⟨g.length, (g.headD []).length, g.map fun row => row.map fun v => some (feltOf v)⟩

/-- `s` with bank `MA` and bank `MB`. -/
def banks (s : State) (a b : List (List Nat)) : State := { s with ma := bank a, mb := bank b }

/-- `s` with parameters `K`, `N` and the first coefficients. -/
def poly (s : State) (k n : Nat) (c : List Nat) : State :=
  { s with k := k, n := n, cb := overwriteFirst (c.map feltOf) s.cb }

/-- `s` with `K` and the first points. -/
def pointSet (s : State) (k : Nat) (l : List (Nat × Nat)) : State :=
  { s with k := k, pt := overwriteFirst (l.map fun p => ⟨feltOf p.1, feltOf p.2⟩) s.pt }

/-- `s` with a mask stream under way. -/
def stream (s : State) (z len : Nat) : State :=
  { s with prseed := BitVec.ofNat 16 z, prstate := BitVec.ofNat 16 z, prrem := BitVec.ofNat 32 len }

/-- `s` with a buffer open and the bytes given written from `first` on. -/
def buffer (s : State) (len off first : Nat) (bytes : List Byte) : State :=
  { s with
    buflen := BitVec.ofNat 32 len, payoff := BitVec.ofNat 32 off, cursor := BitVec.ofNat 32 off
    cv := writeBytes [] first bytes }

/-- `s` in FAULTED with a record. -/
def faultedState (s : State) : State := { s with faulted := true, errcode := 2, errcmd := 0x15310000 }

/-- The state a command leaves. -/
def after (i : Instr) (s : State) : State :=
  match exec i s with
  | .next t => t
  | .fault _ => s
  | .refused _ => s

/-- The state a step leaves. -/
def stepped (s : State) : State :=
  match step s with
  | .next t => t
  | .fault _ => s
  | .refused _ => s

/-- The code and the info of the recorded error. -/
def record (s : State) : Nat × Nat := (s.errcode.toNat, s.errinfo.toNat)

/-- The bytes of cover memory from an address. -/
def bytesAt (s : State) (addr n : Nat) : List Byte := (List.range n).map fun i => readByte s.cv (addr + i)

/-! ### Well-formedness: the one check, of R71 -/

theorem test_wellFormed_refuses_unlisted_csr :
    (Instr.csrr 5 0x0B).wellFormed = false ∧ (Instr.csrr 5 0x14).wellFormed = false ∧
    (Instr.csrr 5 0x1B).wellFormed = false ∧ (Instr.csrr 5 0x24).wellFormed = false ∧
    (Instr.csrr 5 0xFF).wellFormed = false ∧ (Instr.csrr 5 0x2A).wellFormed = true := by decide

/-! ### Decoding: words written out from the encoding (R61 to R67, and the examples of 40 to 46) -/

theorem test_decode_control :
    decode 0x00000000 = .ok .nop ∧ decode 0b00000001000100000000000011001000#32 = .ok (.li 1 200) ∧
    decode 0x0220ABCD = .ok (.lih 2 0xABCD) ∧ decode 0x03410000 = .ok (.mov 4 1) ∧
    decode 0x04500003 = .ok (.csrr 5 3) ∧ decode 0x05050000 = .ok (.out 5) ∧
    decode 0x06000000 = .ok .errack ∧ decode 0x07000000 = .ok .srst ∧
    decode 0x08010000 = .ok (.kset 1) ∧ decode 0x09020000 = .ok (.nset 2) := by decide

theorem test_decode_fieldAlu :
    decode 0x10700000 = .ok (.fzero 7) ∧ decode 0x11700000 = .ok (.fone 7) ∧
    decode 0b00010010001100010010000000000000#32 = .ok (.fadd 3 1 2) ∧ decode 0x13412000 = .ok (.fmul 4 1 2) ∧
    decode 0x14510000 = .ok (.fneg 5 1) ∧ decode 0x15610000 = .ok (.finv 6 1) ∧
    decode 0x16812000 = .ok (.feq 8 1 2) := by decide

theorem test_decode_linearSystem :
    decode 0x20012000 = .ok (.mnew .A 1 2) ∧ decode 0b00100001000000010010001100000001#32 = .ok (.mset .B 1 2 3) ∧
    decode 0x22412000 = .ok (.mget .A 4 1 2) ∧ decode 0x23012000 = .ok (.mswap .A 1 2) ∧
    decode 0x24023000 = .ok (.mscale .A 2 3) ∧ decode 0x25012300 = .ok (.maddsr .A 1 2 3) ∧
    decode 0x26000001 = .ok (.mappc .B) ∧ decode 0x27000000 = .ok (.mappr .A) ∧
    decode 0x28000001 = .ok (.mrref .B) ∧ decode 0x29000000 = .ok (.minv .A) ∧
    decode 0x2A900000 = .ok (.mdet .A 9) := by decide

theorem test_decode_interpolation :
    decode 0b00110000000000010010001100000000#32 = .ok (.ptset 1 2 3) ∧ decode 0x31000001 = .ok (.mvand .B) ∧
    decode 0x32000000 = .ok .isolve := by decide

theorem test_decode_maskStream :
    decode 0b01000000000000010010000000000000#32 = .ok (.mseed 1 2) ∧ decode 0x41300000 = .ok (.mnext 3) ∧
    decode 0x42540000 = .ok (.mxor 5 4) ∧ decode 0x43000000 = .ok .mxorb := by decide

theorem test_decode_bitChannel :
    decode 0x50012000 = .ok (.bcopen 1 2) ∧ decode 0x51034000 = .ok (.cvst1 3 4) ∧
    decode 0x52034000 = .ok (.cvst2 3 4) ∧ decode 0x53034000 = .ok (.cvst4 3 4) ∧
    decode 0x54530000 = .ok (.cvld1 5 3) ∧ decode 0x55530000 = .ok (.cvld2 5 3) ∧
    decode 0x56730000 = .ok (.cvld4 7 3) ∧ decode 0b01010111000000110100000000000000#32 = .ok (.embed 3 4) ∧
    decode 0x58530000 = .ok (.extract 5 3) ∧ decode 0x59040000 = .ok (.embedc 4) ∧
    decode 0x5A900000 = .ok (.extractc 9) := by decide

theorem test_decode_polyEval :
    decode 0b01100000000000100011000000000000#32 = .ok (.cset 2 3) ∧ decode 0x61820000 = .ok (.cget 8 2) ∧
    decode 0x62540000 = .ok (.peval 5 4) ∧ decode 0x63000000 = .ok .pshare ∧
    decode 0x64750000 = .ok (.eget 7 5) := by decide

/-- Illegal words (R66, R71, R72, R77): each kind by its name. -/
theorem test_decode_illegal :
    decode 0xFFFFFFFF = .error .unknownOpcode ∧ decode 0x0A000000 = .error .unknownOpcode ∧
    decode 0x12312001 = .error .unusedFieldSet ∧ decode 0x10310000 = .error .unusedFieldSet ∧
    decode 0x28000002 = .error .unusedFieldSet ∧ decode 0x01110000 = .error .unusedFieldSet ∧
    decode 0x0450000B = .error .unknownCsr := by decide

theorem test_encode_examples :
    encode (.fadd 3 1 2) = 0x12312000 ∧ encode (.li 1 200) = 0x011000C8 ∧ encode (.mset .B 1 2 3) = 0x21012301 ∧
    encode (.csrr 5 3) = 0x04500003 ∧ encode .pshare = 0x63000000 ∧ encode (.embed 4 5) = 0x57045000 := by decide

/-- The spellings of R77 (R75). -/
theorem test_assembly : assembly (.fadd 3 1 2) = "FADD x3, x1, x2" ∧ assembly (.mset .B 1 2 3) = "MSET.B x1, x2, x3" ∧
    assembly (.csrr 5 3) = "CSRR x5, ERRCODE" ∧ assembly (.li 1 200) = "LI x1, 200" ∧
    assembly .pshare = "PSHARE" := by decide +kernel

/-! ### Reset and the sequencer -/

theorem test_reset_memory_wf : Memory.wf State.reset.cv = true := by decide

/-- A word handed over is decoded and executed by the next step: `LI x1, 200`. -/
theorem test_step_runs_word : (stepped (State.reset.withFetchWord 32 0x011000C8)).x[1] = 200 := by decide +kernel

/-- R245: FADD is dropped in FAULTED, CSRR of ERRCODE is not. -/
theorem test_step_faulted :
    (stepped ((faultedState (regs [(2, 7)])).withFetchWord 32 0x12322000)).x[3] = 0 ∧
    (stepped ((faultedState (regs [(2, 7)])).withFetchWord 32 0x12322000)).cmdcnt = 0 ∧
    (stepped ((faultedState (regs [])).withFetchWord 32 0x04400003)).x[4] = 2 := by decide +kernel

/-! ### Control (40_control.md; 95, 2.8) -/

theorem test_nop : (after .nop State.reset).cmdcnt = 1 := by decide +kernel
theorem test_li : (after (.li 2 0) (regs [(2, 0xFFFF1234)])).x[2] = 0 := by decide +kernel
theorem test_lih : (after (.lih 2 0xABCD) (regs [(2, 0x1234)])).x[2] = 0xABCD1234 := by decide +kernel
theorem test_mov : (after (.mov 4 3) (regs [(3, 0xFFFFFFFF)])).x[4] = 0xFFFFFFFF := by decide +kernel
theorem test_csrr_modulus : (after (.csrr 5 0) State.reset).x[5] = 257 := by decide +kernel
/-- The count without the CSRR itself (R84). -/
theorem test_csrr_cmdcnt : (after (.csrr 1 7) { State.reset with cmdcnt := 9 }).x[1] = 9 := by decide +kernel
theorem test_out : (after (.out 5) (regs [(5, 257)])).resp = [257] := by decide +kernel
theorem test_errack : (after .errack (faultedState State.reset)).errcode = 0 := by decide +kernel
theorem test_srst : (after .srst { regs [(1, 5)] with cmdcnt := 7, resp := [3] }).resp = [3] ∧
    (after .srst { regs [(1, 5)] with cmdcnt := 7 }).cmdcnt = 0 := by decide +kernel
theorem test_kset : (after (.kset 1) { regs [(1, 3)] with n := 5 }).k = 3 ∧
    (after (.kset 1) { regs [(1, 3)] with n := 5 }).n = 0 := by decide +kernel
theorem test_kset_raises : record (after (.kset 1) (regs [(1, 258)])) = (6, 258) := by decide +kernel
theorem test_nset : (after (.nset 2) { regs [(2, 5)] with k := 3 }).n = 5 := by decide +kernel
theorem test_nset_raises : record (after (.nset 2) { regs [(2, 257)] with k := 257 }) = (6, 257) := by decide +kernel

/-! ### Field ALU (95, 2.1 and 2.2) -/

theorem test_fzero : (after (.fzero 7) (regs [(7, 9)])).x[7] = 0 := by decide +kernel
theorem test_fone : (after (.fone 7) State.reset).x[7] = 1 := by decide +kernel
theorem test_fadd : (after (.fadd 9 1 2) (regs [(1, 256), (2, 256)])).x[9] = 255 := by decide +kernel
theorem test_fadd_raises : record (after (.fadd 9 1 2) (regs [(1, 300), (2, 400)])) = (2, 300) := by decide +kernel
theorem test_fmul : (after (.fmul 4 1 2) (regs [(1, 200), (2, 100)])).x[4] = 211 := by decide +kernel
theorem test_fneg : (after (.fneg 5 1) (regs [(1, 0)])).x[5] = 0 ∧
    (after (.fneg 5 1) (regs [(1, 1)])).x[5] = 256 := by decide +kernel
theorem test_finv : (after (.finv 1 1) (regs [(1, 200)])).x[1] = 9 := by decide +kernel
theorem test_finv_table_row : [1, 2, 3, 4, 5, 6, 7, 8, 9, 10, 11, 12, 13, 14, 15, 16].map (fun a => (finv (feltOf a)).val) =
    [1, 129, 86, 193, 103, 43, 147, 225, 200, 180, 187, 150, 178, 202, 120, 241] := by decide +kernel
theorem test_feq : (after (.feq 8 1 2) (regs [(1, 43), (2, 43)])).x[8] = 1 := by decide +kernel
theorem test_feq_raises : record (after (.feq 8 1 2) (regs [(1, 0), (2, 257)])) = (2, 257) := by decide +kernel

/-! ### Linear system (95, 2.3) -/

theorem test_mnew : (after (.mnew .A 1 2) (regs [(1, 2), (2, 3)])).ma =
    ⟨2, 3, [[none, none, none], [none, none, none]]⟩ := by decide +kernel
theorem test_mnew_raises : record (after (.mnew .A 1 2) (regs [(1, 3), (2, 515)])) = (13, 515) := by decide +kernel
theorem test_mset : ((after (.mset .A 1 2 3) { regs [(1, 0), (2, 2), (3, 8)] with
    ma := ⟨2, 3, [[none, none, none], [none, none, none]]⟩ }).ma.elem 0 2) = some 8 := by decide +kernel
theorem test_mget : (after (.mget .A 4 1 2) (banks (regs [(1, 1), (2, 0)]) [[1, 2], [3, 4]] [])).x[4] = 3 := by
  decide +kernel
theorem test_mget_none : record (after (.mget .A 9 1 2) { regs [(1, 1), (2, 1)] with
    ma := ⟨2, 2, [[some 1, some 2], [some 3, none]]⟩ }) = (7, 3) := by decide +kernel
theorem test_mswap : (after (.mswap .A 1 2) (banks (regs [(1, 0), (2, 1)]) [[1, 2], [3, 4]] [])).ma =
    bank [[3, 4], [1, 2]] := by decide +kernel
theorem test_mscale : (after (.mscale .A 1 2) (banks (regs [(1, 1), (2, 129)]) [[1, 2], [3, 4]] [])).ma =
    bank [[1, 2], [130, 2]] := by decide +kernel
theorem test_maddsr : (after (.maddsr .A 1 2 3)
    (banks (regs [(1, 0), (2, 1), (3, 100)]) [[1, 2, 3], [143, 243, 157]] [])).ma =
    bank [[1, 2, 3], [243, 186, 200]] := by decide +kernel
theorem test_maddsr_same_row : (after (.maddsr .A 1 2 3)
    (banks (regs [(1, 0), (2, 0), (3, 2)]) [[1, 2], [3, 4]] [])).ma = bank [[3, 6], [3, 4]] := by decide +kernel
theorem test_mappc : (after (.mappc .A) (banks State.reset [[1, 2], [3, 4]] [[5], [6]])).ma =
    bank [[1, 2, 5], [3, 4, 6]] := by decide +kernel
theorem test_mappr : (after (.mappr .A) (banks State.reset [[1, 2], [3, 4]] [[5, 6]])).ma =
    bank [[1, 2], [3, 4], [5, 6]] := by decide +kernel
theorem test_mappr_raises : record (after (.mappr .A) (banks State.reset [[1, 2], [3, 4]] [[5], [6]])) = (9, 1) := by
  decide +kernel
theorem test_mrref : (after (.mrref .A) (banks State.reset [[2, 3, 8], [1, 4, 9]] [])).ma =
    bank [[1, 0, 1], [0, 1, 2]] := by decide +kernel
theorem test_mrref_rank : (after (.mrref .A) (banks State.reset [[0, 0, 5], [0, 3, 6], [0, 0, 0]] [])).ma =
    bank [[0, 1, 0], [0, 0, 1], [0, 0, 0]] := by decide +kernel
theorem test_minv : (after (.minv .A) (banks State.reset [[1, 1, 1], [1, 2, 4], [1, 3, 9]] [])).ma =
    bank [[3, 254, 1], [126, 4, 127], [129, 256, 129]] := by decide +kernel
theorem test_minv_singular : (after (.minv .A) (banks State.reset [[1, 2], [2, 4]] [])).ma =
    bank [[1, 2], [2, 4]] ∧ record (after (.minv .A) (banks State.reset [[1, 2], [2, 4]] [])) = (4, 0) := by
  decide +kernel
theorem test_mdet : (after (.mdet .A 9) (banks State.reset [[0, 2, 1], [3, 0, 0], [0, 0, 5]] [])).x[9] = 227 ∧
    (after (.mdet .A 9) (banks State.reset [[0, 2, 1], [3, 0, 0], [0, 0, 5]] [])).ma =
      bank [[1, 0, 0], [0, 1, 129], [0, 0, 1]] := by decide +kernel
theorem test_mdet_singular : (after (.mdet .A 9) (banks (regs [(9, 7)]) [[1, 2], [2, 4]] [])).x[9] = 0 := by
  decide +kernel

/-! ### Interpolation (95, 2.4) -/

theorem test_ptset : (after (.ptset 1 2 3) (regs [(1, 256), (2, 256), (3, 256)])).pt[256] = ⟨256, 256⟩ := by
  decide +kernel
theorem test_mvand : (after (.mvand .B) (pointSet State.reset 2 [(0, 5), (1, 12)])).mb =
    bank [[1, 0, 5], [1, 1, 12]] := by decide +kernel
theorem test_isolve : coefficients (after .isolve (pointSet State.reset 3 [(0, 5), (256, 9), (2, 63)])) =
    [5, 7, 11] := by decide +kernel
theorem test_isolve_raises : record (after .isolve (pointSet State.reset 3 [(1, 23), (2, 63), (2, 64)])) =
    (3, 0) := by decide +kernel

/-! ### Mask stream (95, 2.5) -/

theorem test_mseed : (after (.mseed 1 2) (regs [(1, 1234), (2, 12)])).prstate = 1234 ∧
    (after (.mseed 1 2) (regs [(1, 1234), (2, 12)])).prrem = 12 := by decide +kernel
theorem test_mseed_raises : record (after (.mseed 1 2) (regs [(1, 65536), (2, 4)])) = (13, 65536) := by
  decide +kernel
theorem test_mnext : (after (.mnext 3) (stream State.reset 1234 12)).x[3] = 51 ∧
    (after (.mnext 3) (stream State.reset 1234 12)).prstate = 13267 := by decide +kernel
theorem test_mnext_raises : record (after (.mnext 3) State.reset) = (11, 0) := by decide +kernel
theorem test_mxor : (after (.mxor 5 4) (stream (regs [(4, 0xAA)]) 13267 11)).x[5] = 0x9B := by decide +kernel
theorem test_mxor_raises : record (after (.mxor 5 4) (stream (regs [(4, 256)]) 1 0)) = (10, 256) := by decide +kernel
theorem test_mxorb : coefficients (after .mxorb (stream (poly State.reset 2 0 [200, 17]) 1234 4)) = [251, 32] ∧
    (after .mxorb (stream (poly State.reset 2 0 [200, 17]) 1234 4)).prstate = 0x3128 := by decide +kernel
theorem test_mxorb_raises : record (after .mxorb (stream (poly State.reset 2 0 [200, 17]) 1234 1)) = (11, 1) := by
  decide +kernel

/-! ### Cover memory and the bit channel (95, 2.6) -/

theorem test_bcopen : (after (.bcopen 1 2) (regs [(1, 20), (2, 4)])).cursor = 4 := by decide +kernel
theorem test_bcopen_raises : record (after (.bcopen 1 2) (regs [(1, 10), (2, 11)])) = (13, 11) := by decide +kernel
theorem test_cvst1 : bytesAt (after (.cvst1 3 4) (buffer (regs [(3, 10), (4, 0x1FF)]) 64 54 0 [])) 10 1 =
    [0xFF] := by decide +kernel
theorem test_cvst2 : bytesAt (after (.cvst2 3 4) (buffer (regs [(3, 6), (4, 1234)]) 64 54 0 [])) 6 2 =
    [0xD2, 0x04] := by decide +kernel
theorem test_cvst4 : bytesAt (after (.cvst4 3 4) (buffer (regs [(3, 2), (4, 0x12345678)]) 64 54 0 [])) 2 4 =
    [0x78, 0x56, 0x34, 0x12] := by decide +kernel
theorem test_cvst4_raises : record (after (.cvst4 3 4) (buffer (regs [(3, 61)]) 64 54 0 [])) = (12, 61) := by
  decide +kernel
theorem test_cvld1 : (after (.cvld1 5 3) (buffer (regs [(3, 63)]) 64 0 60 [0xEF, 0xBE, 0xAD, 0xDE])).x[5] =
    0xDE := by decide +kernel
theorem test_cvld2 : (after (.cvld2 5 3) (buffer (regs [(3, 62)]) 64 0 60 [0xEF, 0xBE, 0xAD, 0xDE])).x[5] =
    0xDEAD := by decide +kernel
theorem test_cvld4 : (after (.cvld4 7 3) (buffer (regs [(3, 4)]) 64 0 4 [0x34, 0x12, 0xD2, 0x04])).x[7] =
    0x04D21234 := by decide +kernel
theorem test_cvld4_raises : record (after (.cvld4 7 3) (buffer (regs [(3, 0xFFFFFFFF)]) 64 0 0 [])) =
    (12, 4294967295) := by decide +kernel

/-- The buffer of the EMBED example (R176). -/
def cover : List Byte := [0x10, 0x21, 0x32, 0x43, 0x54, 0x65, 0x76, 0x87]

theorem test_embed : bytesAt (after (.embed 3 4) (buffer (regs [(3, 4), (4, 0xA5)]) 20 4 4 cover)) 4 8 =
    [0x11, 0x20, 0x33, 0x42, 0x54, 0x65, 0x76, 0x87] := by decide +kernel
theorem test_embed_raises : record (after (.embed 3 4) (buffer (regs [(3, 99), (4, 256)]) 20 4 4 cover)) =
    (10, 256) := by decide +kernel
theorem test_extract : (after (.extract 5 3)
    (buffer (regs [(3, 4)]) 20 4 4 [0x11, 0x20, 0x33, 0x42, 0x54, 0x65, 0x76, 0x87])).x[5] = 0xA5 := by
  decide +kernel
theorem test_embedc : (after (.embedc 4) (buffer (regs [(4, 0x0F)]) 20 4 4 cover)).cursor = 12 ∧
    bytesAt (after (.embedc 4) (buffer (regs [(4, 0x80)]) 20 4 4 [0xFF, 0xFF, 0xFF, 0xFF, 0, 0, 0, 0])) 4 8 =
      [0xFF, 0xFE, 0xFE, 0xFE, 0, 0, 0, 0] := by decide +kernel
theorem test_embedc_raises : record (after (.embedc 4) (buffer State.reset 20 20 4 cover)) = (5, 20) := by
  decide +kernel
theorem test_extractc : (after (.extractc 9)
    (buffer State.reset 20 4 4 [0x11, 0x20, 0x33, 0x42, 0x54, 0x65, 0x76, 0x87])).x[9] = 0xA5 := by decide +kernel
theorem test_extractc_raises : record (after (.extractc 9) (buffer State.reset 20 20 0 [])) = (12, 20) := by
  decide +kernel

/-! ### Polynomial evaluator (95, 2.7) -/

theorem test_cset : (after (.cset 2 3) (regs [(2, 256), (3, 256)])).cb[256] = 256 := by decide +kernel
theorem test_cget : (after (.cget 8 2) (poly (regs [(2, 1)]) 0 0 [9, 255])).x[8] = 255 := by decide +kernel
theorem test_peval : (after (.peval 5 4) (poly (regs [(4, 256)]) 3 0 [5, 7, 11])).x[5] = 9 := by decide +kernel
theorem test_peval_uncorrected : (after (.peval 5 4) (poly (regs [(4, 1)]) 2 0 [255, 1])).x[5] = 256 := by
  decide +kernel
theorem test_pshare : coefficients (after .pshare (poly State.reset 2 2 [255, 1])) = [253, 1] ∧
    ((after .pshare (poly State.reset 2 2 [255, 1])).ev.toList.take 2) = [254, 255] ∧
    (after .pshare (poly State.reset 2 2 [255, 1])).corrcnt = 2 := by decide +kernel
theorem test_pshare_later_coefficient : coefficients (after .pshare (poly State.reset 3 5 [0, 0, 64])) =
    [0, 0, 63] := by decide +kernel
theorem test_eget : (after (.eget 7 5) { regs [(5, 256)] with
    ev := (Vector.replicate 256 0).set 255 7 }).x[7] = 7 := by decide +kernel
theorem test_eget_raises : record (after (.eget 7 5) (regs [(5, 0)])) = (8, 0) := by decide +kernel

/-! ### Witnesses: for each statement with hypotheses, a state and operands that meet them, clause by clause

A witness bears the statement's name; its clauses are in the statement's order. -/

theorem witness_DecodeOfEncodeIsTheCommand :
    (Instr.csrr 15 0x2A).wellFormed = true ∧ (Instr.maddsr .B 15 15 15).wellFormed = true := by decide

theorem witness_DecodedWordIsTheCommandsWord : decode 0x042000FF = .error .unknownCsr ∧
    decode 0x0420002A = .ok (.csrr 2 0x2A) := by decide

theorem witness_StepRunsTheDecodedCommand :
    (∃ (s : State) (w : Word) (i : Instr), s.input = .command w :: [] ∧ decode w = .ok i ∧ s.faulted = false ∧
      i = .fadd 3 1 2) ∧
    (∃ (s : State) (w : Word), s.input = .command w :: [] ∧ decode w = .ok .errack ∧ s.faulted = true) :=
  ⟨⟨State.reset.withFetchWord 32 0x12312000, 0x12312000, .fadd 3 1 2, by decide, by decide, by decide, rfl⟩,
    ⟨(faultedState State.reset).withFetchWord 32 0x06000000, 0x06000000, by decide, by decide, by decide⟩⟩

theorem witness_FaultedDropsOtherWords :
    (∃ (s : State) (w : Word), s.input = .command w :: [] ∧ s.faulted = true ∧ decode w = .ok (.fadd 3 1 2)) ∧
    (∃ (s : State) (w : Word), s.input = .command w :: [] ∧ s.faulted = true ∧
      decode w = .error .unknownCsr) :=
  ⟨⟨(faultedState State.reset).withFetchWord 32 0x12312000, 0x12312000, by decide, by decide, by decide⟩,
    ⟨(faultedState State.reset).withFetchWord 32 0x0450000B, 0x0450000B, by decide, by decide, by decide⟩⟩

theorem witness_IllegalWordRaisesInReady :
    ∃ (s : State) (w : Word), s.input = .command w :: [] ∧ s.faulted = false ∧ decode w = .error .unknownOpcode :=
  ⟨State.reset.withFetchWord 32 0x65000000, 0x65000000, by decide, by decide, by decide⟩

theorem witness_EveryStepAnswersANextState : State.reset.input = [] := rfl

/-- A state that is not the reset state and meets the invariants: a polynomial, a buffer and two banks. -/
def busy : State :=
  banks (buffer (poly (regs [(1, 300), (2, 3)]) 3 5 [5, 7, 11]) 20 4 4 cover) [[1, 2], [3, 4]] [[5], [6]]

theorem busy_inv : Inv busy where
  ready_clear _ := by decide
  faulted_code h := absurd h (by decide)
  k_range := by decide
  n_range := by decide
  payoff_le := by decide
  cursor_le := by decide
  buflen_le := by decide
  cursor_mod := by decide
  ma_ok := .inr (by decide)
  mb_ok := .inr (by decide)
  cv_wf := by decide
  cv_range := by decide

theorem witness_EveryStepKeepsTheInvariants : ∃ s t : State, Inv s ∧ step s = .next t :=
  ⟨busy, busy, busy_inv, rfl⟩

theorem witness_CommandRaisesOrCounts : busy.faulted = false := by decide

theorem witness_FaultedKeepsTheFirstRecord : ∃ s t : State, s.faulted = true ∧ step s = .next t :=
  ⟨(faultedState busy).withFetchWord 32 0, countCommand (faultedState busy), by decide, rfl⟩

/-- Each clause: a command that changes the state the clause is about. -/
theorem witness_StateChangesOnlyByTheNamedCommands :
    (after (.kset 2) (regs [(2, 3)])).k ≠ 0 ∧ (after (.nset 2) { regs [(2, 256)] with k := 2 }).n ≠ 0 ∧
    (after .pshare (poly State.reset 2 2 [255, 1])).corrcnt ≠ 0 ∧
    (after .pshare (poly State.reset 2 2 [255, 1])).cb[0] ≠ 255 ∧
    (after .pshare (poly State.reset 2 2 [255, 1])).ev[0] ≠ 0 ∧
    (after (.ptset 1 2 2) (regs [(2, 3)])).pt[0] ≠ ⟨0, 0⟩ ∧ (after (.mseed 2 2) (regs [(2, 3)])).prseed ≠ 0 ∧
    (after (.mnext 1) (stream State.reset 1234 1)).prrem ≠ 1 ∧
    (after (.bcopen 2 1) (regs [(2, 3)])).buflen ≠ 0 ∧ (after (.embedc 1) (buffer State.reset 8 0 0 [])).cursor ≠ 0 ∧
    (after (.out 2) (regs [(2, 3)])).resp ≠ [] := by decide +kernel

/-- A byte stored below `BUFLEN`; and two memories that differ only in the byte at `BUFLEN`. -/
theorem witness_CoverMemoryBeyondBuflenIsOutOfReach :
    (∃ t : State, exec (.cvst1 3 4) (buffer (regs [(3, 7), (4, 9)]) 8 0 8 [1]) = .next t ∧ t.cv ≠ [(8, 1)]) ∧
    (∃ (s : State) (m : Memory), (∀ a, a < s.buflen.toNat → readByte m a = readByte s.cv a) ∧
      s.buflen.toNat = 8 ∧ readByte m 8 ≠ readByte s.cv 8) := by
  refine ⟨⟨_, rfl, by decide⟩, buffer State.reset 8 0 8 [1], [(8, 2)], fun a ha => ?_, rfl, by decide⟩
  have h8 : (8 : Nat) ≠ a := by
    intro h
    subst h
    exact absurd ha (by decide)
  simp [buffer, writeBytes, Memory.write, readByte, Memory.find, h8]

theorem witness_ErrackClearsTheRecord : ∃ (i : Instr) (s t : State),
    Inv s ∧ s.faulted = false ∧ exec i s = .next t ∧ t.faulted = true :=
  ⟨.fneg 1 1, busy, errorEntry ⟨.domainError, 300⟩ (encode (.fneg 1 1)) busy, busy_inv, by decide, rfl, rfl⟩

theorem witness_KsetAndNsetSetTheParameters :
    (∀ v ∈ [2, 257], ∃ s : State, 2 ≤ s.x[(1 : RegIdx)].toNat ∧ s.x[(1 : RegIdx)].toNat ≤ 257 ∧ readX s 1 = v) ∧
    (∀ v ∈ [1, 258], ∃ s : State, (s.x[(1 : RegIdx)].toNat < 2 ∨ 257 < s.x[(1 : RegIdx)].toNat) ∧ readX s 1 = v) ∧
    (∀ v ∈ [3, 256], ∃ s : State, s.k ≠ 0 ∧ s.k ≤ s.x[(1 : RegIdx)].toNat ∧ s.x[(1 : RegIdx)].toNat ≤ 256 ∧
      readX s 1 = v) ∧
    (∀ v ∈ [2, 257], ∃ s : State,
      (s.k = 0 ∨ s.x[(1 : RegIdx)].toNat < s.k ∨ 256 < s.x[(1 : RegIdx)].toNat) ∧ s.k = 3 ∧ readX s 1 = v) := by
  refine ⟨?_, ?_, ?_, ?_⟩ <;> simp only [List.forall_mem_cons, List.not_mem_nil, false_imp_iff, implies_true, and_true]
  · exact ⟨⟨regs [(1, 2)], by decide⟩, ⟨regs [(1, 257)], by decide⟩⟩
  · exact ⟨⟨regs [(1, 1)], by decide⟩, ⟨regs [(1, 258)], by decide⟩⟩
  · exact ⟨⟨{ regs [(1, 3)] with k := 3 }, by decide⟩, ⟨{ regs [(1, 256)] with k := 3 }, by decide⟩⟩
  · exact ⟨⟨{ regs [(1, 2)] with k := 3 }, by decide⟩, ⟨{ regs [(1, 257)] with k := 3 }, by decide⟩⟩

theorem witness_Li32LoadsTheWholeWord : busy.faulted = false := by decide

/-- For FADD, FMUL and FEQ: both operands the largest field element; the first, then the second just beyond. -/
theorem witness_FaddAddsInTheField :
    (∃ s : State, s.x[(1 : RegIdx)].toNat < 257 ∧ s.x[(2 : RegIdx)].toNat < 257 ∧ readX s 1 = 256 ∧ readX s 2 = 256) ∧
    (∃ s : State, 257 ≤ s.x[(1 : RegIdx)].toNat ∧ readX s 1 = 257) ∧
    (∃ s : State, s.x[(1 : RegIdx)].toNat < 257 ∧ 257 ≤ s.x[(2 : RegIdx)].toNat ∧ readX s 2 = 257) :=
  ⟨⟨regs [(1, 256), (2, 256)], by decide⟩, ⟨regs [(1, 257)], by decide⟩, ⟨regs [(2, 257)], by decide⟩⟩

theorem witness_FmulMultipliesInTheField :
    (∃ s : State, s.x[(1 : RegIdx)].toNat < 257 ∧ s.x[(2 : RegIdx)].toNat < 257 ∧ readX s 1 = 256 ∧ readX s 2 = 256) ∧
    (∃ s : State, 257 ≤ s.x[(1 : RegIdx)].toNat ∧ readX s 1 = 257) ∧
    (∃ s : State, s.x[(1 : RegIdx)].toNat < 257 ∧ 257 ≤ s.x[(2 : RegIdx)].toNat ∧ readX s 2 = 257) :=
  witness_FaddAddsInTheField

theorem witness_FeqComparesFieldElements :
    (∃ s : State, s.x[(1 : RegIdx)].toNat < 257 ∧ s.x[(2 : RegIdx)].toNat < 257 ∧ readX s 1 = 256 ∧ readX s 2 = 256) ∧
    (∃ s : State, 257 ≤ s.x[(1 : RegIdx)].toNat ∧ readX s 1 = 257) ∧
    (∃ s : State, s.x[(1 : RegIdx)].toNat < 257 ∧ 257 ≤ s.x[(2 : RegIdx)].toNat ∧ readX s 2 = 257) :=
  witness_FaddAddsInTheField

theorem witness_FnegNegatesInTheField :
    (∃ s : State, s.x[(1 : RegIdx)].toNat < 257 ∧ readX s 1 = 256) ∧
    (∃ s : State, 257 ≤ s.x[(1 : RegIdx)].toNat ∧ readX s 1 = 257) :=
  ⟨⟨regs [(1, 256)], by decide⟩, ⟨regs [(1, 257)], by decide⟩⟩

theorem witness_FinvWritesTheUniqueInverse :
    (∃ s : State, 0 < s.x[(1 : RegIdx)].toNat ∧ s.x[(1 : RegIdx)].toNat < 257 ∧ readX s 1 = 1) ∧
    (∃ s : State, 0 < s.x[(1 : RegIdx)].toNat ∧ s.x[(1 : RegIdx)].toNat < 257 ∧ readX s 1 = 256) ∧
    (∃ s : State, (s.x[(1 : RegIdx)].toNat = 0 ∨ 257 ≤ s.x[(1 : RegIdx)].toNat) ∧ readX s 1 = 0) ∧
    (∃ s : State, (s.x[(1 : RegIdx)].toNat = 0 ∨ 257 ≤ s.x[(1 : RegIdx)].toNat) ∧ readX s 1 = 257) :=
  ⟨⟨regs [(1, 1)], by decide⟩, ⟨regs [(1, 256)], by decide⟩, ⟨regs [(1, 0)], by decide⟩,
    ⟨regs [(1, 257)], by decide⟩⟩

theorem witness_FieldLawsHold : (256 : Felt) ≠ 0 ∧ State.reset.x[(1 : RegIdx)] = 0 := by decide

theorem witness_MnewConstructsAnUninitialisedMatrix :
    (∃ s : State, 1 ≤ s.x[(1 : RegIdx)].toNat ∧ s.x[(1 : RegIdx)].toNat ≤ s.params.matMaxRows ∧
      1 ≤ s.x[(2 : RegIdx)].toNat ∧ s.x[(2 : RegIdx)].toNat ≤ s.params.matMaxCols ∧
      readX s 1 = 257 ∧ readX s 2 = 514) ∧
    (∃ s : State, s.x[(1 : RegIdx)].toNat = 0) ∧
    (∃ s : State, s.params.matMaxRows < s.x[(1 : RegIdx)].toNat ∧ readX s 1 = 258) ∧
    (∃ s : State, 1 ≤ s.x[(1 : RegIdx)].toNat ∧ s.x[(1 : RegIdx)].toNat ≤ s.params.matMaxRows ∧
      s.x[(2 : RegIdx)].toNat = 0) ∧
    (∃ s : State, 1 ≤ s.x[(1 : RegIdx)].toNat ∧ s.x[(1 : RegIdx)].toNat ≤ s.params.matMaxRows ∧
      s.params.matMaxCols < s.x[(2 : RegIdx)].toNat ∧ readX s 2 = 515) :=
  ⟨⟨regs [(1, 257), (2, 514)], by decide⟩, ⟨State.reset, by decide⟩, ⟨regs [(1, 258)], by decide⟩,
    ⟨regs [(1, 1)], by decide⟩, ⟨regs [(1, 1), (2, 515)], by decide⟩⟩

/-- Bank `MA` of `s` made the 2 by 3 matrix with its last element uninitialised. -/
def partly (s : State) : State :=
  { s with ma := ⟨2, 3, [[some 1, some 2, some 3], [some 4, some 5, none]]⟩ }

theorem partly_bankOk (l : List (RegIdx × Nat)) (h : (regs l).params = Config.defaultParams) :
    BankOk (partly (regs l)).params (bankOf (partly (regs l)) .A) := by
  right
  simp only [partly, bankOf, h]
  decide

theorem witness_MsetAndMgetReachOneElement :
    (∃ s : State, BankOk s.params (bankOf s .A) ∧ s.x[(1 : RegIdx)].toNat < (bankOf s .A).rows ∧
      s.x[(2 : RegIdx)].toNat < (bankOf s .A).cols ∧ s.x[(3 : RegIdx)].toNat < 257 ∧
      (bankOf s .A).elem s.x[(1 : RegIdx)].toNat s.x[(2 : RegIdx)].toNat = none) ∧
    (∃ s : State, s.x[(1 : RegIdx)].toNat < (bankOf s .A).rows ∧ s.x[(2 : RegIdx)].toNat < (bankOf s .A).cols ∧
      (bankOf s .A).elem s.x[(1 : RegIdx)].toNat s.x[(2 : RegIdx)].toNat = some 5) :=
  ⟨⟨partly (regs [(1, 1), (2, 2), (3, 256)]), partly_bankOk _ rfl, by decide⟩,
    ⟨partly (regs [(1, 1), (2, 1)]), by decide⟩⟩

theorem witness_ElementAndRowCommandsCheckInOrder :
    (bankOf State.reset .A).rows = 0 ∧
    (∃ s : State, (bankOf s .A).rows ≠ 0 ∧ (bankOf s .A).rows ≤ s.x[(1 : RegIdx)].toNat ∧ readX s 1 = 2) ∧
    (∃ s : State, s.x[(1 : RegIdx)].toNat < (bankOf s .A).rows ∧ (bankOf s .A).cols ≤ s.x[(2 : RegIdx)].toNat ∧
      readX s 2 = 3) ∧
    (∃ s : State, s.x[(1 : RegIdx)].toNat < (bankOf s .A).rows ∧ (bankOf s .A).rows ≤ s.x[(2 : RegIdx)].toNat ∧
      readX s 2 = 2) ∧
    (∃ s : State, s.x[(1 : RegIdx)].toNat < (bankOf s .A).rows ∧ 257 ≤ s.x[(2 : RegIdx)].toNat ∧
      readX s 2 = 257) ∧
    (∃ s : State, s.x[(1 : RegIdx)].toNat < (bankOf s .A).rows ∧ 257 ≤ s.x[(3 : RegIdx)].toNat ∧
      s.x[(2 : RegIdx)].toNat < (bankOf s .A).cols ∧ s.x[(2 : RegIdx)].toNat < (bankOf s .A).rows) :=
  ⟨by decide, ⟨partly (regs [(1, 2)]), by decide⟩, ⟨partly (regs [(2, 3)]), by decide⟩,
    ⟨partly (regs [(2, 2)]), by decide⟩, ⟨partly (regs [(2, 257)]), by decide⟩,
    ⟨partly (regs [(1, 1), (2, 1), (3, 257)]), by decide⟩⟩

theorem witness_MswapExchangesRows :
    ∃ s : State, BankOk s.params (bankOf s .A) ∧ s.x[(1 : RegIdx)].toNat < (bankOf s .A).rows ∧
      s.x[(2 : RegIdx)].toNat < (bankOf s .A).rows ∧ readX s 1 ≠ readX s 2 :=
  ⟨partly (regs [(1, 1), (2, 0)]), partly_bankOk _ rfl, by decide⟩

theorem witness_MscaleScalesOneRow :
    ∃ s : State, BankOk s.params (bankOf s .A) ∧ s.x[(1 : RegIdx)].toNat < (bankOf s .A).rows ∧
      s.x[(2 : RegIdx)].toNat < 257 ∧
      ∀ c, c < (bankOf s .A).cols → (bankOf s .A).elem s.x[(1 : RegIdx)].toNat c ≠ none :=
  ⟨partly (regs [(1, 0), (2, 256)]), partly_bankOk _ rfl, by decide⟩

theorem witness_MaddsrAddsAScaledRow :
    ∃ s : State, BankOk s.params (bankOf s .A) ∧ s.x[(1 : RegIdx)].toNat < (bankOf s .A).rows ∧
      s.x[(2 : RegIdx)].toNat < (bankOf s .A).rows ∧ s.x[(3 : RegIdx)].toNat < 257 ∧
      (∀ c, c < (bankOf s .A).cols → (bankOf s .A).elem s.x[(1 : RegIdx)].toNat c ≠ none) ∧
      (∀ c, c < (bankOf s .A).cols → (bankOf s .A).elem s.x[(2 : RegIdx)].toNat c ≠ none) ∧
      readX s 1 ≠ readX s 2 :=
  ⟨banks (regs [(1, 0), (2, 1), (3, 256)]) [[1, 2], [3, 4]] [], .inr (by decide), by decide⟩

theorem witness_RowCommandsRefuseUninitialisedElements :
    (∃ (s : State) (c : Nat), BankOk s.params (bankOf s .A) ∧ s.x[(1 : RegIdx)].toNat < (bankOf s .A).rows ∧
      c < (bankOf s .A).cols ∧ (bankOf s .A).elem s.x[(1 : RegIdx)].toNat c = none ∧
      (∀ d, d < c → (bankOf s .A).elem s.x[(1 : RegIdx)].toNat d ≠ none) ∧ s.x[(2 : RegIdx)].toNat < 257 ∧
      s.x[(2 : RegIdx)].toNat < (bankOf s .A).rows ∧ s.x[(3 : RegIdx)].toNat < 257) ∧
    (∃ (s : State) (c : Nat), BankOk s.params (bankOf s .A) ∧ s.x[(1 : RegIdx)].toNat < (bankOf s .A).rows ∧
      c < (bankOf s .A).cols ∧ s.x[(2 : RegIdx)].toNat < (bankOf s .A).rows ∧ s.x[(3 : RegIdx)].toNat < 257 ∧
      (∀ d, d < (bankOf s .A).cols → (bankOf s .A).elem s.x[(1 : RegIdx)].toNat d ≠ none) ∧
      (bankOf s .A).elem s.x[(2 : RegIdx)].toNat c = none ∧
      (∀ d, d < c → (bankOf s .A).elem s.x[(2 : RegIdx)].toNat d ≠ none)) :=
  ⟨⟨partly (regs [(1, 1)]), 2, partly_bankOk _ rfl, by decide⟩,
    ⟨partly (regs [(1, 0), (2, 1), (3, 256)]), 2, partly_bankOk _ rfl, by decide⟩⟩

/-- The widest and the tallest append that fits: 514 columns, 257 rows. -/
theorem witness_AppendsComposeTheTwoBanks :
    (∃ s : State, BankOk s.params (bankOf s .A) ∧ BankOk s.params (bankOf s (otherBank .A)) ∧
      (bankOf s .A).rows ≠ 0 ∧ (bankOf s (otherBank .A)).rows ≠ 0 ∧
      (bankOf s .A).rows = (bankOf s (otherBank .A)).rows ∧
      (bankOf s .A).cols + (bankOf s (otherBank .A)).cols ≤ s.params.matMaxCols ∧
      (bankOf s .A).cols + (bankOf s (otherBank .A)).cols = 514) ∧
    (∃ s : State, BankOk s.params (bankOf s .A) ∧ BankOk s.params (bankOf s (otherBank .A)) ∧
      (bankOf s .A).rows ≠ 0 ∧ (bankOf s (otherBank .A)).rows ≠ 0 ∧
      (bankOf s .A).cols = (bankOf s (otherBank .A)).cols ∧
      (bankOf s .A).rows + (bankOf s (otherBank .A)).rows ≤ s.params.matMaxRows ∧
      (bankOf s .A).rows + (bankOf s (otherBank .A)).rows = 257) :=
  ⟨⟨{ State.reset with ma := ⟨1, 513, [List.replicate 513 none]⟩, mb := ⟨1, 1, [[none]]⟩ },
      .inr (by decide +kernel), .inr (by decide +kernel), by decide⟩,
    ⟨{ State.reset with ma := ⟨256, 1, List.replicate 256 [none]⟩, mb := ⟨1, 1, [[some 1]]⟩ },
      .inr (by decide +kernel), .inr (by decide +kernel), by decide⟩⟩

theorem witness_AppendsRaiseInOrder :
    (bankOf State.reset .A).rows = 0 ∧
    (∃ s : State, (bankOf s .A).rows ≠ 0 ∧ (bankOf s (otherBank .A)).rows = 0) ∧
    (∃ s : State, (bankOf s .A).rows ≠ 0 ∧ (bankOf s (otherBank .A)).rows ≠ 0 ∧
      (bankOf s .A).rows ≠ (bankOf s (otherBank .A)).rows) ∧
    (∃ s : State, (bankOf s .A).rows ≠ 0 ∧ (bankOf s (otherBank .A)).rows ≠ 0 ∧
      (bankOf s .A).cols ≠ (bankOf s (otherBank .A)).cols) ∧
    (∃ s : State, (bankOf s .A).rows ≠ 0 ∧ (bankOf s (otherBank .A)).rows ≠ 0 ∧
      (bankOf s .A).rows = (bankOf s (otherBank .A)).rows ∧
      s.params.matMaxCols < (bankOf s .A).cols + (bankOf s (otherBank .A)).cols) ∧
    (∃ s : State, (bankOf s .A).rows ≠ 0 ∧ (bankOf s (otherBank .A)).rows ≠ 0 ∧
      (bankOf s .A).cols = (bankOf s (otherBank .A)).cols ∧
      s.params.matMaxRows < (bankOf s .A).rows + (bankOf s (otherBank .A)).rows) :=
  ⟨by decide, ⟨partly State.reset, by decide⟩,
    ⟨banks State.reset [[1, 2], [3, 4]] [[5, 6]], by decide⟩, ⟨banks State.reset [[1, 2], [3, 4]] [[5], [6]], by decide⟩,
    ⟨{ State.reset with ma := ⟨1, 514, [List.replicate 514 none]⟩, mb := ⟨1, 1, [[none]]⟩ }, by decide⟩,
    ⟨{ State.reset with ma := ⟨257, 1, List.replicate 257 [none]⟩, mb := ⟨1, 1, [[none]]⟩ }, by decide⟩⟩

/-- Every element of the bank `[[1, 2], [3, 4]]` is initialised. -/
theorem square_allInitialised (s : State) (b : List (List Nat)) :
    AllInitialised (bankOf (banks s [[1, 2], [3, 4]] b) .A) := by
  have key : ∀ r, r < 2 → ∀ c, c < 2 → (bank [[1, 2], [3, 4]]).elem r c ≠ none := by decide
  exact fun r c hr hc => key r hr c hc

theorem witness_MrrefLeavesTheReducedForm :
    (∃ s : State, BankOk s.params (bankOf s .A) ∧ (bankOf s .A).rows ≠ 0 ∧ AllInitialised (bankOf s .A)) ∧
    (∃ (s : State) (pivotCols : List Nat), BankOk s.params (bankOf s .A) ∧ (bankOf s .A).rows ≠ 0 ∧
      AllInitialised (bankOf s .A) ∧ ReducedWith (bankOf s .A) pivotCols) := by
  refine ⟨⟨banks State.reset [[1, 2], [3, 4]] [], .inr (by decide), by decide, square_allInitialised _ _⟩,
    ⟨banks State.reset [[0, 1, 5]] [], [1], .inr (by decide), by decide, ?_, ?_⟩⟩
  · have key : ∀ r, r < 1 → ∀ c, c < 3 → (bank [[0, 1, 5]]).elem r c ≠ none := by decide
    exact fun r c hr hc => key r hr c hc
  · refine ⟨⟨by decide, by decide, by decide, ?_, ?_⟩, ?_⟩
    · intro r c h
      obtain ⟨rfl, rfl⟩ : r = 0 ∧ 1 = c := by simpa [List.getElem?_singleton] using h
      exact ⟨by decide, fun r' h1 h2 => absurd h2 (Nat.not_lt.mpr h1), by decide⟩
    · intro r c h1 h2 _
      exact absurd h2 (Nat.not_lt.mpr h1)
    · intro r c h r' hr'
      obtain ⟨rfl, rfl⟩ : r = 0 ∧ 1 = c := by simpa [List.getElem?_singleton] using h
      exact absurd hr' (Nat.not_lt_zero r')

theorem witness_EliminationKeepsTheSolutions : ∃ s t : State, BankOk s.params (bankOf s .A) ∧
    (bankOf s .A).rows ≠ 0 ∧ AllInitialised (bankOf s .A) ∧ (bankOf s .A).cols = (bankOf s .A).rows ∧
    exec (.mrref .A) s = .next t ∧ ∃ t', exec (.mdet .A 9) s = .next t' :=
  ⟨banks State.reset [[1, 2], [3, 4]] [], _, .inr (by decide), by decide, square_allInitialised _ _, by decide, rfl,
    _, rfl⟩

/-- `[[1, 2], [3, 4]]` has the inverse `[[255, 1], [130, 128]]`; `[[0]]` has none. -/
theorem witness_MinvInvertsOrRaisesSingular :
    (∃ s : State, BankOk s.params (bankOf s .A) ∧ (bankOf s .A).rows = 2 ∧ (bankOf s .A).cols = 2 ∧
      AllInitialised (bankOf s .A) ∧
      ∃ q : Nat → Nat → Felt, ∀ i j, i < 2 → j < 2 →
        (∑ l ∈ Finset.range 2, (q i l).val * (elemValue (bankOf s .A) l j).val) % 257 = if i = j then 1 else 0) ∧
    (∃ s : State, BankOk s.params (bankOf s .A) ∧ (bankOf s .A).rows = 1 ∧ (bankOf s .A).cols = 1 ∧
      AllInitialised (bankOf s .A) ∧
      ¬∃ q : Nat → Nat → Felt, ∀ i j, i < 1 → j < 1 →
        (∑ l ∈ Finset.range 1, (q i l).val * (elemValue (bankOf s .A) l j).val) % 257 = if i = j then 1 else 0) := by
  refine ⟨⟨banks State.reset [[1, 2], [3, 4]] [], .inr (by decide), by decide, by decide, square_allInitialised _ _,
    fun i l => (bank [[255, 1], [130, 128]]).elem i l |>.getD 0, ?_⟩,
    ⟨banks State.reset [[0]] [], .inr (by decide), by decide, by decide, ?_, ?_⟩⟩
  · have key : ∀ i, i < 2 → ∀ j, j < 2 →
        (∑ l ∈ Finset.range 2, (((bank [[255, 1], [130, 128]]).elem i l).getD 0).val *
          (elemValue (bank [[1, 2], [3, 4]]) l j).val) % 257 = if i = j then 1 else 0 := by decide +kernel
    exact fun i j hi hj => key i hi j hj
  · have key : ∀ r, r < 1 → ∀ c, c < 1 → (bank [[0]]).elem r c ≠ none := by decide
    exact fun r c hr hc => key r hr c hc
  · rintro ⟨q, h⟩
    have h0 := h 0 0 (by decide) (by decide)
    have hz : (elemValue (bankOf (banks State.reset [[0]] []) .A) 0 0).val = 0 := by decide
    simp [hz] at h0

theorem witness_MdetComputesTheDeterminant :
    ∃ s : State, BankOk s.params (bankOf s .A) ∧ (bankOf s .A).rows = 2 ∧ (bankOf s .A).cols = 2 ∧
      AllInitialised (bankOf s .A) :=
  ⟨banks State.reset [[1, 2], [3, 4]] [], .inr (by decide), by decide, by decide, square_allInitialised _ _⟩

theorem witness_WholeBankCommandsCheckInOrder :
    (bankOf State.reset .A).rows = 0 ∧
    (∃ s : State, (bankOf s .A).rows ≠ 0 ∧ (bankOf s .A).cols ≠ (bankOf s .A).rows) ∧
    (∃ (s : State) (r c : Nat), BankOk s.params (bankOf s .A) ∧ r < (bankOf s .A).rows ∧ c < (bankOf s .A).cols ∧
      (bankOf s .A).elem r c = none ∧ (bankOf s .A).cols = (bankOf s .A).rows ∧
      ∀ r' c', r' < (bankOf s .A).rows → c' < (bankOf s .A).cols → (bankOf s .A).elem r' c' = none →
        r * (bankOf s .A).cols + c ≤ r' * (bankOf s .A).cols + c') := by
  refine ⟨by decide, ⟨partly State.reset, by decide⟩,
    ⟨{ State.reset with ma := ⟨2, 2, [[some 1, none], [none, some 2]]⟩ }, 0, 1, .inr (by decide), by decide, by decide,
      by decide, by decide, ?_⟩⟩
  have key : ∀ r, r < 2 → ∀ c, c < 2 →
      (⟨2, 2, [[some 1, none], [none, some 2]]⟩ : Bank).elem r c = none → 0 * 2 + 1 ≤ r * 2 + c := by decide
  exact fun r c hr hc => key r hr c hc

theorem witness_PtsetWritesOnePoint :
    (∃ s : State, s.x[(1 : RegIdx)].toNat < 257 ∧ s.x[(2 : RegIdx)].toNat < 257 ∧ s.x[(3 : RegIdx)].toNat < 257 ∧
      readX s 1 = 256 ∧ readX s 2 = 256 ∧ readX s 3 = 256) ∧
    (∃ s : State, 257 ≤ s.x[(1 : RegIdx)].toNat ∧ readX s 1 = 257) ∧
    (∃ s : State, s.x[(1 : RegIdx)].toNat < 257 ∧ 257 ≤ s.x[(2 : RegIdx)].toNat ∧ readX s 2 = 257) ∧
    (∃ s : State, s.x[(1 : RegIdx)].toNat < 257 ∧ s.x[(2 : RegIdx)].toNat < 257 ∧
      257 ≤ s.x[(3 : RegIdx)].toNat ∧ readX s 3 = 257) :=
  ⟨⟨regs [(1, 256), (2, 256), (3, 256)], by decide⟩, ⟨regs [(1, 257)], by decide⟩, ⟨regs [(2, 257)], by decide⟩,
    ⟨regs [(3, 257)], by decide⟩⟩

theorem witness_MvandBuildsTheVandermondeGrid :
    (∃ s : State, s.k ≠ 0 ∧ s.k ≤ 257 ∧ s.k = 257) ∧ State.reset.k = 0 :=
  ⟨⟨{ State.reset with k := 257 }, by decide⟩, rfl⟩

/-- What holds of the entries 0 and 1 holds of every entry below 2. -/
theorem below_two {P : Fin 257 → Prop} (h0 : P 0) (h1 : P 1) (i : Fin 257) (hi : i.val < 2) : P i := by
  obtain ⟨i, _⟩ := i
  interval_cases i
  · exact h0
  · exact h1

/-- Two points with different x-values are pairwise distinct. -/
theorem two_points_distinct {pt : Vector Point 257} (h : pt[(0 : Fin 257)].x ≠ pt[(1 : Fin 257)].x) (i j : Fin 257)
    (hi : i.val < 2) (hj : j.val < 2) (hij : i ≠ j) : pt[i].x ≠ pt[j].x := by
  obtain ⟨i, _⟩ := i
  obtain ⟨j, _⟩ := j
  have hne : i ≠ j := fun h => hij (by simp [h])
  interval_cases i <;> interval_cases j
  · exact absurd rfl hne
  · exact h
  · exact h.symm
  · exact absurd rfl hne

/-- Distinct x-values, `x = 0` among them; two equal x-values with different y; `K = 0`. -/
theorem witness_IsolveInterpolatesIffDistinct :
    (∃ s : State, s.k ≠ 0 ∧ s.k ≤ 257 ∧
      ∀ i j : Fin 257, i.val < s.k → j.val < s.k → i ≠ j → s.pt[i].x ≠ s.pt[j].x) ∧
    (∃ s : State, s.k ≤ 257 ∧ ∃ i j : Fin 257, i.val < s.k ∧ j.val < s.k ∧ i ≠ j ∧ s.pt[i].x = s.pt[j].x) ∧
    State.reset.k = 0 :=
  ⟨⟨pointSet State.reset 2 [(0, 5), (256, 255)], by decide, by decide, two_points_distinct (by decide +kernel)⟩,
    ⟨pointSet State.reset 3 [(1, 23), (2, 63), (2, 64)], by decide, 1, 2, by decide +kernel⟩, rfl⟩

/-- The polynomial 5 + 7x with its values at 0 and 256 (95, 2.4); the block [255, 1] for two shadows, which PSHARE
corrects twice, with its two points (95, 2.7). -/
theorem witness_InterpolationRoundTrip :
    (∃ s : State, s.k ≠ 0 ∧ s.k ≤ 257 ∧
      (∀ i j : Fin 257, i.val < s.k → j.val < s.k → i ≠ j → s.pt[i].x ≠ s.pt[j].x) ∧
      (∀ i : Fin 257, i.val < s.k → s.pt[i].y.val = polyValue (s.cb.toList.take s.k) s.pt[i].x.val) ∧ s.k = 2) ∧
    (∃ (s t : State) (points' : Vector Point 257), s.k ≠ 0 ∧ s.k ≤ 257 ∧ s.n ≠ 0 ∧ s.n ≤ 256 ∧
      (∀ i : Fin 257, i.val < s.k → s.cb[i].val ≤ 255) ∧ exec .pshare s = .next t ∧
      (∀ i : Fin 257, i.val < s.k → ∃ j : Fin 256, j.val < s.n ∧
        points'[i].x.val = j.val + 1 ∧ points'[i].y.val = t.ev[j].toNat) ∧
      (∀ i j : Fin 257, i.val < s.k → j.val < s.k → i ≠ j → points'[i].x ≠ points'[j].x) ∧
      s.k = 2 ∧ t.corrcnt = 2) := by
  refine ⟨⟨pointSet (poly State.reset 2 0 [5, 7]) 2 [(0, 5), (256, 255)], by decide, by decide,
      two_points_distinct (by decide +kernel), ?_, by decide⟩,
    ⟨poly State.reset 2 2 [255, 1], _, (pointSet State.reset 2 [(1, 254), (2, 255)]).pt, by decide, by decide,
      by decide, by decide, ?_, rfl, ?_, two_points_distinct (by decide +kernel), by decide, by decide +kernel⟩⟩
  · exact below_two (by decide +kernel) (by decide +kernel)
  · exact below_two (by decide +kernel) (by decide +kernel)
  · exact below_two ⟨0, by decide +kernel⟩ ⟨1, by decide +kernel⟩

theorem witness_MseedStartsAStream :
    (∃ s : State, s.x[(1 : RegIdx)].toNat ≤ 65535 ∧ readX s 1 = 65535) ∧
    (∃ s : State, 65535 < s.x[(1 : RegIdx)].toNat ∧ readX s 1 = 65536) ∧
    State.reset.params.maskGen = .lcg16 :=
  ⟨⟨regs [(1, 65535)], by decide⟩, ⟨regs [(1, 65536)], by decide⟩, rfl⟩

theorem witness_MaskByteCommandsTakeOneByte :
    (∃ s : State, s.prrem ≠ 0 ∧ s.x[(1 : RegIdx)].toNat ≤ 255 ∧ s.prrem = 1 ∧ readX s 1 = 255) ∧
    (∃ s : State, s.prrem = 0 ∧ s.x[(1 : RegIdx)].toNat ≤ 255 ∧ readX s 1 = 255) ∧
    (∃ s : State, 255 < s.x[(1 : RegIdx)].toNat ∧ readX s 1 = 256) :=
  ⟨⟨stream (regs [(1, 255)]) 0 1, by decide⟩, ⟨regs [(1, 255)], by decide⟩, ⟨regs [(1, 256)], by decide⟩⟩

/-- Every coefficient of the reset state is a byte. -/
theorem zero_coefficients (s : State) (h : s.cb = State.reset.cb) (i : Fin 257) : s.cb[i].val ≤ 255 := by
  simp [h, State.reset, State.resetWith]

theorem witness_MxorbMasksTheBlock :
    (∃ s : State, s.k ≤ 257 ∧ s.k ≠ 0 ∧ (∀ i : Fin 257, i.val < s.k → s.cb[i].val ≤ 255) ∧
      s.k ≤ s.prrem.toNat ∧ s.k = 257 ∧ s.prrem = 257) ∧
    State.reset.k = 0 ∧
    (∃ (s : State) (i : Fin 257), s.k ≤ 257 ∧ i.val < s.k ∧ 255 < s.cb[i].val ∧
      ∀ j : Fin 257, j < i → s.cb[j].val ≤ 255) ∧
    (∃ s : State, s.k ≤ 257 ∧ s.k ≠ 0 ∧ (∀ i : Fin 257, i.val < s.k → s.cb[i].val ≤ 255) ∧
      s.prrem.toNat < s.k ∧ s.prrem = 256) :=
  ⟨⟨stream { State.reset with k := 257 } 1 257, by decide, by decide,
      fun i _ => zero_coefficients _ rfl i, by decide⟩, rfl,
    ⟨poly State.reset 2 0 [255, 256], 1, by decide, by decide, by decide +kernel,
      fun j hj => by obtain rfl : j = 0 := (by simpa using hj); decide +kernel⟩,
    ⟨stream { State.reset with k := 257 } 1 256, by decide, by decide,
      fun i _ => zero_coefficients _ rfl i, by decide⟩⟩

theorem witness_UnmaskingUndoesMasking :
    ∃ s t : State, 1 ≤ s.k ∧ s.k ≤ 257 ∧ (∀ i : Fin 257, i.val < s.k → s.cb[i].val ≤ 255) ∧
      s.k ≤ s.prrem.toNat ∧ exec .mxorb s = .next t :=
  ⟨stream { State.reset with k := 2 } 1 2, _, by decide, by decide, fun i _ => zero_coefficients _ rfl i,
    by decide, rfl⟩

theorem witness_BcopenDeclaresTheBuffer :
    (∃ s : State, s.x[(1 : RegIdx)].toNat ≤ s.params.coverMemBytes ∧ s.x[(2 : RegIdx)].toNat ≤ s.x[(1 : RegIdx)].toNat ∧
      readX s 1 = 16777216 ∧ readX s 2 = 16777216) ∧
    (∃ s : State, s.params.coverMemBytes < s.x[(1 : RegIdx)].toNat ∧ readX s 1 = 16777217) ∧
    (∃ s : State, s.x[(1 : RegIdx)].toNat ≤ s.params.coverMemBytes ∧ s.x[(1 : RegIdx)].toNat < s.x[(2 : RegIdx)].toNat ∧
      readX s 1 = 10 ∧ readX s 2 = 11) :=
  ⟨⟨regs [(1, 16777216), (2, 16777216)], by decide⟩, ⟨regs [(1, 16777217)], by decide⟩,
    ⟨regs [(1, 10), (2, 11)], by decide⟩⟩

/-- For each width of a store and a load: the last address that fits the buffer of 64 bytes, and the first that
does not. -/
theorem witness_StoresWriteLittleEndian :
    ∀ n ∈ [1, 2, 4], (∃ s : State, s.x[(3 : RegIdx)].toNat + n ≤ s.buflen.toNat ∧
        s.x[(3 : RegIdx)].toNat + n = 64) ∧
      (∃ s : State, s.buflen.toNat < s.x[(3 : RegIdx)].toNat + n ∧ s.x[(3 : RegIdx)].toNat + n = 65 ∧
        s.buflen = 64) := by
  simp only [List.forall_mem_cons, List.not_mem_nil, false_imp_iff, implies_true, and_true]
  exact ⟨⟨⟨buffer (regs [(3, 63)]) 64 0 0 [], by decide⟩, ⟨buffer (regs [(3, 64)]) 64 0 0 [], by decide⟩⟩,
    ⟨⟨buffer (regs [(3, 62)]) 64 0 0 [], by decide⟩, ⟨buffer (regs [(3, 63)]) 64 0 0 [], by decide⟩⟩,
    ⟨⟨buffer (regs [(3, 60)]) 64 0 0 [], by decide⟩, ⟨buffer (regs [(3, 61)]) 64 0 0 [], by decide⟩⟩⟩

theorem witness_LoadsReadLittleEndian :
    ∀ n ∈ [1, 2, 4], (∃ s : State, s.x[(3 : RegIdx)].toNat + n ≤ s.buflen.toNat ∧
        s.x[(3 : RegIdx)].toNat + n = 64) ∧
      (∃ s : State, s.buflen.toNat < s.x[(3 : RegIdx)].toNat + n ∧ s.x[(3 : RegIdx)].toNat + n = 65 ∧
        s.buflen = 64) :=
  witness_StoresWriteLittleEndian

theorem witness_StoreThenLoadReturnsTheStoredBytes :
    ∀ n ∈ [1, 2, 4], ∃ s : State, s.x[(3 : RegIdx)].toNat + n ≤ s.buflen.toNat ∧ s.x[(3 : RegIdx)].toNat + n = 64 :=
  fun n hn => (witness_StoresWriteLittleEndian n hn).1

theorem witness_EmbedWritesAndExtractReadsEightBytes :
    (∃ s : State, s.x[(4 : RegIdx)].toNat ≤ 255 ∧ s.x[(3 : RegIdx)].toNat + 8 ≤ s.buflen.toNat ∧
      readX s 4 = 255 ∧ readX s 3 = 56 ∧ s.buflen = 64) ∧
    (∃ s : State, 255 < s.x[(4 : RegIdx)].toNat ∧ readX s 4 = 256) ∧
    (∃ s : State, s.x[(4 : RegIdx)].toNat ≤ 255 ∧ s.buflen.toNat < s.x[(3 : RegIdx)].toNat + 8 ∧
      readX s 3 = 57 ∧ s.buflen = 64) :=
  ⟨⟨buffer (regs [(3, 56), (4, 255)]) 64 0 0 [], by decide⟩, ⟨regs [(4, 256)], by decide⟩,
    ⟨buffer (regs [(3, 57), (4, 255)]) 64 0 0 [], by decide⟩⟩

theorem witness_CursorFormsAdvanceByEight :
    (∃ s : State, s.x[(4 : RegIdx)].toNat ≤ 255 ∧ s.cursor.toNat + 8 ≤ s.buflen.toNat ∧ s.cursor = 12 ∧
      s.buflen = 20) ∧
    (∃ s : State, 255 < s.x[(4 : RegIdx)].toNat ∧ readX s 4 = 256) ∧
    (∃ s : State, s.x[(4 : RegIdx)].toNat ≤ 255 ∧ s.buflen.toNat < s.cursor.toNat + 8 ∧ s.cursor = 13 ∧
      s.buflen = 20) :=
  ⟨⟨buffer (regs [(4, 255)]) 20 12 0 [], by decide⟩, ⟨regs [(4, 256)], by decide⟩,
    ⟨buffer (regs [(4, 255)]) 20 13 0 [], by decide⟩⟩

theorem witness_EmbedThenExtractReturnsTheValue :
    ∃ s : State, s.x[(4 : RegIdx)].toNat ≤ 255 ∧ s.x[(3 : RegIdx)].toNat + 8 ≤ s.buflen.toNat ∧ readX s 4 = 255 :=
  ⟨buffer (regs [(3, 56), (4, 255)]) 64 0 0 [], by decide⟩

/-- A buffer with room for two, and both taken by a mixture, the EMBEDC of the largest byte. -/
theorem witness_CapacityCountsTheCursorCommands :
    ∃ (s : State) (commands : List Instr), s.faulted = false ∧ s.cursor = s.payoff ∧
      s.payoff.toNat ≤ s.buflen.toNat ∧ (∀ i ∈ commands, CursorCommand s i) ∧
      commands.length ≤ (s.buflen.toNat - s.payoff.toNat) / 8 ∧
      commands.length = (s.buflen.toNat - s.payoff.toNat) / 8 ∧ commands = [.embedc 4, .extractc 9] := by
  refine ⟨buffer (regs [(4, 255)]) 27 4 0 [], [.embedc 4, .extractc 9], by decide, by decide, by decide, ?_, by decide,
    by decide, rfl⟩
  simp only [List.forall_mem_cons, List.not_mem_nil, false_imp_iff, implies_true, and_true, CursorCommand]
  decide

/-- After both, either kind of cursor command raises (95, 2.6). -/
theorem test_cursor_commands_at_the_end :
    record (after (.extractc 9) (buffer (regs [(4, 255)]) 27 20 0 [])) = (12, 20) ∧
    record (after (.embedc 4) (buffer (regs [(4, 255)]) 27 20 0 [])) = (5, 20) ∧
    record (after (.embedc 4) (buffer (regs [(4, 256)]) 27 20 0 [])) = (10, 256) := by decide +kernel

theorem witness_BufferEntriesAreWrittenAndRead :
    (∃ s : State, s.x[(1 : RegIdx)].toNat < 257 ∧ s.x[(2 : RegIdx)].toNat < 257 ∧ readX s 1 = 256 ∧ readX s 2 = 256) ∧
    (∃ s : State, 257 ≤ s.x[(1 : RegIdx)].toNat ∧ readX s 1 = 257) ∧
    (∃ s : State, s.x[(1 : RegIdx)].toNat < 257 ∧ 257 ≤ s.x[(2 : RegIdx)].toNat ∧ readX s 2 = 257) ∧
    (∃ (s : State) (i : Fin 257), i.val = s.x[(1 : RegIdx)].toNat ∧ i = 256) ∧
    (∃ (s : State) (i : Fin 256), s.x[(1 : RegIdx)].toNat = i.val + 1 ∧ i = 0) ∧
    (∃ (s : State) (i : Fin 256), s.x[(1 : RegIdx)].toNat = i.val + 1 ∧ i = 255) ∧
    (∃ s : State, (s.x[(1 : RegIdx)].toNat = 0 ∨ 256 < s.x[(1 : RegIdx)].toNat) ∧ readX s 1 = 0) ∧
    (∃ s : State, (s.x[(1 : RegIdx)].toNat = 0 ∨ 256 < s.x[(1 : RegIdx)].toNat) ∧ readX s 1 = 257) :=
  ⟨⟨regs [(1, 256), (2, 256)], by decide⟩, ⟨regs [(1, 257)], by decide⟩, ⟨regs [(2, 257)], by decide⟩,
    ⟨regs [(1, 256)], 256, by decide⟩, ⟨regs [(1, 1)], 0, by decide⟩, ⟨regs [(1, 256)], 255, by decide⟩,
    ⟨State.reset, by decide⟩, ⟨regs [(1, 257)], by decide⟩⟩

theorem witness_PevalEvaluatesThePolynomial :
    (∃ s : State, s.k ≤ 257 ∧ s.k ≠ 0 ∧ s.x[(1 : RegIdx)].toNat < 257 ∧ s.k = 257 ∧ readX s 1 = 256) ∧
    State.reset.k = 0 ∧
    (∃ s : State, s.k ≤ 257 ∧ s.k ≠ 0 ∧ 257 ≤ s.x[(1 : RegIdx)].toNat ∧ readX s 1 = 257) :=
  ⟨⟨{ regs [(1, 256)] with k := 257 }, by decide⟩, rfl, ⟨{ regs [(1, 257)] with k := 2 }, by decide⟩⟩

theorem witness_PshareAvoidsOverflow :
    ((∀ z ∈ [(0 : Felt), 0], z = 0) ∧ (64 : Felt) ≠ 0) ∧
    (∃ s : State, s.k ≤ 257 ∧ s.n ≤ 256 ∧ s.n ≠ 0 ∧ (∀ i : Fin 257, i.val < s.k → s.cb[i].val ≤ 255) ∧
      s.n = 256) ∧
    State.reset.n = 0 ∧
    (∃ (s : State) (i : Fin 257), s.k ≤ 257 ∧ s.n ≤ 256 ∧ s.n ≠ 0 ∧ i.val < s.k ∧ 255 < s.cb[i].val ∧
      ∀ j : Fin 257, j < i → s.cb[j].val ≤ 255) :=
  ⟨by decide +kernel, ⟨{ State.reset with k := 2, n := 256 }, by decide, by decide, by decide,
      fun i _ => zero_coefficients _ rfl i, by decide⟩, rfl,
    ⟨poly State.reset 2 2 [255, 256], 1, by decide, by decide, by decide, by decide, by decide +kernel,
      fun j hj => by obtain rfl : j = 0 := (by simpa using hj); decide +kernel⟩⟩

end Sys2Proof.Tests
end

