-- ==== Sys2Proof/Proofs/Slice0/Scope.lean ====
section
/-!
SUPPORT. The step as a whole (00_scope.md, 40_control.md): which command a step runs, and that it always answers
a next state.
-/

namespace Sys2Proof.Proofs

open Sys2Proof Sys2Proof.Machine

/-! ### What a step does, by the next input of the host -/

/-- With nothing handed over the block waits, all state kept (R255, R262). -/
theorem step_of_no_input {s : State} (h : s.input = []) : step s = .next s := by
  simp only [step, h]

/-- A command word is taken from the inputs and executed on the state that is left (R5). -/
theorem step_of_command {s : State} {w : Word} {rest : List HostInput} (h : s.input = .command w :: rest) :
    step s = executeWord w { s with input := rest } := by
  simp only [step, h, takeInput]

/-! ### The filter of FAULTED (R242) -/

/-- The commands the filter lets through are the five R242 names. -/
theorem passesFilter_iff {i : Instr} :
    passesFilter i = true ↔
      i = .nop ∨ (∃ rd csr, i = .csrr rd csr) ∨ (∃ ra, i = .out ra) ∨ i = .errack ∨ i = .srst := by
  cases i <;> simp [passesFilter]

/-- A word that decodes is the meaning of its command, unless FAULTED drops it (R90, R242). -/
theorem executeWord_of_decode {w : Word} {i : Instr} {s : State} (hd : decode w = .ok i)
    (hp : s.faulted = false ∨ passesFilter i = true) : executeWord w s = exec i s := by
  rcases hp with hready | hpass
  · simp [executeWord, hd, hready]
  · simp [executeWord, hd, hpass]

/-! ### Every meaning, and so every step, answers a next state -/

/-- The one shape of a command's meaning (R90): but for SRST, which does not count itself (R87), it is a rule
that completes or raises, ended by `finish` with the command's own word. -/
theorem exec_eq_finish (i : Instr) (s : State) (hi : i ≠ .srst) :
    ∃ r, exec i s = finish (encode i) s r := by
  cases i with
  | srst => exact absurd rfl hi
  | nop | li | lih | mov | out | errack | fzero | fone => exact ⟨.ok _, rfl⟩ -- these have no check to fail
  | _ => exact ⟨_, rfl⟩

/-- A command has an outcome in every state (R5, R264). -/
theorem exec_next (i : Instr) (s : State) : ∃ t, exec i s = .next t := by
  by_cases hi : i = .srst
  · subst hi
    exact ⟨softReset s, rfl⟩
  · obtain ⟨r, hr⟩ := exec_eq_finish i s hi
    rw [hr]
    exact finish_next (encode i) s r

/-- So has a command word, legal or not. -/
theorem executeWord_next (w : Word) (s : State) : ∃ t, executeWord w s = .next t := by
  obtain ⟨-, hdropped⟩ | ⟨i, -, -, hexec⟩ | ⟨-, -, hillegal⟩ := executeWord_cases (w := w) (s := s) rfl
  · exact ⟨_, hdropped⟩
  · rw [hexec]
    exact exec_next i s
  · exact ⟨_, hillegal⟩

/-- So has a step, whatever the host did. -/
theorem step_next (s : State) : ∃ t, step s = .next t := by
  obtain ⟨-, hwait⟩ | ⟨w, rest, -, hword⟩ | ⟨rest, -, hreset⟩ := step_cases (s := s) rfl
  · exact ⟨_, hwait⟩
  · rw [hword]
    exact executeWord_next w _
  · exact ⟨_, hreset⟩

/-! ### The statements -/

/-- Settles O5: the five commands the statement names are those the filter lets through. -/
theorem stepRunsTheDecodedCommand : Obligations.StepRunsTheDecodedCommand := by
  intro s w rest i hinput hdecode hruns
  rw [step_of_command hinput]
  exact executeWord_of_decode hdecode (hruns.imp_right passesFilter_iff.2)

/-- Settles O10, from the shape every command's meaning has. -/
theorem everyStepAnswersANextState : Obligations.EveryStepAnswersANextState :=
  fun s => ⟨step_next s, step_of_no_input⟩

end Sys2Proof.Proofs
end

/-!
SUPPORT. Rectangular tables: the operations on a matrix bank and on a grid keep their dimensions (R16, R129).
-/

namespace Sys2Proof.Proofs

open Sys2Proof Sys2Proof.Machine Sys2Proof.Safety

/-! ### Rectangular tables -/

/-- A table of `rows` rows, each of `cols` elements. -/
def Rect {α : Type} (rows cols : Nat) (g : List (List α)) : Prop :=
  g.length = rows ∧ ∀ row ∈ g, row.length = cols

namespace Rect

variable {α β : Type} {rows cols : Nat} {g : List (List α)}

theorem getD_length (h : Rect rows cols g) {r : Nat} (hr : r < rows) : (g.getD r []).length = cols := by
  obtain ⟨hlen, hrow⟩ := h
  rw [List.getD_eq_getElem _ _ (hlen ▸ hr)]
  exact hrow _ (List.getElem_mem _)

theorem set (h : Rect rows cols g) (r : Nat) {row : List α} (hrow : row.length = cols) :
    Rect rows cols (g.set r row) := by
  refine ⟨by simpa using h.1, fun row' hmem => ?_⟩
  rcases List.mem_or_eq_of_mem_set hmem with hold | rfl
  · exact h.2 row' hold
  · exact hrow

theorem swapRows (h : Rect rows cols g) {i j : Nat} (hi : i < rows) (hj : j < rows) :
    Rect rows cols (swapRows g i j) :=
  (h.set i (h.getD_length hj)).set j (h.getD_length hi)

theorem map (h : Rect rows cols g) {f : List α → List β} {cols' : Nat}
    (hf : ∀ row, row.length = cols → (f row).length = cols') : Rect rows cols' (g.map f) := by
  refine ⟨by simpa using h.1, fun row' hmem => ?_⟩
  obtain ⟨row, hrow, rfl⟩ := List.mem_map.1 hmem
  exact hf row (h.2 row hrow)

theorem of_map_some {g : Grid} (h : Rect rows cols (g.map fun row => row.map some)) : Rect rows cols g := by
  refine ⟨by simpa using h.1, fun row hrow => ?_⟩
  simpa using h.2 _ (List.mem_map_of_mem hrow)

theorem replicate (rows cols : Nat) (a : α) : Rect rows cols (List.replicate rows (List.replicate cols a)) := by
  refine ⟨by simp, fun row hrow => ?_⟩
  rw [List.eq_of_mem_replicate hrow, List.length_replicate]

/-- Two tables of the same height side by side (R127). -/
theorem beside {o : List (List α)} {cols' : Nat} (h : Rect rows cols g) (ho : Rect rows cols' o) :
    Rect rows (cols + cols') (List.zipWith (· ++ ·) g o) := by
  refine ⟨by simp [h.1, ho.1], fun row hrow => ?_⟩
  obtain ⟨r, hr, rfl⟩ := List.getElem_of_mem hrow
  rw [List.getElem_zipWith, List.length_append, h.2 _ (List.getElem_mem _), ho.2 _ (List.getElem_mem _)]

/-- Two tables of the same width one below the other (R128). -/
theorem below {o : List (List α)} {rows' : Nat} (h : Rect rows cols g) (ho : Rect rows' cols o) :
    Rect (rows + rows') cols (g ++ o) := by
  refine ⟨by simp [h.1, ho.1], fun row hrow => ?_⟩
  exact (List.mem_append.1 hrow).elim (h.2 row) (ho.2 row)

end Rect

/-! ### Elimination keeps the dimensions (R129) -/

theorem eliminate_rect {rows cols : Nat} {g : Grid} (h : Rect rows cols g) (sel : Nat → Bool)
    {pivotRow : List Felt} (hp : pivotRow.length = cols) (col first : Nat) :
    Rect rows cols (eliminate sel pivotRow col first g) := by
  refine ⟨by simpa using h.1, fun row' hmem => ?_⟩
  obtain ⟨r, hr, rfl⟩ := List.getElem_of_mem hmem
  rw [eliminate_length] at hr
  have hrow : g[r].length = cols := h.2 _ (List.getElem_mem hr)
  rw [eliminate_getElem _ _ _ _ _ _ hr]
  split
  · simp [hrow, hp]
  · exact hrow

/-- What the forward pass keeps: the grid's dimensions, and that every pivot found is in one of its rows. -/
def ElimRect (rows cols : Nat) (e : Elim) : Prop :=
  Rect rows cols e.grid ∧ ∀ pivot ∈ e.pivots, pivot.1 < rows

theorem pivotOn_rect {rows cols : Nat} {e : Elim} (h : ElimRect rows cols e) {col q : Nat}
    (hp : e.p < rows) (hq : q < rows) : ElimRect rows cols (pivotOn e col q) := by
  obtain ⟨hgrid, hpivots⟩ := h
  have hswapped : Rect rows cols (if q = e.p then e.grid else swapRows e.grid q e.p) := by
    split
    · exact hgrid
    · exact hgrid.swapRows hq hp
  have hrow : ∀ f, (scaleRow f (gridRow (if q = e.p then e.grid else swapRows e.grid q e.p) e.p)).length = cols :=
    fun f => (scaleRow_length f _).trans (hswapped.getD_length hp)
  refine ⟨eliminate_rect (hswapped.set _ (hrow _)) _ (hrow _) _ _, fun pivot hmem => ?_⟩
  exact (List.mem_cons.1 hmem).elim (· ▸ hp) (hpivots pivot)

theorem forwardFrom_rect {rows cols : Nat} (columns : List Nat) {e : Elim} (h : ElimRect rows cols e) :
    ElimRect rows cols (forwardFrom rows columns e) := by
  induction columns generalizing e with
  | nil => exact h
  | cons col rest ih =>
    unfold forwardFrom
    split
    · exact h
    · split
      · exact ih h
      next q hq =>
        obtain ⟨hpq, hqr, -⟩ := findPivot_some.1 hq
        exact ih (pivotOn_rect h (by omega) hqr)

theorem forward_rect {rows cols : Nat} {g : Grid} (h : Rect rows cols g) (columns : Nat) :
    ElimRect rows cols (forward g rows columns) :=
  forwardFrom_rect _ ⟨h, by simp⟩

theorem backward_rect {rows cols : Nat} (pivots : List (Nat × Nat)) {g : Grid} (h : Rect rows cols g)
    (hp : ∀ pivot ∈ pivots, pivot.1 < rows) : Rect rows cols (backward pivots g) := by
  induction pivots generalizing g with
  | nil => exact h
  | cons pivot rest ih =>
    obtain ⟨hpivot, hrest⟩ := List.forall_mem_cons.1 hp
    exact ih (eliminate_rect h _ (h.getD_length hpivot) _ _) hrest

theorem reduce_rect {rows cols : Nat} {g : Grid} (h : Rect rows cols g) (columns : Nat) :
    Rect rows cols (reduce g rows columns) :=
  have ⟨hgrid, hpivots⟩ := forward_rect h columns
  backward_rect _ hgrid hpivots

theorem augmentIdentity_rect {rows cols : Nat} (n first : Nat) {g : Grid} (h : Rect rows cols g) :
    Rect rows (cols + n) (augmentIdentity n first g) := by
  induction g generalizing rows first with
  | nil => exact ⟨h.1, by simp [augmentIdentity]⟩
  | cons row rest ih =>
    obtain ⟨hlen, hrows⟩ := h
    obtain ⟨hrow, hrest⟩ := List.forall_mem_cons.1 hrows
    obtain ⟨hlen', hrest'⟩ := ih (first + 1) ⟨rfl, hrest⟩
    refine ⟨by simpa [augmentIdentity, hlen'] using hlen, List.forall_mem_cons.2 ⟨by simp [hrow], hrest'⟩⟩

theorem vand_rect {s : State} (h : s.k ≤ 257) : Rect s.k (s.k + 1) (vand s.k (points s)) := by
  refine ⟨by simp [vand, points_length h], fun row hmem => ?_⟩
  obtain ⟨pt, -, rfl⟩ := List.mem_map.1 hmem
  exact vandRow_length _ _

end Sys2Proof.Proofs

namespace Sys2Proof.Safety

open Sys2Proof Sys2Proof.Machine Sys2Proof.Proofs

/-! ### Banks within the limits (R16) -/

theorem BankOk.rect {p : Config.Params} {m : Bank} (h : BankOk p m) : Rect m.rows m.cols m.cells := by
  obtain ⟨hr, -, hcells⟩ | ⟨-, -, -, -, hlen, hrow⟩ := h
  · exact ⟨by simp [hr, hcells], by simp [hcells]⟩
  · exact ⟨hlen, hrow⟩

/-- The limits of R16 on the dimensions of a constructed matrix. -/
def DimsOk (p : Config.Params) (rows cols : Nat) : Prop :=
  1 ≤ rows ∧ rows ≤ p.matMaxRows ∧ 1 ≤ cols ∧ cols ≤ p.matMaxCols

theorem BankOk.dims {p : Config.Params} {m : Bank} (h : BankOk p m) (hr : m.rows ≠ 0) :
    DimsOk p m.rows m.cols := by
  obtain ⟨h0, -⟩ | ⟨h1, h2, h3, h4, -⟩ := h
  · exact absurd h0 hr
  · exact ⟨h1, h2, h3, h4⟩

theorem BankOk.of_rect {p : Config.Params} {m : Bank} (hd : DimsOk p m.rows m.cols)
    (h : Rect m.rows m.cols m.cells) : BankOk p m := by
  obtain ⟨h1, h2, h3, h4⟩ := hd
  exact .inr ⟨h1, h2, h3, h4, h⟩

theorem BankOk.ofGrid {p : Config.Params} {rows cols : Nat} {g : Grid} (hd : DimsOk p rows cols)
    (h : Rect rows cols g) : BankOk p (Bank.ofGrid rows cols g) :=
  .of_rect (m := Bank.ofGrid rows cols g) hd (h.map fun _ hrow => (List.length_map _).trans hrow)

theorem BankOk.unconstructed (p : Config.Params) : BankOk p Bank.unconstructed := .inl ⟨rfl, rfl, rfl⟩

/-- Replacing a row by one as long keeps a constructed bank in form. -/
theorem BankOk.setRow {p : Config.Params} {m : Bank} (h : BankOk p m) (hm : m.rows ≠ 0) (r : Nat)
    {row : List (Option Felt)} (hrow : row.length = m.cols) : BankOk p (m.setRow r row) :=
  .of_rect (m := m.setRow r row) (h.dims hm) (h.rect.set r hrow)

theorem BankOk.row_length {p : Config.Params} {m : Bank} (h : BankOk p m) {r : Nat} (hr : r < m.rows) :
    (m.row r).length = m.cols :=
  h.rect.getD_length hr

/-- The values of a row of initialised elements are as many as the columns. -/
theorem BankOk.rowOf_length {p : Config.Params} {m : Bank} (h : BankOk p m) {r : Nat} (hr : r < m.rows)
    {vs : List Felt} (hvs : rowOf m r = .ok vs) : vs.length = m.cols := by
  simpa [rowOf_ok.1 hvs] using h.row_length hr

theorem BankOk.gridOf_rect {p : Config.Params} {m : Bank} (h : BankOk p m) {g : Grid} (hg : gridOf m = .ok g) :
    Rect m.rows m.cols g :=
  .of_map_some (gridOf_ok.1 hg ▸ h.rect)

end Sys2Proof.Safety

/-!
SUPPORT. What each command can leave, said once: every command but SRST raises, or completes with one of a few
effects on the state (R90, R240). What the statements say of all commands is derived from it.
-/

namespace Sys2Proof.Proofs

open Sys2Proof Sys2Proof.Machine Sys2Proof.Safety

/-! ### What a rule that completes answers -/

/-- If the rule answers a value, the value has the property; nothing is said of a rule that raises. -/
def Answers {α : Type} (P : α → Prop) (r : Except Raise α) : Prop := ∀ a, r = .ok a → P a

namespace Answers

variable {α β : Type}

theorem ok {P : α → Prop} {a : α} (h : P a) : Answers P (.ok a) := by
  rintro _ ⟨⟩
  exact h

theorem pure {P : α → Prop} {a : α} (h : P a) : Answers P (Pure.pure a) := ok h

theorem error {P : α → Prop} {e : Raise} : Answers P (.error e) := by
  rintro _ ⟨⟩

/-- A check or an operand first, with what its success tells, then the rest of the rule. -/
theorem bind {P : β → Prop} {r : Except Raise α} {f : α → Except Raise β}
    (h : ∀ a, r = .ok a → Answers P (f a)) : Answers P (r >>= f) := by
  intro b hb
  obtain ⟨a, ha, hf⟩ := bind_ok.1 hb
  exact h a ha b hf

end Answers

/-! ### What a command that completes changes -/

/-- The commands that, when they complete, write one scalar register and nothing else. -/
def writesRegister : Instr → Bool
  | .li .. | .lih .. | .mov .. | .csrr .. | .fzero .. | .fone .. | .fadd .. | .fmul .. | .fneg .. | .finv ..
  | .feq .. | .mget .. | .cvld1 .. | .cvld2 .. | .cvld4 .. | .extract .. | .cget .. | .peval .. | .eget .. => true
  | _ => false

/-- The commands that, when they complete, replace one matrix bank and nothing else. -/
def writesBank : Instr → Bool
  | .mnew .. | .mset .. | .mswap .. | .mscale .. | .maddsr .. | .mappc .. | .mappr .. | .mrref .. | .minv ..
  | .mvand .. => true
  | _ => false

/-- The commands that, when they complete, write bytes of cover memory and nothing else (R172, R176). -/
def writesCover : Instr → Bool
  | .cvst1 .. | .cvst2 .. | .cvst4 .. | .embed .. => true
  | _ => false

/-- `Effect s i u`: command `i`, completing in `s`, can leave `u` before it is counted (R90). It names what the
command may write, with what its checks secure about the new values; SRST, which is not counted, has none. -/
inductive Effect (s : State) : Instr → State → Prop
  | nop : Effect s .nop s
  | register {i : Instr} (rd : RegIdx) (v : Word) (hi : writesRegister i = true) : Effect s i (writeX s rd v)
  | response {ra : RegIdx} : Effect s (.out ra) { s with resp := s.resp ++ [readX s ra] }
  | record : Effect s .errack (clearError s)
  | k {ra : RegIdx} (k : Nat) (hlow : 2 ≤ k) (hhigh : k ≤ 257) : Effect s (.kset ra) { s with k := k, n := 0 }
  | n {ra : RegIdx} (n : Nat) (hk : s.k ≠ 0) (hlow : s.k ≤ n) (hhigh : n ≤ 256) :
      Effect s (.nset ra) { s with n := n }
  | bank {i : Instr} (b : BankSel) (m : Bank) (hi : writesBank i = true) (hm : Inv s → BankOk s.params m) :
      Effect s i (setBank s b m)
  | determinant {b : BankSel} {rd : RegIdx} (m : Bank) (v : Word) (hm : Inv s → BankOk s.params m) :
      Effect s (.mdet b rd) (writeX (setBank s b m) rd v)
  | point {ra rb rc : RegIdx} (pt : Vector Point Config.bufSize) : Effect s (.ptset ra rb rc) { s with pt := pt }
  | solution (cb : Vector Felt Config.bufSize) : Effect s .isolve { s with cb := cb }
  | coefficient {ra rb : RegIdx} (cb : Vector Felt Config.bufSize) : Effect s (.cset ra rb) { s with cb := cb }
  | seed {ra rb : RegIdx} (z : MaskState) (left : Word) :
      Effect s (.mseed ra rb) { s with prseed := z, prstate := z, prrem := left }
  | maskNext {rd : RegIdx} (z : MaskState) (left v : Word) :
      Effect s (.mnext rd) (writeX { s with prstate := z, prrem := left } rd v)
  | maskValue {rd ra : RegIdx} (z : MaskState) (left v : Word) :
      Effect s (.mxor rd ra) (writeX { s with prstate := z, prrem := left } rd v)
  | maskBlock (cb : Vector Felt Config.bufSize) (z : MaskState) (left : Word) :
      Effect s .mxorb { s with cb := cb, prstate := z, prrem := left }
  | buffer {ra rb : RegIdx} (len off : Word) (hlen : len.toNat ≤ s.params.coverMemBytes)
      (hoff : off.toNat ≤ len.toNat) :
      Effect s (.bcopen ra rb) { s with buflen := len, payoff := off, cursor := off }
  | cover {i : Instr} (addr : Nat) (bytes : List Byte) (hi : writesCover i = true)
      (hrange : addr + bytes.length ≤ s.buflen.toNat) :
      Effect s i { s with cv := writeBytes s.cv addr bytes }
  | embedCursor {ra : RegIdx} (bytes : List Byte) (hlen : bytes.length = 8)
      (hrange : s.cursor.toNat + 8 ≤ s.buflen.toNat) :
      Effect s (.embedc ra) { s with cv := writeBytes s.cv s.cursor.toNat bytes, cursor := s.cursor + 8 }
  | extractCursor {rd : RegIdx} (v : Word) (hrange : s.cursor.toNat + 8 ≤ s.buflen.toNat) :
      Effect s (.extractc rd) { writeX s rd v with cursor := s.cursor + 8 }
  | shares (cb : Vector Felt Config.bufSize) (ev : Vector Byte Config.evSize) (count : Word) :
      Effect s .pshare { s with cb := cb, ev := ev, corrcnt := count }

/-- How command `i`, begun in `s`, can end: it completes, with its effect, and is counted; or it raises, with the
error entry and nothing else (R90, R240). -/
def Ends (s : State) (i : Instr) (t : State) : Prop :=
  (∃ u, Effect s i u ∧ t = countCommand u) ∨ ∃ e, t = errorEntry e (encode i) s

theorem ends_of_finish {s t : State} {i : Instr} {r : Except Raise State} (ht : finish (encode i) s r = .next t)
    (hr : Answers (Effect s i) r) : Ends s i t := by
  obtain ⟨u, hu, rfl⟩ | ⟨e, -, rfl⟩ := finish_cases ht
  · exact .inl ⟨u, hr u hu, rfl⟩
  · exact .inr ⟨e, rfl⟩

/-- A bank a command needs is one in form (R34, 6). -/
theorem bankOk_of_constructed {s : State} (hs : Inv s) {b : BankSel} {m : Bank} (h : constructed s b = .ok m) :
    BankOk s.params m ∧ m.rows ≠ 0 := by
  obtain ⟨rfl, hm⟩ := constructed_ok.1 h
  cases b
  · exact ⟨hs.ma_ok, hm⟩
  · exact ⟨hs.mb_ok, hm⟩

/-- The check of MINV and MDET secures a square bank of initialised elements (R131, R132). -/
theorem square_of_checks {s : State} (hs : Inv s) {b : BankSel} {m : Bank} {g : Grid} {info : Word} {checked : Unit}
    (hm : constructed s b = .ok m) (hsquare : raiseIf (m.cols ≠ m.rows) .dimMismatch info = .ok checked)
    (hg : gridOf m = .ok g) : DimsOk s.params m.rows m.rows ∧ Rect m.rows m.rows g := by
  obtain ⟨hok, hrows⟩ := bankOk_of_constructed hs hm
  have heq : m.cols = m.rows := not_not.1 (raiseIf_ok.1 hsquare)
  have hdims := hok.dims hrows
  have hgrid := hok.gridOf_rect hg
  rw [heq] at hdims hgrid
  exact ⟨hdims, hgrid⟩

section
variable {s t : State}

/-! The rules of the commands that replace a bank: the new bank is in form if the state is. -/

theorem execMnew_ends {b : BankSel} {ra rb : RegIdx} (h : execMnew b ra rb s = .next t) :
    Ends s (.mnew b ra rb) t := by
  refine ends_of_finish h <| .bind fun r hr => .bind fun c hc => .pure <| .bank b _ rfl fun _ => ?_
  obtain ⟨⟨hr1, hr2⟩, -⟩ := dimOperand_ok.1 hr
  obtain ⟨⟨hc1, hc2⟩, -⟩ := dimOperand_ok.1 hc
  exact .of_rect ⟨hr1, hr2, hc1, hc2⟩ (.replicate r c none)

theorem execMset_ends {b : BankSel} {ra rb rc : RegIdx} (h : execMset b ra rb rc s = .next t) :
    Ends s (.mset b ra rb rc) t := by
  refine ends_of_finish h <| .bind fun m hm => .bind fun r hr => .bind fun c _ => .bind fun v _ => .pure <|
    .bank b _ rfl fun hs => ?_
  obtain ⟨hok, hrows⟩ := bankOk_of_constructed hs hm
  obtain ⟨hlt, -⟩ := indexOperand_ok.1 hr
  exact hok.setRow hrows r ((List.length_set ..).trans (hok.row_length hlt))

theorem execMswap_ends {b : BankSel} {ra rb : RegIdx} (h : execMswap b ra rb s = .next t) :
    Ends s (.mswap b ra rb) t := by
  refine ends_of_finish h <| .bind fun m hm => .bind fun i hi => .bind fun j hj => .pure <|
    .bank b _ rfl fun hs => ?_
  obtain ⟨hok, hrows⟩ := bankOk_of_constructed hs hm
  obtain ⟨hilt, -⟩ := indexOperand_ok.1 hi
  obtain ⟨hjlt, -⟩ := indexOperand_ok.1 hj
  exact .of_rect (hok.dims hrows) (hok.rect.swapRows hilt hjlt)

theorem execMscale_ends {b : BankSel} {ra rb : RegIdx} (h : execMscale b ra rb s = .next t) :
    Ends s (.mscale b ra rb) t := by
  refine ends_of_finish h <| .bind fun m hm => .bind fun r hr => .bind fun f _ => .bind fun row hrow => .pure <|
    .bank b _ rfl fun hs => ?_
  obtain ⟨hok, hrows⟩ := bankOk_of_constructed hs hm
  obtain ⟨hlt, -⟩ := indexOperand_ok.1 hr
  exact hok.setRow hrows r (by simp [hok.rowOf_length hlt hrow])

theorem execMaddsr_ends {b : BankSel} {ra rb rc : RegIdx} (h : execMaddsr b ra rb rc s = .next t) :
    Ends s (.maddsr b ra rb rc) t := by
  refine ends_of_finish h <| .bind fun m hm => .bind fun src hsrc => .bind fun dest hdest => .bind fun f _ =>
    .bind fun srcRow hsrcRow => .bind fun destRow hdestRow => .pure <| .bank b _ rfl fun hs => ?_
  obtain ⟨hok, hrows⟩ := bankOk_of_constructed hs hm
  obtain ⟨hsrclt, -⟩ := indexOperand_ok.1 hsrc
  obtain ⟨hdestlt, -⟩ := indexOperand_ok.1 hdest
  exact hok.setRow hrows dest (by simp [hok.rowOf_length hsrclt hsrcRow, hok.rowOf_length hdestlt hdestRow])

theorem execMappc_ends {b : BankSel} (h : execMappc b s = .next t) : Ends s (.mappc b) t := by
  refine ends_of_finish h <| .bind fun m hm => .bind fun o ho => .bind fun _ hsame => .bind fun _ hfit => .pure <|
    .bank b _ rfl fun hs => ?_
  obtain ⟨hmok, hmrows⟩ := bankOk_of_constructed hs hm
  obtain ⟨hook, -⟩ := bankOk_of_constructed hs ho
  obtain ⟨hr1, hr2, hc1, hc2⟩ := hmok.dims hmrows
  have heq : m.rows = o.rows := not_not.1 (raiseIf_ok.1 hsame)
  have hle : m.cols + o.cols ≤ s.params.matMaxCols := not_lt.1 (raiseIf_ok.1 hfit)
  exact .of_rect ⟨hr1, hr2, Nat.le_add_right_of_le hc1, hle⟩ (hmok.rect.beside (heq ▸ hook.rect))

theorem execMappr_ends {b : BankSel} (h : execMappr b s = .next t) : Ends s (.mappr b) t := by
  refine ends_of_finish h <| .bind fun m hm => .bind fun o ho => .bind fun _ hsame => .bind fun _ hfit => .pure <|
    .bank b _ rfl fun hs => ?_
  obtain ⟨hmok, hmrows⟩ := bankOk_of_constructed hs hm
  obtain ⟨hook, -⟩ := bankOk_of_constructed hs ho
  obtain ⟨hr1, hr2, hc1, hc2⟩ := hmok.dims hmrows
  have heq : m.cols = o.cols := not_not.1 (raiseIf_ok.1 hsame)
  have hle : m.rows + o.rows ≤ s.params.matMaxRows := not_lt.1 (raiseIf_ok.1 hfit)
  exact .of_rect ⟨Nat.le_add_right_of_le hr1, hle, hc1, hc2⟩ (hmok.rect.below (heq ▸ hook.rect))

theorem execMrref_ends {b : BankSel} (h : execMrref b s = .next t) : Ends s (.mrref b) t := by
  refine ends_of_finish h <| .bind fun m hm => .bind fun g hg => .pure <| .bank b _ rfl fun hs => ?_
  obtain ⟨hok, hrows⟩ := bankOk_of_constructed hs hm
  exact .ofGrid (hok.dims hrows) (reduce_rect (hok.gridOf_rect hg) _)

theorem execMinv_ends {b : BankSel} (h : execMinv b s = .next t) : Ends s (.minv b) t := by
  refine ends_of_finish h <| .bind fun m hm => .bind fun _ hsquare => .bind fun g hg => .bind fun _ _ => .pure <|
    .bank b _ rfl fun hs => ?_
  obtain ⟨hdims, hrect⟩ := square_of_checks hs hm hsquare hg
  refine .ofGrid hdims ((reduce_rect (augmentIdentity_rect m.rows 0 hrect) _).map fun row hrow => ?_)
  rw [List.length_drop, hrow, Nat.add_sub_cancel]

theorem execMdet_ends {b : BankSel} {rd : RegIdx} (h : execMdet b rd s = .next t) : Ends s (.mdet b rd) t := by
  refine ends_of_finish h <| .bind fun m hm => .bind fun _ hsquare => .bind fun g hg => .pure <|
    .determinant _ _ fun hs => ?_
  obtain ⟨hdims, hrect⟩ := square_of_checks hs hm hsquare hg
  obtain ⟨hgrid, -⟩ := forward_rect hrect m.rows
  exact .ofGrid hdims hgrid

theorem execMvand_ends {b : BankSel} (h : execMvand b s = .next t) : Ends s (.mvand b) t := by
  refine ends_of_finish h <| .bind fun _ hk => .pure <| .bank b _ rfl fun hs => ?_
  have hk0 : s.k ≠ 0 := needK_ok.1 hk
  have hrange := hs.k_range
  have hrows := s.params.rows_min
  have hcols := s.params.cols_min
  exact .ofGrid ⟨by omega, by omega, by omega, by omega⟩ (vand_rect (by omega))

/-! The rules of the commands that work on cover memory: the bytes written lie below `BUFLEN`. -/

theorem storeBytes_effect {n : Nat} {ra rb : RegIdx} {i : Instr} (hi : writesCover i = true) :
    Answers (Effect s i) (storeBytes n ra rb s) := by
  intro u hu
  obtain ⟨hrange, rfl⟩ := storeBytes_ok.1 hu
  exact .cover _ _ hi (by simpa using hrange)

theorem loadBytes_effect {n : Nat} {rd ra : RegIdx} {i : Instr} (hi : writesRegister i = true) :
    Answers (Effect s i) (loadBytes n rd ra s) := by
  intro u hu
  obtain ⟨-, rfl⟩ := loadBytes_ok.1 hu
  exact .register _ _ hi

theorem execEmbed_ends {ra rb : RegIdx} (h : execEmbed ra rb s = .next t) : Ends s (.embed ra rb) t :=
  ends_of_finish h <| .bind fun _ _ => .bind fun _ hrange => .pure <|
    .cover _ _ rfl (by simpa using coverRange_ok.1 hrange)

theorem execEmbedc_ends {ra : RegIdx} (h : execEmbedc ra s = .next t) : Ends s (.embedc ra) t :=
  ends_of_finish h <| .bind fun _ _ => .bind fun _ hrange => .pure <|
    .embedCursor _ (Vector.length_toList ..) (coverRange_ok.1 hrange)

theorem execExtractc_ends {rd : RegIdx} (h : execExtractc rd s = .next t) : Ends s (.extractc rd) t :=
  ends_of_finish h <| .bind fun _ hrange => .pure <| .extractCursor _ (coverRange_ok.1 hrange)

/-! The other rules with a case of their own. -/

theorem execKset_ends {ra : RegIdx} (h : execKset ra s = .next t) : Ends s (.kset ra) t := by
  refine ends_of_finish h <| .bind fun _ hk => ?_
  have hrange := raiseIf_ok.1 hk
  exact .pure (.k _ (by omega) (by omega))

theorem execNset_ends {ra : RegIdx} (h : execNset ra s = .next t) : Ends s (.nset ra) t := by
  refine ends_of_finish h <| .bind fun _ hn => ?_
  have hrange := raiseIf_ok.1 hn
  exact .pure (.n _ (by omega) (by omega) (by omega))

theorem execCsrr_ends {rd : RegIdx} {csr : BitVec 8} (h : execCsrr rd csr s = .next t) :
    Ends s (.csrr rd csr) t := by
  refine ends_of_finish h ?_
  split
  · exact .ok (.register rd _ rfl)
  · exact .error

theorem execMget_ends {b : BankSel} {rd ra rb : RegIdx} (h : execMget b rd ra rb s = .next t) :
    Ends s (.mget b rd ra rb) t := by
  refine ends_of_finish h <| .bind fun m _ => .bind fun r _ => .bind fun c _ => ?_
  split
  · exact .error
  · exact .pure (.register rd _ rfl)

theorem execMnext_ends {rd : RegIdx} (h : execMnext rd s = .next t) : Ends s (.mnext rd) t := by
  refine ends_of_finish h <| .bind fun ⟨u, b⟩ hb => ?_
  obtain ⟨-, -, rfl⟩ := takeMaskByte_ok.1 hb
  exact .pure (.maskNext _ _ _)

theorem execMxor_ends {rd ra : RegIdx} (h : execMxor rd ra s = .next t) : Ends s (.mxor rd ra) t := by
  refine ends_of_finish h <| .bind fun _ _ => .bind fun ⟨u, b⟩ hb => ?_
  obtain ⟨-, -, rfl⟩ := takeMaskByte_ok.1 hb
  exact .pure (.maskValue _ _ _)

theorem execBcopen_ends {ra rb : RegIdx} (h : execBcopen ra rb s = .next t) : Ends s (.bcopen ra rb) t :=
  ends_of_finish h <| .bind fun _ hlen => .bind fun _ hoff => .pure <|
    .buffer _ _ (not_lt.1 (raiseIf_ok.1 hlen)) (not_lt.1 (raiseIf_ok.1 hoff))

/-- Every command but SRST ends in one of the ways its `Effect` and the error entry allow (R90). -/
theorem exec_ends {i : Instr} (hi : i ≠ .srst) (h : exec i s = .next t) : Ends s i t := by
  cases i with
  | srst => exact absurd rfl hi
  | nop => exact ends_of_finish (r := .ok _) h (.ok .nop)
  | out => exact ends_of_finish (r := .ok _) h (.ok .response)
  | errack => exact ends_of_finish (r := .ok _) h (.ok .record)
  | li | lih | mov | fzero | fone => exact ends_of_finish (r := .ok _) h (.ok (.register _ _ rfl))
  | csrr => exact execCsrr_ends h
  | kset => exact execKset_ends h
  | nset => exact execNset_ends h
  | fneg | cget | eget => exact ends_of_finish h <| .bind fun _ _ => .pure (.register _ _ rfl)
  | fadd | fmul | finv | feq | peval =>
    exact ends_of_finish h <| .bind fun _ _ => .bind fun _ _ => .pure (.register _ _ rfl)
  | mnew => exact execMnew_ends h
  | mset => exact execMset_ends h
  | mget => exact execMget_ends h
  | mswap => exact execMswap_ends h
  | mscale => exact execMscale_ends h
  | maddsr => exact execMaddsr_ends h
  | mappc => exact execMappc_ends h
  | mappr => exact execMappr_ends h
  | mrref => exact execMrref_ends h
  | minv => exact execMinv_ends h
  | mdet => exact execMdet_ends h
  | ptset => exact ends_of_finish h <| .bind fun _ _ => .bind fun _ _ => .bind fun _ _ => .pure (.point _)
  | mvand => exact execMvand_ends h
  | isolve => exact ends_of_finish h <| .bind fun _ _ => .bind fun _ _ => .pure (.solution _)
  | mseed => exact ends_of_finish h <| .bind fun _ _ => .pure (.seed _ _)
  | mnext => exact execMnext_ends h
  | mxor => exact execMxor_ends h
  | mxorb =>
    exact ends_of_finish h <| .bind fun _ _ => .bind fun _ _ => .bind fun _ _ => .pure (.maskBlock _ _ _)
  | bcopen => exact execBcopen_ends h
  | cvst1 | cvst2 | cvst4 => exact ends_of_finish h (storeBytes_effect rfl)
  | cvld1 | cvld2 | cvld4 => exact ends_of_finish h (loadBytes_effect rfl)
  | embed => exact execEmbed_ends h
  | extract => exact ends_of_finish h <| .bind fun _ _ => .pure (.register _ _ rfl)
  | embedc => exact execEmbedc_ends h
  | extractc => exact execExtractc_ends h
  | cset => exact ends_of_finish h <| .bind fun _ _ => .bind fun _ _ => .pure (.coefficient _)
  | pshare => exact ends_of_finish h <| .bind fun _ _ => .bind fun _ _ => .pure (.shares _ _ _)

end

end Sys2Proof.Proofs

/-!
SUPPORT. The invariants of R34 through a step, and the error record (R25, R240 to R244).
-/

namespace Sys2Proof.Proofs

open Sys2Proof Sys2Proof.Machine Sys2Proof.Safety

/-! ### The invariants of R34 -/

section
variable {s u : State} {i : Instr}

/-- Reset, whether by SRST or by the pin, leaves the invariants: only cover memory is not at its reset value. -/
theorem inv_softReset (h : Inv s) : Inv (softReset s) where
  ready_clear _ := ⟨rfl, rfl, rfl, rfl⟩
  faulted_code h := absurd h Bool.false_ne_true
  k_range := .inl rfl
  n_range := .inl rfl
  payoff_le := le_rfl
  cursor_le := le_rfl
  buflen_le := Nat.zero_le _
  cursor_mod := rfl
  ma_ok := .unconstructed _
  mb_ok := .unconstructed _
  cv_wf := h.cv_wf
  cv_range := h.cv_range

/-- The error entry leaves them: its code is one of R231. -/
theorem inv_errorEntry (h : Inv s) (e : Raise) (w : Word) : Inv (errorEntry e w s) :=
  { h with
    ready_clear := by simp
    faulted_code := fun _ => code_range e.kind }

theorem inv_clearError (h : Inv s) : Inv (clearError s) :=
  { h with
    ready_clear := fun _ => ⟨rfl, rfl, rfl, rfl⟩
    faulted_code := fun h => absurd h Bool.false_ne_true }

theorem inv_setBank (h : Inv s) (b : BankSel) {m : Bank} (hm : BankOk s.params m) : Inv (setBank s b m) := by
  cases b
  · exact { h with ma_ok := hm }
  · exact { h with mb_ok := hm }

/-- Bytes written below `BUFLEN` lie within cover memory, and a write keeps its canonical form. -/
theorem inv_writeBytes (h : Inv s) {addr : Nat} {bytes : List Byte}
    (hrange : addr + bytes.length ≤ s.buflen.toNat) : Inv { s with cv := writeBytes s.cv addr bytes } :=
  { h with
    cv_wf := writeBytes_wf h.cv_wf addr bytes
    cv_range := fun cell hcell => by
      have hbuf := h.buflen_le
      rcases mem_writeBytes hcell with hold | ⟨-, hnew⟩
      · exact h.cv_range cell hold
      · exact lt_of_lt_of_le hnew (hrange.trans hbuf) }

/-- `CURSOR` advances by one block, no further than `BUFLEN` (R178, R179). -/
theorem inv_advance (h : Inv s) (hrange : s.cursor.toNat + 8 ≤ s.buflen.toNat) :
    Inv { s with cursor := s.cursor + 8 } := by
  have hcursor : (s.cursor + 8).toNat = s.cursor.toNat + 8 := by
    have := s.buflen.isLt
    rw [BitVec.toNat_add]
    exact Nat.mod_eq_of_lt (by simp; omega)
  have hpay := h.payoff_le
  have hmod := h.cursor_mod
  exact { h with
    payoff_le := by simp only [hcursor]; omega
    cursor_le := by simp only [hcursor]; omega
    cursor_mod := by simp only [hcursor]; omega }

/-- Every effect of a command keeps the invariants. -/
theorem Effect.inv (he : Effect s i u) (h : Inv s) : Inv u := by
  cases he with
  | nop => exact h
  | register | response | point | solution | coefficient | seed | maskNext | maskValue | maskBlock | shares =>
    exact { h with }
  | record => exact inv_clearError h
  | k k hlow hhigh => exact { h with k_range := .inr ⟨hlow, hhigh⟩, n_range := .inl rfl }
  | n n hk hlow hhigh => exact { h with n_range := .inr ⟨hk, hlow, hhigh⟩ }
  | bank b m _ hm => exact inv_setBank h b (hm h)
  | determinant m v hm => exact { inv_setBank h _ (hm h) with }
  | buffer len off hlen hoff =>
    exact { h with
      payoff_le := le_rfl, cursor_le := hoff, buflen_le := hlen
      cursor_mod := by simp }
  | cover addr bytes _ hrange => exact inv_writeBytes h hrange
  | embedCursor bytes hlen hrange =>
    exact inv_advance (inv_writeBytes h (hlen ▸ hrange)) hrange
  | extractCursor v hrange => exact { inv_advance h hrange with }

/-- A command executed in any state keeps the invariants, in FAULTED too. -/
theorem exec_inv {t : State} (h : Inv s) (ht : exec i s = .next t) : Inv t := by
  by_cases hi : i = .srst
  · subst hi
    obtain rfl := Host.Outcome.next.inj ht
    exact inv_softReset h
  · obtain ⟨u, hu, rfl⟩ | ⟨e, rfl⟩ := exec_ends hi ht
    · exact { hu.inv h with }
    · exact inv_errorEntry h e _

theorem executeWord_inv {t : State} {w : Word} (h : Inv s) (ht : executeWord w s = .next t) : Inv t := by
  obtain ⟨-, hdropped⟩ | ⟨i, -, -, hexec⟩ | ⟨-, -, hillegal⟩ := executeWord_cases ht
  · obtain rfl := Host.Outcome.next.inj hdropped
    exact h
  · exact exec_inv h hexec.symm
  · obtain rfl := Host.Outcome.next.inj hillegal
    exact inv_errorEntry h _ w

/-- The host's input takes no part in the invariants. -/
theorem inv_input (h : Inv s) (rest : List HostInput) : Inv { s with input := rest } := { h with }

end

/-- Settles O11: from what an input of the host can do to what a word, and a command, can do. -/
theorem everyStepKeepsTheInvariants : Obligations.EveryStepKeepsTheInvariants := by
  intro s t h ht
  obtain ⟨-, hwait⟩ | ⟨w, rest, -, hword⟩ | ⟨rest, -, hreset⟩ := step_cases ht
  · obtain rfl := Host.Outcome.next.inj hwait
    exact h
  · exact executeWord_inv (inv_input h rest) hword.symm
  · obtain rfl := Host.Outcome.next.inj hreset
    exact inv_softReset (inv_input h rest)

/-- Settles O12: nothing of the reset state but cover memory takes part, and that is empty. -/
theorem resetHasTheInvariants : Obligations.ResetHasTheInvariants where
  ready_clear _ := ⟨rfl, rfl, rfl, rfl⟩
  faulted_code h := absurd h Bool.false_ne_true
  k_range := .inl rfl
  n_range := .inl rfl
  payoff_le := le_rfl
  cursor_le := le_rfl
  buflen_le := Nat.zero_le _
  cursor_mod := rfl
  ma_ok := .unconstructed _
  mb_ok := .unconstructed _
  cv_wf := rfl
  cv_range := by simp [State.reset, State.resetWith]

/-! ### The error record -/

/-- A command that completes leaves `FAULTED` and `CMDCNT` to the sequencer and, but for ERRACK, the error
record as it was (R25). -/
theorem Effect.record_kept {s u : State} {i : Instr} (he : Effect s i u) :
    u.cmdcnt = s.cmdcnt ∧ (i ≠ .errack → u.faulted = s.faulted ∧
      u.errcode = s.errcode ∧ u.errinfo = s.errinfo ∧ u.errcmd = s.errcmd ∧ u.errseq = s.errseq) := by
  cases he with
  | record => exact ⟨rfl, fun h => absurd rfl h⟩
  | bank | determinant => simp
  | _ => exact ⟨rfl, fun _ => ⟨rfl, rfl, rfl, rfl, rfl⟩⟩

/-- The error entry in the words of the statements: the code is one of 1 to 14 (R231, R240). -/
theorem errorEntry_eq_raised (e : Raise) (w : Word) (s : State) :
    errorEntry e w s = raised e.kind.code.toNat e.info w s := by
  simp [errorEntry, raised]

/-- Settles O13: a command raises, or its effect leaves the record alone and it is counted. -/
theorem commandRaisesOrCounts : Obligations.CommandRaisesOrCounts := by
  intro i s hready
  obtain ⟨t, ht⟩ := exec_next i s
  refine ⟨t, ht, ?_⟩
  by_cases hi : i = .srst
  · subst hi
    obtain rfl := Host.Outcome.next.inj ht
    exact .inr ⟨rfl, fun h => absurd rfl h, fun h => absurd rfl h⟩
  obtain ⟨u, hu, rfl⟩ | ⟨e, rfl⟩ := exec_ends hi ht
  · obtain ⟨hcount, hrecord⟩ := hu.record_kept
    refine .inr ⟨?_, fun _ => congrArg (· + 1) hcount, fun _ hack => (hrecord hack).2⟩
    by_cases hack : i = .errack
    · subst hack
      cases hu with
      | record => rfl
      | register | bank | cover => contradiction
    · exact (hrecord hack).1.trans hready
  · obtain ⟨hlow, hhigh⟩ := code_range e.kind
    exact .inl ⟨_, _, hlow, hhigh, errorEntry_eq_raised e _ s⟩

/-- A CSRR of a CSR of R23 completes in every state (R84). -/
theorem exec_csrr {rd : RegIdx} {number : BitVec 8} {c : Csr} (s : State) (h : csrOfNumber number = some c) :
    exec (.csrr rd number) s = .next (countCommand (writeX s rd (csrValue s c))) := by
  simp [exec, execCsrr, h]

/-- A word that decodes to a CSRR names a CSR of R23 (R71). -/
theorem csrKnown_of_decode {w : Word} {i : Instr} (h : decode w = .ok i) : csrKnown i = true := by
  unfold decode at h
  split at h
  · cases h
  · split_ifs at h with hmask hknown
    cases h
    exact hknown

/-- The commands that execute in FAULTED clear it or leave the error record alone; none raises (R242). -/
theorem exec_keeps_record_of_passesFilter {i : Instr} {s t : State} (hknown : csrKnown i = true)
    (hpass : passesFilter i = true) (ht : exec i s = .next t) :
    t.faulted = false ∨ (t.faulted = s.faulted ∧
      t.errcode = s.errcode ∧ t.errinfo = s.errinfo ∧ t.errcmd = s.errcmd ∧ t.errseq = s.errseq) := by
  obtain rfl | ⟨rd, csr, rfl⟩ | ⟨ra, rfl⟩ | rfl | rfl := passesFilter_iff.1 hpass
  case inr.inl =>
    obtain ⟨c, hc⟩ := Option.isSome_iff_exists.1 hknown
    obtain rfl := Host.Outcome.next.inj ((exec_csrr s hc).symm.trans ht)
    exact .inr ⟨rfl, rfl, rfl, rfl, rfl⟩
  all_goals obtain rfl := Host.Outcome.next.inj ht
  · exact .inr ⟨rfl, rfl, rfl, rfl, rfl⟩
  · exact .inr ⟨rfl, rfl, rfl, rfl, rfl⟩
  · exact .inl rfl
  · exact .inl rfl

/-- Settles O14: in FAULTED a word is dropped or is one of the five commands that cannot raise. -/
theorem faultedKeepsTheFirstRecord : Obligations.FaultedKeepsTheFirstRecord := by
  intro s t hf ht
  obtain ⟨-, hwait⟩ | ⟨w, rest, -, hword⟩ | ⟨rest, -, hreset⟩ := step_cases ht
  · obtain rfl := Host.Outcome.next.inj hwait
    exact .inr ⟨hf, rfl, rfl, rfl, rfl⟩
  · obtain ⟨-, hdropped⟩ | ⟨i, hdecode, hpass, hexec⟩ | ⟨-, hready, -⟩ := executeWord_cases hword.symm
    · obtain rfl := Host.Outcome.next.inj hdropped
      exact .inr ⟨hf, rfl, rfl, rfl, rfl⟩
    · obtain hclear | ⟨hsame, hrecord⟩ :=
        exec_keeps_record_of_passesFilter (csrKnown_of_decode hdecode) (hpass hf) hexec.symm
      · exact .inl hclear
      · exact .inr ⟨hsame.trans hf, hrecord⟩
    · simp [hf] at hready
  · obtain rfl := Host.Outcome.next.inj hreset
    exact .inl rfl

end Sys2Proof.Proofs

/-!
SUPPORT. Which commands may change which part of the state (R19 to R29), and that no command reaches cover memory
from `BUFLEN` up (R28, R41).
-/

namespace Sys2Proof.Proofs

open Sys2Proof Sys2Proof.Machine Sys2Proof.Safety

/-! ### What each command may change -/

/-- What of the registers of R22 to R27 and of the buffers a command may change, by the commands the spec names
for each. -/
structure ChangesOnlyNamed (i : Instr) (s u : State) : Prop where
  k : u.k ≠ s.k → ∃ ra, i = .kset ra
  n : u.n ≠ s.n → (∃ ra, i = .nset ra) ∨ ∃ ra, i = .kset ra
  corrcnt : u.corrcnt ≠ s.corrcnt → i = .pshare
  cb : u.cb ≠ s.cb → (∃ ra rb, i = .cset ra rb) ∨ i = .mxorb ∨ i = .pshare ∨ i = .isolve
  ev : u.ev ≠ s.ev → i = .pshare
  pt : u.pt ≠ s.pt → ∃ ra rb rc, i = .ptset ra rb rc
  prseed : u.prseed ≠ s.prseed → ∃ ra rb, i = .mseed ra rb
  stream : u.prstate ≠ s.prstate ∨ u.prrem ≠ s.prrem →
    (∃ ra rb, i = .mseed ra rb) ∨ (∃ rd, i = .mnext rd) ∨ (∃ rd ra, i = .mxor rd ra) ∨ i = .mxorb
  buffer : u.buflen ≠ s.buflen ∨ u.payoff ≠ s.payoff → ∃ ra rb, i = .bcopen ra rb
  cursor : u.cursor ≠ s.cursor → (∃ ra rb, i = .bcopen ra rb) ∨ (∃ ra, i = .embedc ra) ∨ ∃ rd, i = .extractc rd

section
variable {s t u : State} {i : Instr}

theorem Effect.changesOnlyNamed (he : Effect s i u) : ChangesOnlyNamed i s u := by
  cases he with
  | nop | register | response | record | bank | determinant | cover => -- these write none of them
    constructor <;> simp
  | k | n | point | solution | coefficient | seed | maskNext | maskValue | maskBlock | buffer | embedCursor
  | extractCursor | shares => -- what these write is theirs to write
    constructor <;> simp

/-- Only OUT adds to the response stream (R29). -/
theorem Effect.resp_kept (he : Effect s i u) (hi : ∀ ra, i ≠ .out ra) : u.resp = s.resp := by
  cases he with
  | response => exact absurd rfl (hi _)
  | bank | determinant => simp
  | _ => rfl

/-- So it is for a command as a whole, which is counted or makes the error entry. -/
theorem Ends.changesOnlyNamed (he : Ends s i t) : ChangesOnlyNamed i s t := by
  obtain ⟨u, hu, rfl⟩ | ⟨e, rfl⟩ := he
  · exact { hu.changesOnlyNamed with }
  · constructor <;> simp

theorem Ends.resp_kept (he : Ends s i t) (hi : ∀ ra, i ≠ .out ra) : t.resp = s.resp := by
  obtain ⟨u, hu, rfl⟩ | ⟨e, rfl⟩ := he
  · exact hu.resp_kept hi
  · rfl

/-- OUT appends its register to the response stream (R85). -/
theorem exec_out (ra : RegIdx) (s : State) :
    exec (.out ra) s = .next (countCommand { s with resp := s.resp ++ [s.x[ra]] }) := rfl

end

/-- Settles O15: field by field, the effects that write it. -/
theorem stateChangesOnlyByTheNamedCommands : Obligations.StateChangesOnlyByTheNamedCommands := by
  intro i s t ht hi
  have he := exec_ends hi ht
  have hf := he.changesOnlyNamed
  refine ⟨hf.k, hf.n, hf.corrcnt, hf.cb, hf.ev, hf.pt, hf.prseed, hf.stream, hf.buffer, hf.cursor, ?_⟩
  split
  next ra =>
    obtain rfl := Host.Outcome.next.inj ((exec_out ra s).symm.trans ht)
    rfl
  next hout => exact he.resp_kept hout

/-! ### Cover memory is written below `BUFLEN` only -/

theorem writesCover_iff {i : Instr} :
    writesCover i = true ↔ ∃ ra rb, i = .cvst1 ra rb ∨ i = .cvst2 ra rb ∨ i = .cvst4 ra rb ∨ i = .embed ra rb := by
  cases i <;> simp [writesCover]

section
variable {s t u : State} {i : Instr}

/-- A command leaves cover memory as it was, or is a store or an embedding, which writes bytes that all lie below
`BUFLEN` (R28, R41). -/
theorem Effect.cover_cases (he : Effect s i u) :
    u.cv = s.cv ∨ ((writesCover i = true ∨ ∃ ra, i = .embedc ra) ∧
      ∃ addr bytes, addr + bytes.length ≤ s.buflen.toNat ∧ u.cv = writeBytes s.cv addr bytes) := by
  cases he with
  | cover addr bytes hi hrange => exact .inr ⟨.inl hi, addr, bytes, hrange, rfl⟩
  | embedCursor bytes hlen hrange => exact .inr ⟨.inr ⟨_, rfl⟩, _, bytes, hlen ▸ hrange, rfl⟩
  | bank | determinant => simp
  | _ => exact .inl rfl

theorem exec_cover_cases (ht : exec i s = .next t) :
    t.cv = s.cv ∨ ((writesCover i = true ∨ ∃ ra, i = .embedc ra) ∧
      ∃ addr bytes, addr + bytes.length ≤ s.buflen.toNat ∧ t.cv = writeBytes s.cv addr bytes) := by
  by_cases hi : i = .srst
  · subst hi
    obtain rfl := Host.Outcome.next.inj ht
    exact .inl rfl
  · obtain ⟨u, hu, rfl⟩ | ⟨e, rfl⟩ := exec_ends hi ht
    · exact hu.cover_cases
    · exact .inl rfl

/-- Bytes written below `limit` leave what is read from `limit` up alone. -/
theorem readByte_writeBytes_above (m : Memory) {addr limit a : Nat} {bytes : List Byte}
    (hrange : addr + bytes.length ≤ limit) (ha : limit ≤ a) :
    readByte (writeBytes m addr bytes) a = readByte m a := by
  rw [readByte_writeBytes, dif_neg (by omega)]

/-- Memories that read alike below `limit` still do when the same bytes are written to both. -/
theorem readByte_writeBytes_congr {m m' : Memory} {limit : Nat}
    (h : ∀ a, a < limit → readByte m a = readByte m' a) (addr : Nat) (bytes : List Byte) :
    ∀ a, a < limit → readByte (writeBytes m addr bytes) a = readByte (writeBytes m' addr bytes) a := by
  intro a ha
  simp only [readByte_writeBytes, h a ha]

end

/-! ### No command reads cover memory from `BUFLEN` up

The same command is run in a state `s` and in `{ s with cv := m }`, and the two runs are compared check by check. -/

/-- Two rules end alike: they raise the same error, or both answer, with values that `R` relates. -/
inductive Alike {α β : Type} (R : α → β → Prop) : Except Raise α → Except Raise β → Prop
  | ok {a : α} {b : β} (h : R a b) : Alike R (.ok a) (.ok b)
  | error (e : Raise) : Alike R (.error e) (.error e)

namespace Alike

variable {α β γ δ : Type}

theorem pure {R : α → β → Prop} {a : α} {b : β} (h : R a b) : Alike R (Pure.pure a) (Pure.pure b) := .ok h

theorem bind {R : γ → δ → Prop} {Q : α → β → Prop} {r : Except Raise α} {r' : Except Raise β}
    {f : α → Except Raise γ} {f' : β → Except Raise δ} (h : Alike Q r r')
    (hf : ∀ a b, Q a b → Alike R (f a) (f' b)) : Alike R (r >>= f) (r' >>= f') := by
  cases h with
  | ok h => exact hf _ _ h
  | error e => exact .error e

/-- A check or an operand that does not see the difference, then the rest. -/
theorem check {R : γ → δ → Prop} {r r' : Except Raise α} {f : α → Except Raise γ} {f' : α → Except Raise δ}
    (h : r' = r) (hf : ∀ a, r = .ok a → Alike R (f a) (f' a)) : Alike R (r >>= f) (r' >>= f') := by
  subst h
  cases r' with
  | ok a => exact hf a rfl
  | error e => exact .error e

end Alike

/-- `u'` is `u` but for cover memory, which reads as that of `u` below the `BUFLEN` of `s` and as `m` from there
up. -/
def SameBelow (s : State) (m : Memory) (u u' : State) : Prop :=
  ∃ m', u' = { u with cv := m' } ∧ (∀ a, a < s.buflen.toNat → readByte m' a = readByte u.cv a) ∧
    ∀ a, s.buflen.toNat ≤ a → readByte m' a = readByte m a

theorem SameBelow.writeX {s u u' : State} {m : Memory} (h : SameBelow s m u u') (rd : RegIdx) (v : Word) :
    SameBelow s m (writeX u rd v) (writeX u' rd v) := by
  obtain ⟨m', rfl, hbelow, habove⟩ := h
  exact ⟨m', rfl, hbelow, habove⟩

theorem SameBelow.setCursor {s u u' : State} {m : Memory} (h : SameBelow s m u u') (c : Word) :
    SameBelow s m { u with cursor := c } { u' with cursor := c } := by
  obtain ⟨m', rfl, hbelow, habove⟩ := h
  exact ⟨m', rfl, hbelow, habove⟩

/-- No CSR shows cover memory (R23). -/
theorem csrValue_withCv (s : State) (m : Memory) (c : Csr) : csrValue { s with cv := m } c = csrValue s c := by
  cases c <;> rfl

/-- The next byte of the mask stream comes from the generator's state alone (R163). -/
theorem takeMaskByte_alike (s : State) (m : Memory) :
    Alike (fun p p' => p.1.cv = s.cv ∧ p' = ({ p.1 with cv := m }, p.2)) (takeMaskByte s)
      (takeMaskByte { s with cv := m }) :=
  .check rfl fun _ _ => .pure ⟨rfl, rfl⟩

section
variable {s t : State} {m : Memory} (hm : ∀ a, a < s.buflen.toNat → readByte m a = readByte s.cv a)
include hm

/-- A command that neither reads nor writes cover memory leaves the second memory as it was. -/
theorem sameBelow_kept {u : State} (hu : u.cv = s.cv := by rfl) : SameBelow s m u { u with cv := m } :=
  ⟨m, rfl, hu ▸ hm, fun _ _ => rfl⟩

/-- A command that writes the same bytes below `BUFLEN` in both. -/
theorem sameBelow_writeBytes (u : State) {addr : Nat} {bytes : List Byte}
    (hrange : addr + bytes.length ≤ s.buflen.toNat) :
    SameBelow s m { u with cv := writeBytes s.cv addr bytes } { u with cv := writeBytes m addr bytes } :=
  ⟨_, rfl, readByte_writeBytes_congr hm addr bytes, fun _ => readByte_writeBytes_above m hrange⟩

theorem sameBelow_setBank (b : BankSel) (bank : Bank) :
    SameBelow s m (setBank s b bank) (setBank { s with cv := m } b bank) := by
  cases b <;> exact sameBelow_kept hm

theorem sameBelow_of_finish {w : Word} {r r' : Except Raise State} (ht : finish w s r = .next t)
    (hr : Alike (SameBelow s m) r r') :
    ∃ t', finish w { s with cv := m } r' = .next t' ∧ SameBelow s m t t' := by
  cases hr with
  | ok h =>
    obtain rfl := Host.Outcome.next.inj ht
    obtain ⟨m', rfl, hbelow, habove⟩ := h
    exact ⟨_, rfl, m', rfl, hbelow, habove⟩
  | error e =>
    obtain rfl := Host.Outcome.next.inj ht
    exact ⟨_, rfl, sameBelow_kept hm⟩

theorem eightBytes_congr {addr : Nat} (h : addr + 8 ≤ s.buflen.toNat) :
    eightBytes { s with cv := m } addr = eightBytes s addr :=
  congrArg Vector.ofFn (funext fun i => hm _ (by omega))

theorem storeBytes_alike (n : Nat) (ra rb : RegIdx) :
    Alike (SameBelow s m) (storeBytes n ra rb s) (storeBytes n ra rb { s with cv := m }) :=
  .check rfl fun _ h => .pure <| sameBelow_writeBytes hm _ (by simpa using coverRange_ok.1 h)

theorem loadBytes_alike (n : Nat) (rd ra : RegIdx) :
    Alike (SameBelow s m) (loadBytes n rd ra s) (loadBytes n rd ra { s with cv := m }) := by
  refine .check rfl fun _ h => .pure ?_
  have hrange := coverRange_ok.1 h
  have hread : memRead m (readX s ra).toNat n = memRead s.cv (readX s ra).toNat n :=
    memRead_congr fun a _ ha => hm a (by omega)
  change SameBelow s m _ (writeX { s with cv := m } rd (BitVec.ofNat 32 (memRead m (readX s ra).toNat n)))
  rw [hread]
  exact sameBelow_kept hm

/-- Embedding a byte below `BUFLEN` writes the same eight bytes in both, for it reads the same eight. -/
theorem embedAt_sameBelow {addr : Nat} (h : addr + 8 ≤ s.buflen.toNat) (v : Byte) :
    SameBelow s m (embedAt s addr v) (embedAt { s with cv := m } addr v) := by
  simp only [embedAt, eightBytes_congr hm h]
  exact sameBelow_writeBytes hm _ (by simpa using h)

/-- Extracting a byte below `BUFLEN` reads the same eight bytes in both. -/
theorem extractAt_sameBelow {addr : Nat} (h : addr + 8 ≤ s.buflen.toNat) (rd : RegIdx) :
    SameBelow s m (writeX s rd (byteWord (extract8 (eightBytes s addr))))
      (writeX { s with cv := m } rd (byteWord (extract8 (eightBytes { s with cv := m } addr)))) := by
  rw [eightBytes_congr hm h]
  exact (sameBelow_kept hm).writeX rd _

/-- A command does the same in both states, but for the bytes from `BUFLEN` up (R41): each of its checks and operands
sees no difference, and what it reads of cover memory lies below `BUFLEN`. -/
theorem exec_sameBelow {i : Instr} (ht : exec i s = .next t) :
    ∃ t', exec i { s with cv := m } = .next t' ∧ SameBelow s m t t' := by
  cases i with
  | nop | li | lih | mov | out | errack | srst | fzero | fone =>
    obtain rfl := Host.Outcome.next.inj ht
    exact ⟨_, rfl, sameBelow_kept hm⟩
  | csrr rd csr =>
    refine sameBelow_of_finish hm ht ?_
    cases csrOfNumber csr with
    | none => exact .error _
    | some c =>
      simp only [csrValue_withCv]
      exact .ok ((sameBelow_kept hm).writeX rd _)
  | kset | nset | fneg | mseed | cget | eget =>
    exact sameBelow_of_finish hm ht <| .check rfl fun _ _ => .pure (sameBelow_kept hm)
  | fadd | fmul | finv | feq | isolve | bcopen | cset | peval | pshare =>
    exact sameBelow_of_finish hm ht <| .check rfl fun _ _ => .check rfl fun _ _ => .pure (sameBelow_kept hm)
  | ptset | mxorb =>
    exact sameBelow_of_finish hm ht <| .check rfl fun _ _ => .check rfl fun _ _ => .check rfl fun _ _ =>
      .pure (sameBelow_kept hm)
  | mvand => exact sameBelow_of_finish hm ht <| .check rfl fun _ _ => .pure (sameBelow_setBank hm _ _)
  | mnew | mrref =>
    exact sameBelow_of_finish hm ht <| .check rfl fun _ _ => .check rfl fun _ _ =>
      .pure (sameBelow_setBank hm _ _)
  | mswap =>
    exact sameBelow_of_finish hm ht <| .check rfl fun _ _ => .check rfl fun _ _ => .check rfl fun _ _ =>
      .pure (sameBelow_setBank hm _ _)
  | mset | mscale | mappc | mappr | minv =>
    exact sameBelow_of_finish hm ht <| .check rfl fun _ _ => .check rfl fun _ _ => .check rfl fun _ _ =>
      .check rfl fun _ _ => .pure (sameBelow_setBank hm _ _)
  | maddsr =>
    exact sameBelow_of_finish hm ht <| .check rfl fun _ _ => .check rfl fun _ _ => .check rfl fun _ _ =>
      .check rfl fun _ _ => .check rfl fun _ _ => .check rfl fun _ _ => .pure (sameBelow_setBank hm _ _)
  | mdet =>
    exact sameBelow_of_finish hm ht <| .check rfl fun _ _ => .check rfl fun _ _ => .check rfl fun _ _ =>
      .pure ((sameBelow_setBank hm _ _).writeX _ _)
  | mget =>
    refine sameBelow_of_finish hm ht <| .check rfl fun _ _ => .check rfl fun _ _ => .check rfl fun _ _ => ?_
    split
    · exact .error _
    · exact .pure (sameBelow_kept hm)
  | mnext =>
    refine sameBelow_of_finish hm ht <| .bind (takeMaskByte_alike s m) ?_
    rintro ⟨u, b⟩ _ ⟨hu, rfl⟩
    exact .pure ((sameBelow_kept hm hu).writeX _ _)
  | mxor =>
    refine sameBelow_of_finish hm ht <| .check rfl fun _ _ => .bind (takeMaskByte_alike s m) ?_
    rintro ⟨u, b⟩ _ ⟨hu, rfl⟩
    exact .pure ((sameBelow_kept hm hu).writeX _ _)
  | cvst1 | cvst2 | cvst4 => exact sameBelow_of_finish hm ht (storeBytes_alike hm _ _ _)
  | cvld1 | cvld2 | cvld4 => exact sameBelow_of_finish hm ht (loadBytes_alike hm _ _ _)
  | embed =>
    exact sameBelow_of_finish hm ht <| .check rfl fun _ _ => .check rfl fun _ h => .pure <|
      embedAt_sameBelow hm (coverRange_ok.1 h) _
  | embedc =>
    exact sameBelow_of_finish hm ht <| .check rfl fun _ _ => .check rfl fun _ h => .pure <|
      (embedAt_sameBelow hm (coverRange_ok.1 h) _).setCursor _
  | extract =>
    exact sameBelow_of_finish hm ht <| .check rfl fun _ h => .pure <|
      extractAt_sameBelow hm (coverRange_ok.1 h) _
  | extractc =>
    exact sameBelow_of_finish hm ht <| .check rfl fun _ h => .pure <|
      (extractAt_sameBelow hm (coverRange_ok.1 h) _).setCursor _

end

/-- Settles O16: the writing half from what a command's effect can do to cover memory, the reading half from the
comparison of the two runs. -/
theorem coverMemoryBeyondBuflenIsOutOfReach : Obligations.CoverMemoryBeyondBuflenIsOutOfReach := by
  intro i s t ht
  refine ⟨fun a ha => ?_, fun hchanged => ?_, fun m hm => ?_⟩
  · obtain hsame | ⟨-, addr, bytes, hrange, hcv⟩ := exec_cover_cases ht
    · rw [hsame]
    · rw [hcv, readByte_writeBytes_above s.cv hrange ha]
  · obtain hsame | ⟨hi, -⟩ := exec_cover_cases ht
    · exact absurd hsame hchanged
    · exact hi.imp_left writesCover_iff.1
  · obtain ⟨_, ht', m', rfl, hbelow, habove⟩ := exec_sameBelow hm ht
    exact ⟨m', ht', hbelow, habove⟩

end Sys2Proof.Proofs

/-!
SUPPORT. Reset (R30, R87, R263), the registers a CSRR reads (R23, R24, R57), and the elements of a matrix bank
(R16 to R18, R120).
-/

namespace Sys2Proof.Proofs

open Sys2Proof Sys2Proof.Machine Sys2Proof.Safety

/-! ### Reset -/

/-- Settles O8: no byte of cover memory has been written, and every other piece of state is 0 or empty. -/
theorem resetLeavesTheTabledValues : Obligations.ResetLeavesTheTabledValues :=
  ⟨fun _ => Vector.getElem_replicate _, rfl, rfl, rfl, rfl, rfl, rfl, rfl, rfl, rfl, ⟨rfl, rfl, rfl⟩,
    ⟨rfl, rfl, rfl⟩, fun _ => Vector.getElem_replicate _, fun _ => Vector.getElem_replicate _,
    fun _ => Vector.getElem_replicate _, rfl, rfl, rfl, rfl, rfl, rfl, rfl, fun _ => rfl⟩

/-- Settles O9: both are `softReset`, on the state with the input taken. -/
theorem srstAndPinResetAgree : Obligations.SrstAndPinResetAgree :=
  fun _ => ⟨rfl, fun _ => rfl⟩

/-! ### The registers a CSRR reads -/

/-- The bits of `STATUS` (R24) do not overlap, so that its value is their sum. -/
theorem statusWord_eq (s : State) :
    statusWord s = BitVec.ofNat 32 (s.faulted.toNat + 2 * (s.k != 0).toNat + 4 * (s.n != 0).toNat
      + 8 * (s.prrem != 0).toNat + 16 * (s.buflen != 0).toNat + 32 * (s.ma.rows != 0).toNat
      + 64 * (s.mb.rows != 0).toNat) := by
  have hbits : ∀ f k n p b ma mb : Bool,
      statusBit f 0 ||| statusBit k 1 ||| statusBit n 2 ||| statusBit p 3 ||| statusBit b 4
          ||| statusBit ma 5 ||| statusBit mb 6 =
        BitVec.ofNat 32 (f.toNat + 2 * k.toNat + 4 * n.toNat + 8 * p.toNat + 16 * b.toNat + 32 * ma.toNat
          + 64 * mb.toNat) := by decide
  exact hbits ..

/-- A CSRR writes the value its CSR has in the state before it (R84). -/
theorem exec_csrr_eq (s : State) (rd : RegIdx) {number : BitVec 8} {c : Csr} {v : Word}
    (hc : csrOfNumber number = some c) (hv : csrValue s c = v) :
    exec (.csrr rd number) s = .next { s with x := s.x.set rd v, cmdcnt := s.cmdcnt + 1 } := by
  rw [exec_csrr s hc, hv]
  rfl

/-- Settles O18: row by row, the CSR the number names and its value. -/
theorem csrrReadsTheTabledValue : Obligations.CsrrReadsTheTabledValue := by
  intro rd s
  have read {number : BitVec 8} {c : Csr} {v : Word} := exec_csrr_eq s rd (number := number) (c := c) (v := v)
  simp only [List.forall_mem_cons, List.not_mem_nil, false_imp_iff, implies_true, and_true]
  exact ⟨read rfl rfl, read rfl rfl, read rfl (statusWord_eq s), read rfl rfl, read rfl rfl, read rfl rfl,
    read rfl rfl, read rfl rfl, read rfl rfl, read rfl rfl, read rfl rfl, read rfl rfl, read rfl rfl,
    read rfl rfl, read rfl rfl, read rfl (BitVec.ofNat_toNat ..).symm, read rfl (BitVec.ofNat_toNat ..).symm,
    read rfl rfl, read rfl rfl, read rfl rfl, read rfl rfl, read rfl rfl, read rfl rfl, read rfl rfl,
    read rfl rfl⟩

end Sys2Proof.Proofs

namespace Sys2Proof.Safety

open Sys2Proof Sys2Proof.Machine Sys2Proof.Proofs

/-! ### The elements of a bank -/

/-- An element within the dimensions is one of its row (R16). -/
theorem BankOk.row_getElem? {p : Config.Params} {m : Bank} (h : BankOk p m) {r c : Nat} (hr : r < m.rows)
    (hc : c < m.cols) : (m.row r)[c]? = some (m.elem r c) := by
  have hlen : c < (m.row r).length := (h.row_length hr).symm ▸ hc
  rw [Bank.elem, List.getD_eq_getElem _ _ hlen, List.getElem?_eq_getElem hlen]

/-- A row without a `none` within its dimensions reads as its values (R17). -/
theorem BankOk.rowValues_of_initialised {p : Config.Params} {m : Bank} (h : BankOk p m) {r : Nat} (hr : r < m.rows)
    (hall : ∀ c, c < m.cols → m.elem r c ≠ none) (i : Nat) : ∃ vs, rowValues i (m.row r) = .ok vs := by
  cases hv : rowValues i (m.row r) with
  | ok vs => exact ⟨vs, rfl⟩
  | error j =>
    obtain ⟨c, -, hnone, -⟩ := rowValues_error.1 hv
    have hc : c < m.cols := h.row_length hr ▸ (List.getElem?_eq_some_iff.1 hnone).1
    rw [h.row_getElem? hr hc] at hnone
    exact absurd (Option.some.inj hnone) (hall c hc)

/-- A row whose first `none` is in column `c` gives that element's linear index (R18, R120). -/
theorem BankOk.rowValues_of_first_none {p : Config.Params} {m : Bank} (h : BankOk p m) {r c : Nat} (hr : r < m.rows)
    (hc : c < m.cols) (hnone : m.elem r c = none) (hfirst : ∀ d, d < c → m.elem r d ≠ none) (i : Nat) :
    rowValues i (m.row r) = .error (i + c) := by
  refine rowValues_error.2 ⟨c, rfl, by rw [h.row_getElem? hr hc, hnone], fun d hd => ?_⟩
  obtain ⟨v, hv⟩ := Option.ne_none_iff_exists'.1 (hfirst d hd)
  exact ⟨v, by rw [h.row_getElem? hr (hd.trans hc), hv]⟩

theorem BankOk.rowOf_of_initialised {p : Config.Params} {m : Bank} (h : BankOk p m) {r : Nat} (hr : r < m.rows)
    (hall : ∀ c, c < m.cols → m.elem r c ≠ none) : ∃ vs, rowOf m r = .ok vs := by
  obtain ⟨vs, hvs⟩ := h.rowValues_of_initialised hr hall 0
  exact ⟨vs, rowOf_ok.2 (rowValues_ok.1 hvs)⟩

theorem BankOk.rowOf_of_first_none {p : Config.Params} {m : Bank} (h : BankOk p m) {r c : Nat} (hr : r < m.rows)
    (hc : c < m.cols) (hnone : m.elem r c = none) (hfirst : ∀ d, d < c → m.elem r d ≠ none) :
    rowOf m r = .error ⟨.uninitElement, BitVec.ofNat 32 (r * m.cols + c)⟩ :=
  rowOf_error.2 ⟨_, h.rowValues_of_first_none hr hc hnone hfirst _, rfl⟩

/-- The elements of a bank with one element of a row replaced (R122). -/
theorem BankOk.elem_setRow_set {p : Config.Params} {m : Bank} (h : BankOk p m) {r c : Nat} (hr : r < m.rows)
    (hc : c < m.cols) (v : Option Felt) (r' c' : Nat) :
    (m.setRow r ((m.row r).set c v)).elem r' c' = if r' = r ∧ c' = c then v else m.elem r' c' := by
  have hcells : r < m.cells.length := h.rect.1 ▸ hr
  have hlen : c < (m.row r).length := (h.row_length hr).symm ▸ hc
  have hrow : (m.setRow r ((m.row r).set c v)).row r' = if r' = r then (m.row r).set c v else m.row r' := by
    by_cases hrr : r' = r
    · subst hrr
      simp [Bank.row, Bank.setRow, hcells]
    · simp [Bank.row, Bank.setRow, List.getElem?_set_ne (Ne.symm hrr), hrr]
  simp only [Bank.elem, hrow]
  by_cases hrr : r' = r
  · subst hrr
    by_cases hcc : c' = c
    · subst hcc
      simp [hlen]
    · simp [List.getElem?_set_ne (Ne.symm hcc), hcc]
  · simp [hrr]

end Sys2Proof.Safety

namespace Sys2Proof.Proofs

open Sys2Proof Sys2Proof.Machine Sys2Proof.Safety

/-! ### MSET, MGET and the row commands -/

section
variable {s : State} {b : BankSel} {ra rb rc : RegIdx}

/-- A check that passes, then the rest of the rule. -/
theorem bind_eq_of_ok {α β : Type} {r : Except Raise α} {f : α → Except Raise β} {a : α} (h : r = .ok a) :
    (r >>= f) = f a := by
  subst h
  rfl

/-- A check that raises is the rule's answer (R238). -/
theorem bind_eq_of_error {α β : Type} {r : Except Raise α} {f : α → Except Raise β} {e : Raise} (h : r = .error e) :
    (r >>= f) = .error e := by
  subst h
  rfl

theorem constructed_of_rows (h : (bankOf s b).rows ≠ 0) : constructed s b = .ok (bankOf s b) :=
  constructed_ok.2 ⟨rfl, h⟩

theorem constructed_of_index (h : s.x[ra].toNat < (bankOf s b).rows) : constructed s b = .ok (bankOf s b) :=
  constructed_of_rows (Nat.ne_of_gt (Nat.zero_lt_of_lt h))

theorem indexOperand_of_lt {bound : Nat} (h : s.x[ra].toNat < bound) :
    indexOperand s ra bound = .ok s.x[ra].toNat :=
  indexOperand_ok.2 ⟨h, rfl⟩

theorem fieldOperand_of_lt (h : s.x[ra].toNat < 257) : fieldOperand s ra = .ok (feltOf s.x[ra].toNat) :=
  fieldOperand_ok.2 (Nat.mod_eq_of_lt h).symm

/-- A bank replaced and the command counted, in the words of the statements. -/
theorem countCommand_setBank (s : State) (b : BankSel) (m : Bank) :
    countCommand (setBank s b m) = { setBank s b m with cmdcnt := s.cmdcnt + 1 } := by
  cases b <;> rfl

/-- MSET with its operands in range replaces one element of the subject bank (R122). -/
theorem exec_mset (hr : s.x[ra].toNat < (bankOf s b).rows) (hc : s.x[rb].toNat < (bankOf s b).cols)
    (hv : s.x[rc].toNat < 257) :
    exec (.mset b ra rb rc) s = .next (countCommand (setBank s b ((bankOf s b).setRow s.x[ra].toNat
      (((bankOf s b).row s.x[ra].toNat).set s.x[rb].toNat (some (feltOf s.x[rc].toNat)))))) := by
  refine finish_of_ok ?_
  rw [bind_eq_of_ok (constructed_of_index hr), bind_eq_of_ok (indexOperand_of_lt hr),
    bind_eq_of_ok (indexOperand_of_lt hc), bind_eq_of_ok (fieldOperand_of_lt hv)]
  rfl

/-- MGET with its indices in range comes down to the element they name (R123). -/
theorem exec_mget (rd : RegIdx) (hr : s.x[ra].toNat < (bankOf s b).rows) (hc : s.x[rb].toNat < (bankOf s b).cols) :
    exec (.mget b rd ra rb) s = finish (encode (.mget b rd ra rb)) s
      (((bankOf s b).elem s.x[ra].toNat s.x[rb].toNat).elim
        (.error ⟨.uninitElement, BitVec.ofNat 32 (s.x[ra].toNat * (bankOf s b).cols + s.x[rb].toNat)⟩)
        fun v => .ok (writeX s rd (feltWord v))) := by
  refine congrArg (finish _ s) ?_
  rw [bind_eq_of_ok (constructed_of_index hr), bind_eq_of_ok (indexOperand_of_lt hr),
    bind_eq_of_ok (indexOperand_of_lt hc)]
  cases (bankOf s b).elem s.x[ra].toNat s.x[rb].toNat <;> rfl

/-- MSCALE, its row index and factor in range, raises what reading its row raises (R125). -/
theorem exec_mscale_of_row_error {e : Raise} (hr : s.x[ra].toNat < (bankOf s b).rows) (hf : s.x[rb].toNat < 257)
    (herr : rowOf (bankOf s b) s.x[ra].toNat = .error e) :
    exec (.mscale b ra rb) s = .next (errorEntry e (encode (.mscale b ra rb)) s) := by
  refine finish_of_error ?_
  rw [bind_eq_of_ok (constructed_of_index hr), bind_eq_of_ok (indexOperand_of_lt hr),
    bind_eq_of_ok (fieldOperand_of_lt hf), bind_eq_of_error herr]

/-- MADDSR, its row indices and factor in range, reads its source row and then its destination row (R126). -/
theorem exec_maddsr (hsrc : s.x[ra].toNat < (bankOf s b).rows) (hdest : s.x[rb].toNat < (bankOf s b).rows)
    (hf : s.x[rc].toNat < 257) :
    exec (.maddsr b ra rb rc) s = finish (encode (.maddsr b ra rb rc)) s (do
      let src ← rowOf (bankOf s b) s.x[ra].toNat
      let dest ← rowOf (bankOf s b) s.x[rb].toNat
      pure (setBank s b ((bankOf s b).setRow s.x[rb].toNat
        ((addScaledRow dest src (feltOf s.x[rc].toNat)).map some)))) := by
  refine congrArg (finish _ s) ?_
  rw [bind_eq_of_ok (constructed_of_index hsrc), bind_eq_of_ok (indexOperand_of_lt hsrc),
    bind_eq_of_ok (indexOperand_of_lt hdest), bind_eq_of_ok (fieldOperand_of_lt hf)]

end

/-- Settles O29: with the operands in range both commands come down to the one element. -/
theorem msetAndMgetReachOneElement : Obligations.MsetAndMgetReachOneElement := by
  refine ⟨fun b ra rb rc s hok hr hc hv => ?_, fun b rd ra rb s hr hc => ?_⟩
  · have hexec := exec_mset hr hc hv
    rw [countCommand_setBank] at hexec
    exact ⟨_, hexec, rfl, rfl, hok.elem_setRow_set hr hc _⟩
  · rw [exec_mget rd hr hc]
    refine ⟨fun v hsome => ?_, fun hnone => ?_⟩
    · rw [hsome]
      rfl
    · rw [hnone]
      rfl

/-- Settles O34: the row read first that has a `none` gives the first one's linear index. -/
theorem rowCommandsRefuseUninitialisedElements : Obligations.RowCommandsRefuseUninitialisedElements := by
  intro b ra rb rc s c hok hr hc
  refine ⟨fun hnone hfirst => ?_, fun hdest hf hall hnone hfirst => ?_⟩
  · have herr := hok.rowOf_of_first_none hr hc hnone hfirst
    refine ⟨fun hf => exec_mscale_of_row_error hr hf herr, fun hdest hf => ?_⟩
    rw [exec_maddsr hr hdest hf, bind_eq_of_error herr]
    rfl
  · obtain ⟨vs, hvs⟩ := hok.rowOf_of_initialised hr hall
    rw [exec_maddsr hr hdest hf, bind_eq_of_ok hvs,
      bind_eq_of_error (hok.rowOf_of_first_none hdest hc hnone hfirst)]
    rfl

/-! ### The first `none` of a whole bank -/

/-- Reading a grid, every row before row `r` being initialised, raises what reading row `r` raises. -/
theorem gridValues_of_row_error {cols j : Nat} {row : List (Option Felt)} {cells : List (List (Option Felt))}
    {first r : Nat} (hrow : cells[r]? = some row) (herr : rowValues ((first + r) * cols) row = .error j)
    (hbefore : ∀ q, q < r → ∃ vs : List Felt, cells[q]? = some (vs.map some)) :
    gridValues cols first cells = .error j := by
  induction cells generalizing first r with
  | nil => simp at hrow
  | cons head rest ih =>
    cases r with
    | zero =>
      obtain rfl : head = row := by simpa using hrow
      rw [Nat.add_zero] at herr
      simp only [gridValues, herr]
    | succ r =>
      obtain ⟨vs, hvs⟩ := hbefore 0 r.succ_pos
      obtain rfl : head = vs.map some := by simpa using hvs
      have herr' : rowValues ((first + 1 + r) * cols) row = .error j := by
        rwa [show first + 1 + r = first + (r + 1) by omega]
      have hrest := ih (by simpa using hrow) herr' fun q hq => by simpa using hbefore (q + 1) (by omega)
      simp only [gridValues, rowValues_map_some, hrest]

end Sys2Proof.Proofs

namespace Sys2Proof.Safety

open Sys2Proof Sys2Proof.Machine Sys2Proof.Proofs

theorem BankOk.cells_getElem? {p : Config.Params} {m : Bank} (h : BankOk p m) {r : Nat} (hr : r < m.rows) :
    m.cells[r]? = some (m.row r) := by
  have hlen : r < m.cells.length := h.rect.1 ▸ hr
  rw [Bank.row, List.getD_eq_getElem _ _ hlen, List.getElem?_eq_getElem hlen]

/-- A bank raises UninitElement with the smallest linear index of a `none` (R18, R120). -/
theorem BankOk.gridOf_of_first_none {p : Config.Params} {m : Bank} (h : BankOk p m) {r c : Nat} (hr : r < m.rows)
    (hc : c < m.cols) (hnone : m.elem r c = none)
    (hfirst : ∀ r' c', r' < m.rows → c' < m.cols → m.elem r' c' = none → r * m.cols + c ≤ r' * m.cols + c') :
    gridOf m = .error ⟨.uninitElement, BitVec.ofNat 32 (r * m.cols + c)⟩ := by
  have hrow : rowValues ((0 + r) * m.cols) (m.row r) = .error (r * m.cols + c) := by
    rw [Nat.zero_add]
    refine h.rowValues_of_first_none hr hc hnone (fun d hd hd' => ?_) _
    have := hfirst r d hr (hd.trans hc) hd'
    omega
  refine gridOf_error.2 ⟨_, gridValues_of_row_error (h.cells_getElem? hr) hrow fun q hq => ?_, rfl⟩
  have hbefore : ∀ d, d < m.cols → m.elem q d ≠ none := fun d hd hd' => by
    have hle := hfirst q d (hq.trans hr) hd hd'
    have hmul : (q + 1) * m.cols ≤ r * m.cols := Nat.mul_le_mul_right _ hq
    rw [Nat.add_mul, Nat.one_mul] at hmul
    omega
  obtain ⟨vs, hvs⟩ := h.rowValues_of_initialised (hq.trans hr) hbefore 0
  exact ⟨vs, by rw [h.cells_getElem? (hq.trans hr), rowValues_ok.1 hvs]⟩

end Sys2Proof.Safety

namespace Sys2Proof.Proofs

open Sys2Proof Sys2Proof.Machine Sys2Proof.Safety

/-! ### MRREF, MINV and MDET before they compute -/

section
variable {s : State} {b : BankSel} {e : Raise}

theorem constructed_of_no_rows (h : (bankOf s b).rows = 0) :
    constructed s b = .error ⟨.noMatrix, bankNumber b⟩ :=
  constructed_error.2 ⟨h, rfl⟩

/-- The three commands on a whole bank raise what asking for the bank raises. -/
theorem exec_wholeBank_of_constructed_error {rd : RegIdx} (h : constructed s b = .error e) :
    ∀ i ∈ [Instr.mrref b, .minv b, .mdet b rd], exec i s = .next (errorEntry e (encode i) s) := by
  simp only [List.forall_mem_cons, List.not_mem_nil, false_imp_iff, implies_true, and_true]
  exact ⟨finish_of_error (bind_eq_of_error h), finish_of_error (bind_eq_of_error h),
    finish_of_error (bind_eq_of_error h)⟩

/-- MINV and MDET refuse a bank that is not square (R131, R132). -/
theorem exec_squareBank_of_not_square {rd : RegIdx} (hm : (bankOf s b).rows ≠ 0)
    (h : (bankOf s b).cols ≠ (bankOf s b).rows) :
    ∀ i ∈ [Instr.minv b, .mdet b rd], exec i s =
      .next (errorEntry ⟨.dimMismatch, BitVec.ofNat 32 (bankOf s b).cols⟩ (encode i) s) := by
  have hbank := constructed_of_rows hm
  have hraise : raiseIf ((bankOf s b).cols ≠ (bankOf s b).rows) .dimMismatch
      (BitVec.ofNat 32 (bankOf s b).cols) = .error ⟨.dimMismatch, BitVec.ofNat 32 (bankOf s b).cols⟩ :=
    raiseIf_error.2 ⟨h, rfl⟩
  simp only [List.forall_mem_cons, List.not_mem_nil, false_imp_iff, implies_true, and_true]
  exact ⟨finish_of_error ((bind_eq_of_ok hbank).trans (bind_eq_of_error hraise)),
    finish_of_error ((bind_eq_of_ok hbank).trans (bind_eq_of_error hraise))⟩

/-- MRREF raises what reading its bank raises. -/
theorem exec_mrref_of_grid_error (hm : (bankOf s b).rows ≠ 0) (h : gridOf (bankOf s b) = .error e) :
    exec (.mrref b) s = .next (errorEntry e (encode (.mrref b)) s) :=
  finish_of_error ((bind_eq_of_ok (constructed_of_rows hm)).trans (bind_eq_of_error h))

/-- So do MINV and MDET on a square bank. -/
theorem exec_squareBank_of_grid_error {rd : RegIdx} (hm : (bankOf s b).rows ≠ 0)
    (hsquare : (bankOf s b).cols = (bankOf s b).rows) (h : gridOf (bankOf s b) = .error e) :
    ∀ i ∈ [Instr.minv b, .mdet b rd], exec i s = .next (errorEntry e (encode i) s) := by
  have hbank := constructed_of_rows hm
  have hpass : raiseIf ((bankOf s b).cols ≠ (bankOf s b).rows) .dimMismatch
      (BitVec.ofNat 32 (bankOf s b).cols) = .ok () := raiseIf_ok.2 (not_not.2 hsquare)
  simp only [List.forall_mem_cons, List.not_mem_nil, false_imp_iff, implies_true, and_true]
  exact ⟨finish_of_error ((bind_eq_of_ok hbank).trans ((bind_eq_of_ok hpass).trans (bind_eq_of_error h))),
    finish_of_error ((bind_eq_of_ok hbank).trans ((bind_eq_of_ok hpass).trans (bind_eq_of_error h)))⟩

end

/-- Settles O41: the bank, then its shape, then its elements. -/
theorem wholeBankCommandsCheckInOrder : Obligations.WholeBankCommandsCheckInOrder := by
  refine fun b rd s => ⟨fun hrows => ?_, fun hrows hshape => ?_, fun r c hok hr hc hnone hfirst => ?_⟩
  · exact exec_wholeBank_of_constructed_error (constructed_of_no_rows hrows)
  · exact exec_squareBank_of_not_square hrows hshape
  · have hrows : (bankOf s b).rows ≠ 0 := Nat.ne_of_gt (Nat.zero_lt_of_lt hr)
    have herr := hok.gridOf_of_first_none hr hc hnone hfirst
    exact ⟨exec_mrref_of_grid_error hrows herr, fun hsquare => exec_squareBank_of_grid_error hrows hsquare herr⟩

end Sys2Proof.Proofs

/-!
SUPPORT. Stores and loads of cover memory (R43, R44, R47, R172, R173), and the commands that act at `CURSOR`
(R57, R178, R179, R181).
-/

namespace Sys2Proof.Proofs

open Sys2Proof Sys2Proof.Machine Sys2Proof.Safety

/-! ### Little-endian bytes -/

/-- `n` bytes of 8 bits are `8n` bits (R43, R44). -/
theorem two_pow_eight_mul (n : Nat) : 2 ^ (8 * n) = 256 ^ n := pow_mul 2 8 n

theorem leBytes_getElem (n v i : Nat) (h : i < (leBytes n v).length) :
    (leBytes n v)[i] = BitVec.ofNat 8 (v / 256 ^ i) := by
  induction n generalizing v i with
  | zero => simp [leBytes] at h
  | succ n ih =>
    cases i with
    | zero => simp [leBytes]
    | succ i =>
      simp only [leBytes, List.getElem_cons_succ]
      rw [ih, Nat.div_div_eq_div_mul, ← pow_succ']

/-- Only the low `8n` bits of the value are used (R44). -/
theorem leBytes_mod (n v : Nat) : leBytes n (v % 256 ^ n) = leBytes n v := by
  induction n generalizing v with
  | zero => rfl
  | succ n ih =>
    have hlow : BitVec.ofNat 8 (v % 256 ^ (n + 1)) = BitVec.ofNat 8 v := by
      apply BitVec.eq_of_toNat_eq
      simp only [BitVec.toNat_ofNat]
      exact Nat.mod_mod_of_dvd v (dvd_pow_self 256 n.succ_ne_zero)
    have hrest : v % 256 ^ (n + 1) / 256 = v / 256 % 256 ^ n := by
      rw [pow_succ', Nat.mod_mul_right_div_self]
    simp only [leBytes, hlow, hrest, ih]

theorem memWrite_mod (m : Memory) (addr n v : Nat) : memWrite m addr n (v % 2 ^ (8 * n)) = memWrite m addr n v := by
  rw [two_pow_eight_mul, memWrite, leBytes_mod, memWrite]

/-- What a little-endian store does to each byte of cover memory (R44). -/
theorem readByte_memWrite (m : Memory) (addr n v a : Nat) :
    readByte (memWrite m addr n v) a =
      if addr ≤ a ∧ a < addr + n then BitVec.ofNat 8 (v / 256 ^ (a - addr)) else readByte m a := by
  split_ifs with h
  · rw [memWrite, readByte_writeBytes, dif_pos (by simp only [leBytes_length]; omega), leBytes_getElem]
  · exact readByte_memWrite_other m (by omega)

/-- A little-endian read is the sum R43 gives. -/
theorem memRead_eq_sum (m : Memory) (addr n : Nat) :
    memRead m addr n = ∑ i ∈ Finset.range n, (readByte m (addr + i)).toNat * 2 ^ (8 * i) := by
  induction n generalizing addr with
  | zero => rfl
  | succ n ih =>
    rw [Finset.sum_range_succ', memRead, ih, Finset.mul_sum, add_comm]
    congr 1
    · refine Finset.sum_congr rfl fun i _ => ?_
      rw [show addr + 1 + i = addr + (i + 1) by omega, two_pow_eight_mul, two_pow_eight_mul, pow_succ]
      ring
    · simp

/-- Reading the bytes just written gives the low `8n` bits of the value (R47). -/
theorem memRead_memWrite (m : Memory) (addr n v : Nat) : memRead (memWrite m addr n v) addr n = v % 2 ^ (8 * n) := by
  rw [two_pow_eight_mul]
  induction n generalizing m addr v with
  | zero => simp [memRead, Nat.mod_one]
  | succ n ih =>
    have hfirst : readByte (memWrite m addr (n + 1) v) addr = BitVec.ofNat 8 v := by
      rw [readByte_memWrite, if_pos (by omega), Nat.sub_self, pow_zero, Nat.div_one]
    have hrest : memRead (memWrite m addr (n + 1) v) (addr + 1) n = v / 256 % 256 ^ n :=
      ih (Memory.write m addr (BitVec.ofNat 8 v)) (addr + 1) (v / 256)
    rw [memRead, hfirst, hrest, BitVec.toNat_ofNat, pow_succ' 256 n, Nat.mod_mul]

/-! ### Stores and loads -/

section
variable {s : State} {n : Nat} {rd ra rb : RegIdx} (w : Word)

/-- A store of `n` bytes that all lie below `BUFLEN` writes them and is counted (R41, R172). -/
theorem finish_storeBytes (h : s.x[ra].toNat + n ≤ s.buflen.toNat) :
    finish w s (storeBytes n ra rb s) = .next { s with
      cv := memWrite s.cv s.x[ra].toNat n s.x[rb].toNat, cmdcnt := s.cmdcnt + 1 } := by
  rw [← memWrite_mod]
  exact finish_of_ok (storeBytes_ok.2 ⟨h, rfl⟩)

theorem finish_storeBytes_beyond (h : s.buflen.toNat < s.x[ra].toNat + n) :
    finish w s (storeBytes n ra rb s) = .next (raised 12 s.x[ra] w s) :=
  finish_of_error (storeBytes_error.2 ⟨h, rfl⟩)

/-- A load of `n` bytes that all lie below `BUFLEN` writes its destination and is counted (R41, R173). -/
theorem finish_loadBytes (h : s.x[ra].toNat + n ≤ s.buflen.toNat) :
    finish w s (loadBytes n rd ra s) = .next { s with
      x := s.x.set rd (BitVec.ofNat 32 (memRead s.cv s.x[ra].toNat n)), cmdcnt := s.cmdcnt + 1 } :=
  finish_of_ok (loadBytes_ok.2 ⟨h, rfl⟩)

theorem finish_loadBytes_beyond (h : s.buflen.toNat < s.x[ra].toNat + n) :
    finish w s (loadBytes n rd ra s) = .next (raised 12 s.x[ra] w s) :=
  finish_of_error (loadBytes_error.2 ⟨h, rfl⟩)

end

/-- Settles O51: the three widths are one operation, whose bytes are those of `readByte_memWrite`. -/
theorem storesWriteLittleEndian : Obligations.StoresWriteLittleEndian := by
  intro ra rb s
  simp only [List.forall_mem_cons, List.not_mem_nil, false_imp_iff, implies_true, and_true]
  refine ⟨?_, ?_, ?_⟩
  all_goals
    exact ⟨fun h => ⟨_, finish_storeBytes _ h, readByte_memWrite _ _ _ _⟩, finish_storeBytes_beyond _⟩

/-- Settles O52: the three widths are one operation, whose value is the sum of `memRead_eq_sum`. -/
theorem loadsReadLittleEndian : Obligations.LoadsReadLittleEndian := by
  intro rd ra s
  simp only [List.forall_mem_cons, List.not_mem_nil, false_imp_iff, implies_true, and_true, ← memRead_eq_sum]
  refine ⟨?_, ?_, ?_⟩
  all_goals exact ⟨finish_loadBytes _, finish_loadBytes_beyond _⟩

/-- A store of `n` bytes and the load of the same bytes after it (R47). -/
theorem finish_store_then_load (s : State) (n : Nat) (rd ra rb : RegIdx) (wst wld : Word)
    (h : s.x[ra].toNat + n ≤ s.buflen.toNat) :
    ∃ cv', finish wst s (storeBytes n ra rb s) = .next { s with cv := cv', cmdcnt := s.cmdcnt + 1 } ∧
      finish wld { s with cv := cv', cmdcnt := s.cmdcnt + 1 }
          (loadBytes n rd ra { s with cv := cv', cmdcnt := s.cmdcnt + 1 }) = .next { s with
        cv := cv', x := s.x.set rd (BitVec.ofNat 32 (s.x[rb].toNat % 2 ^ (8 * n)))
        cmdcnt := s.cmdcnt + 2 } := by
  refine ⟨_, finish_storeBytes wst h, ?_⟩
  refine (finish_loadBytes wld ?_).trans ?_
  · exact h
  · rw [memRead_memWrite, BitVec.add_assoc]
    rfl

/-- Settles O53: the three widths are one pair of operations. -/
theorem storeThenLoadReturnsTheStoredBytes : Obligations.StoreThenLoadReturnsTheStoredBytes := by
  intro rd ra rb s
  simp only [List.forall_mem_cons, List.not_mem_nil, false_imp_iff, implies_true, and_true]
  exact ⟨finish_store_then_load s 1 rd ra rb _ _, finish_store_then_load s 2 rd ra rb _ _,
    finish_store_then_load s 4 rd ra rb _ _⟩

/-! ### The commands at `CURSOR` -/

section
variable {s : State} {rd ra : RegIdx}

/-- A register of at most 255 is a byte operand (R11). -/
theorem byteOperand_of_le (h : s.x[ra].toNat ≤ 255) : byteOperand s ra = .ok (s.x[ra].setWidth 8) :=
  if_pos h

theorem coverRange_of_fits {addr : Word} {n : Nat} {kind : ErrKind} (h : addr.toNat + n ≤ s.buflen.toNat) :
    coverRange s addr n kind = .ok () :=
  coverRange_ok.2 h

/-- EMBEDC of a byte, with eight bytes left at `CURSOR` (R178). -/
theorem exec_embedc (hv : s.x[ra].toNat ≤ 255) (h : s.cursor.toNat + 8 ≤ s.buflen.toNat) :
    exec (.embedc ra) s = .next (countCommand
      { embedAt s s.cursor.toNat (s.x[ra].setWidth 8) with cursor := s.cursor + 8 }) :=
  finish_of_ok ((bind_eq_of_ok (byteOperand_of_le hv)).trans (bind_eq_of_ok (coverRange_of_fits h)))

theorem exec_embedc_of_not_byte (hv : 255 < s.x[ra].toNat) :
    exec (.embedc ra) s = .next (raised 10 s.x[ra] (encode (.embedc ra)) s) :=
  finish_of_error (bind_eq_of_error (byteOperand_error.2 ⟨hv, rfl⟩))

/-- EMBEDC checks the value first, then the room (R178). -/
theorem exec_embedc_beyond (hv : s.x[ra].toNat ≤ 255) (h : s.buflen.toNat < s.cursor.toNat + 8) :
    exec (.embedc ra) s = .next (raised 5 s.cursor (encode (.embedc ra)) s) := by
  refine finish_of_error (e := ⟨.outOfSpace, s.cursor⟩) ?_
  exact (bind_eq_of_ok (byteOperand_of_le hv)).trans (bind_eq_of_error (coverRange_error.2 ⟨h, rfl⟩))

/-- EXTRACTC, with eight bytes left at `CURSOR` (R179). -/
theorem exec_extractc (h : s.cursor.toNat + 8 ≤ s.buflen.toNat) :
    exec (.extractc rd) s = .next (countCommand
      { writeX s rd (byteWord (extract8 (eightBytes s s.cursor.toNat))) with cursor := s.cursor + 8 }) :=
  finish_of_ok (bind_eq_of_ok (coverRange_of_fits h))

theorem exec_extractc_beyond (h : s.buflen.toNat < s.cursor.toNat + 8) :
    exec (.extractc rd) s = .next (raised 12 s.cursor (encode (.extractc rd)) s) :=
  finish_of_error (bind_eq_of_error (coverRange_error.2 ⟨h, rfl⟩))

/-- `CURSOR` does not wrap while it stays at or below `BUFLEN` (R27). -/
theorem cursor_advance_toNat (h : s.cursor.toNat + 8 ≤ s.buflen.toNat) :
    (s.cursor + 8).toNat = s.cursor.toNat + 8 := by
  have := s.buflen.isLt
  rw [BitVec.toNat_add]
  exact Nat.mod_eq_of_lt (by simp; omega)

end

/-- What `n` commands at `CURSOR` that complete do to a READY state, as far as the room for more of them goes
(R57, R178, R179). -/
structure CursorAdvanced (n : Nat) (s t : State) : Prop where
  ready : t.faulted = false
  payoff : t.payoff = s.payoff
  buflen : t.buflen = s.buflen
  cursor : t.cursor.toNat = s.cursor.toNat + 8 * n
  cmdcnt : t.cmdcnt = s.cmdcnt + BitVec.ofNat 32 n
  /-- EXTRACTC puts bytes into registers, so that what EMBEDC could take before it still can. -/
  bytes : ∀ r : RegIdx, s.x[r].toNat ≤ 255 → t.x[r].toNat ≤ 255

namespace CursorAdvanced

variable {n k : Nat} {s t u : State}

theorem refl (hready : s.faulted = false) : CursorAdvanced 0 s s :=
  ⟨hready, rfl, rfl, rfl, (BitVec.add_zero _).symm, fun _ h => h⟩

theorem trans (h : CursorAdvanced n s t) (h' : CursorAdvanced k t u) : CursorAdvanced (n + k) s u where
  ready := h'.ready
  payoff := h'.payoff.trans h.payoff
  buflen := h'.buflen.trans h.buflen
  cursor := by rw [h'.cursor, h.cursor]; omega
  cmdcnt := by rw [h'.cmdcnt, h.cmdcnt, BitVec.ofNat_add, BitVec.add_assoc]
  bytes r hr := h'.bytes r (h.bytes r hr)

/-- A command at `CURSOR` given a byte is still given one after others have completed. -/
theorem cursorCommand (h : CursorAdvanced n s t) {i : Instr} (hi : CursorCommand s i) : CursorCommand t i := by
  cases i with
  | extractc => trivial
  | embedc ra => exact h.bytes ra hi
  | _ => exact False.elim hi

end CursorAdvanced

section
variable {s : State} {i : Instr}

/-- EMBEDC of a byte and EXTRACTC complete where eight bytes are left (R178, R179). -/
theorem exec_cursorCommand (hi : CursorCommand s i) (hready : s.faulted = false)
    (h : s.cursor.toNat + 8 ≤ s.buflen.toNat) : ∃ t, exec i s = .next t ∧ CursorAdvanced 1 s t := by
  have hcursor := cursor_advance_toNat h
  cases i with
  | extractc rd =>
    refine ⟨_, exec_extractc h, hready, rfl, rfl, hcursor, rfl, fun r hr => ?_⟩
    change (readX (writeX s rd _) r).toNat ≤ 255
    rw [readX_writeX]
    split
    · rw [byteWord_toNat]
      exact Nat.le_of_lt_succ (BitVec.isLt _)
    · exact hr
  | embedc ra => exact ⟨_, exec_embedc hi h, hready, rfl, rfl, hcursor, rfl, fun _ hr => hr⟩
  | _ => exact False.elim hi

/-- A word whose row of the opcode table is known, and which passes its checks, is the row's command (R74). -/
theorem decode_of_row {w : Word} {row : OpRow}
    (hrow : opTable.find? (fun row => opField row.pattern == opField w) = some row)
    (hmask : w &&& row.mask = row.pattern) (hbuild : row.build w = i) (hknown : csrKnown i = true) :
    decode w = .ok i := by
  simp only [decode, hrow, hmask, hbuild, hknown, if_true]

theorem decode_encode_embedc (ra : RegIdx) : decode (encode (.embedc ra)) = .ok (.embedc ra) := by
  have hrow : opTable.find? (fun row => opField row.pattern == opField (encode (.embedc ra))) =
      some ⟨"EMBEDC", 0x59000000#32, 0xFFF0FFFF#32, fun w => .embedc (raField w)⟩ := by
    rw [encode, opField_formatR]
    rfl
  exact decode_of_row hrow (Laws.FixedBits.embedc ra) (congrArg Instr.embedc (raField_formatR ..)) rfl

theorem decode_encode_extractc (rd : RegIdx) : decode (encode (.extractc rd)) = .ok (.extractc rd) := by
  have hrow : opTable.find? (fun row => opField row.pattern == opField (encode (.extractc rd))) =
      some ⟨"EXTRACTC", 0x5A000000#32, 0xFF0FFFFF#32, fun w => .extractc (rdField w)⟩ := by
    rw [encode, opField_formatR]
    rfl
  exact decode_of_row hrow (Laws.FixedBits.extractc rd) (congrArg Instr.extractc (rdField_formatR ..)) rfl

theorem decode_encode_cursorCommand (hi : CursorCommand s i) : decode (encode i) = .ok i := by
  cases i with
  | extractc rd => exact decode_encode_extractc rd
  | embedc ra => exact decode_encode_embedc ra
  | _ => exact False.elim hi

theorem executeWord_cursorCommand (hi : CursorCommand s i) (hready : s.faulted = false)
    (h : s.cursor.toNat + 8 ≤ s.buflen.toNat) :
    ∃ t, executeWord (encode i) s = .next t ∧ CursorAdvanced 1 s t := by
  rw [executeWord_of_decode (decode_encode_cursorCommand hi) (.inl hready)]
  exact exec_cursorCommand hi hready h

end

/-- A run goes on from where its first word left off (R6). -/
theorem runWords_cons {w : Word} {s t : State} (rest : List Word) (h : executeWord w s = .next t) :
    runWords (w :: rest) s = runWords rest t := by
  simp only [runWords, h]

/-- As many commands at `CURSOR` as there is room for complete one after another (R181). -/
theorem runWords_cursorCommands {s : State} {commands : List Instr} (hready : s.faulted = false)
    (hcommands : ∀ i ∈ commands, CursorCommand s i)
    (hroom : s.cursor.toNat + 8 * commands.length ≤ s.buflen.toNat) :
    ∃ t, runWords (commands.map encode) s = .next t ∧ CursorAdvanced commands.length s t := by
  induction commands generalizing s with
  | nil => exact ⟨s, rfl, .refl hready⟩
  | cons i rest ih =>
    obtain ⟨hi, hrest⟩ := List.forall_mem_cons.1 hcommands
    rw [List.length_cons] at hroom ⊢
    obtain ⟨t, ht, hone⟩ := executeWord_cursorCommand hi hready (by omega)
    obtain ⟨u, hu, hmore⟩ := ih hone.ready (fun j hj => hone.cursorCommand (hrest j hj))
      (by rw [hone.cursor, hone.buflen]; omega)
    refine ⟨u, (runWords_cons _ ht).trans hu, ?_⟩
    rw [Nat.add_comm rest.length]
    exact hone.trans hmore

/-- Settles O57: the run completes while there is room, and after `CAPACITY` commands less than a block is left. -/
theorem capacityCountsTheCursorCommands : Obligations.CapacityCountsTheCursorCommands := by
  intro s commands hready hfresh hpayoff hcommands hcapacity
  obtain ⟨t, hrun, ht⟩ := runWords_cursorCommands hready hcommands (by rw [hfresh]; omega)
  have hcursor : t.cursor.toNat = s.payoff.toNat + 8 * commands.length := hfresh ▸ ht.cursor
  refine ⟨t, hrun, ht.ready, ht.payoff, ht.buflen, hcursor, ht.cmdcnt, fun hall => ?_⟩
  have hfull : t.buflen.toNat < t.cursor.toNat + 8 := by
    rw [ht.buflen, hcursor]
    omega
  exact ⟨fun _ => exec_extractc_beyond hfull, fun _ hv => exec_embedc_beyond hv hfull,
    fun _ hv => exec_embedc_of_not_byte hv⟩

end Sys2Proof.Proofs

/-!
SUPPORT. The encoding of commands (30_encoding.md): decoding and encoding are inverse to each other, which words are
illegal and what an illegal word does, and the run of LI32.
-/

namespace Sys2Proof.Proofs

open Sys2Proof Sys2Proof.Machine

/-! ### Which row a word has (R66, R70, R74) -/

/-- What decoding secures about a command: a row of the table has the word, and the row reads the command from it. -/
theorem row_of_decode {w : Word} {i : Instr} (h : decode w = .ok i) :
    ∃ row ∈ opTable, w &&& row.mask = row.pattern ∧ row.build w = i ∧ csrKnown i = true := by
  unfold decode at h
  split at h
  · cases h
  next row hrow =>
    split_ifs at h with hmask hknown
    cases h
    exact ⟨row, List.mem_of_find?_eq_some hrow, hmask, rfl, hknown⟩

/-- A word is rejected for its opcode exactly when no row of the table has the opcode (R70). -/
theorem decode_unknownOpcode_iff (w : Word) :
    decode w = .error .unknownOpcode ↔ opField w ∉ opTable.map fun row => opField row.pattern := by
  have hnone : opTable.find? (fun row => opField row.pattern == opField w) = none ↔
      opField w ∉ opTable.map fun row => opField row.pattern := by
    simp [List.find?_eq_none]
  rw [← hnone]
  unfold decode
  split
  next hrow => simp [hrow]
  next row hrow =>
    rw [hrow]
    split_ifs <;> simp

/-- The opcode as a number (R61). -/
theorem opField_toNat (w : Word) : (opField w).toNat = w.toNat / 2 ^ 24 := by
  have := w.isLt
  simp only [opField, BitVec.extractLsb'_toNat, Nat.shiftRight_eq_div_pow]
  omega

/-- The opcodes of the table are seven runs, one for each group of commands (R67). -/
theorem opTable_opcodes :
    (opTable.map fun row => opField row.pattern).map BitVec.toNat =
      List.range' 0x00 10 ++ List.range' 0x10 7 ++ List.range' 0x20 11 ++ List.range' 0x30 3
        ++ List.range' 0x40 4 ++ List.range' 0x50 11 ++ List.range' 0x60 5 := by
  rfl

/-! ### The CSR numbers (R23, R71) -/

/-- The numbers that name a CSR (R23) are the legal ones (R71): all 256 looked up. -/
theorem csrOfNumber_isSome : ∀ csr : BitVec 8, (csrOfNumber csr).isSome = csrNumberLegal csr := by decide

/-- The check of R71 in decoding is the well-formedness of a command. -/
theorem csrKnown_eq_wellFormed (i : Instr) : csrKnown i = i.wellFormed := by
  cases i with
  | csrr rd csr => exact csrOfNumber_isSome csr
  | _ => rfl

/-! ### A command's own word decodes to it -/

/-- A field all of whose bits a row's mask covers has the value the row's match gives it (R66). -/
theorem extractLsb'_of_masked {w mask pattern : Word} {start len : Nat} (h : w &&& mask = pattern)
    (hmask : mask.extractLsb' start len = BitVec.allOnes len) :
    w.extractLsb' start len = pattern.extractLsb' start len := by
  rw [← h, BitVec.extractLsb'_and, hmask, BitVec.and_allOnes]

open Laws in
/-- The bits a row fixes have its values in every command's word (R66). -/
theorem encode_fixedBits : ∀ i : Instr, FixedBits.Statement i
  | .nop => FixedBits.nop
  | .li .. => FixedBits.li ..
  | .lih .. => FixedBits.lih ..
  | .mov .. => FixedBits.mov ..
  | .csrr .. => FixedBits.csrr ..
  | .out .. => FixedBits.out ..
  | .errack => FixedBits.errack
  | .srst => FixedBits.srst
  | .kset .. => FixedBits.kset ..
  | .nset .. => FixedBits.nset ..
  | .fzero .. => FixedBits.fzero ..
  | .fone .. => FixedBits.fone ..
  | .fadd .. => FixedBits.fadd ..
  | .fmul .. => FixedBits.fmul ..
  | .fneg .. => FixedBits.fneg ..
  | .finv .. => FixedBits.finv ..
  | .feq .. => FixedBits.feq ..
  | .mnew .. => FixedBits.mnew ..
  | .mset .. => FixedBits.mset ..
  | .mget .. => FixedBits.mget ..
  | .mswap .. => FixedBits.mswap ..
  | .mscale .. => FixedBits.mscale ..
  | .maddsr .. => FixedBits.maddsr ..
  | .mappc .. => FixedBits.mappc ..
  | .mappr .. => FixedBits.mappr ..
  | .mrref .. => FixedBits.mrref ..
  | .minv .. => FixedBits.minv ..
  | .mdet .. => FixedBits.mdet ..
  | .ptset .. => FixedBits.ptset ..
  | .mvand .. => FixedBits.mvand ..
  | .isolve => FixedBits.isolve
  | .mseed .. => FixedBits.mseed ..
  | .mnext .. => FixedBits.mnext ..
  | .mxor .. => FixedBits.mxor ..
  | .mxorb => FixedBits.mxorb
  | .bcopen .. => FixedBits.bcopen ..
  | .cvst1 .. => FixedBits.cvst1 ..
  | .cvst2 .. => FixedBits.cvst2 ..
  | .cvst4 .. => FixedBits.cvst4 ..
  | .cvld1 .. => FixedBits.cvld1 ..
  | .cvld2 .. => FixedBits.cvld2 ..
  | .cvld4 .. => FixedBits.cvld4 ..
  | .embed .. => FixedBits.embed ..
  | .extract .. => FixedBits.extract ..
  | .embedc .. => FixedBits.embedc ..
  | .extractc .. => FixedBits.extractc ..
  | .cset .. => FixedBits.cset ..
  | .cget .. => FixedBits.cget ..
  | .peval .. => FixedBits.peval ..
  | .pshare => FixedBits.pshare
  | .eget .. => FixedBits.eget ..

/-- The opcode of a command's word is its row's (R66). -/
theorem opField_encode (i : Instr) : opField (encode i) = opField (Laws.maskAndMatch i).2 :=
  extractLsb'_of_masked (encode_fixedBits i) (by
    cases i with
    | _ =>
      dsimp only [Laws.maskAndMatch]
      rfl)

/-- The row with a command's opcode has its mask and match, and reads the operands back from its word
(R61, R63, R64, R65). -/
theorem row_of_command (i : Instr) :
    ∃ row, opTable.find? (fun row => opField row.pattern == opField (Laws.maskAndMatch i).2) = some row ∧
      (row.mask, row.pattern) = Laws.maskAndMatch i ∧ row.build (encode i) = i := by
  cases i with
  | _ =>
    dsimp only [Laws.maskAndMatch]
    exact ⟨_, rfl, rfl, by simp [encode]⟩

/-- Settles O1: the word has the command's opcode and its row's fixed bits, and its fields are the operands. -/
theorem decodeOfEncodeIsTheCommand : Obligations.DecodeOfEncodeIsTheCommand := by
  intro i hwf
  obtain ⟨row, hrow, hbits, hbuild⟩ := row_of_command i
  rw [← opField_encode] at hrow
  have hmask : encode i &&& row.mask = row.pattern := by
    have h := encode_fixedBits i
    rwa [Laws.FixedBits.Statement, ← hbits] at h
  exact decode_of_row hrow hmask hbuild ((csrKnown_eq_wellFormed i).trans hwf)

/-! ### A word that decodes is its command's own word -/

/-- A word is made up of its fields (R61). -/
theorem formatR_of_fields {w : Word} {op fn : BitVec 8} {rd ra rb rc : BitVec 4} (hop : w.extractLsb' 24 8 = op)
    (hrd : w.extractLsb' 20 4 = rd) (hra : w.extractLsb' 16 4 = ra) (hrb : w.extractLsb' 12 4 = rb)
    (hrc : w.extractLsb' 8 4 = rc) (hfn : w.extractLsb' 0 8 = fn) : formatR op rd ra rb rc fn = w := by
  subst hop hrd hra hrb hrc hfn
  have := w.isLt
  apply BitVec.eq_of_toNat_eq
  simp only [formatR_toNat, BitVec.extractLsb'_toNat, Nat.shiftRight_eq_div_pow]
  omega

/-- In format I the three low fields are one (R64). -/
theorem formatI_eq_formatR (w : Word) (op : BitVec 8) (rd : BitVec 4) :
    formatI op rd (immField w) =
      formatR op rd 0 (w.extractLsb' 12 4) (w.extractLsb' 8 4) (w.extractLsb' 0 8) := by
  apply BitVec.eq_of_toNat_eq
  simp only [formatI_toNat, formatR_toNat, immField, BitVec.extractLsb'_toNat, Nat.shiftRight_eq_div_pow,
    BitVec.ofNat_eq_ofNat, BitVec.toNat_ofNat]
  omega

/-- `v` is the field of `w` that begins at bit `start`, provided the bits of it that `mask` covers are 0. -/
def FieldIs (w mask : Word) (start : Nat) {len : Nat} (v : BitVec len) : Prop :=
  (w &&& mask).extractLsb' start len = 0 → w.extractLsb' start len = v

namespace FieldIs

variable {w mask : Word} {start len : Nat}

/-- An operand's field is the word's own (R61). -/
theorem operand : FieldIs w mask start (w.extractLsb' start len) := fun _ => rfl

/-- A field the command does not use is 0 (R66). -/
theorem unused (hmask : mask.extractLsb' start len = BitVec.allOnes len := by rfl) :
    FieldIs w mask start (0 : BitVec len) := fun h => by
  rwa [BitVec.extractLsb'_and, hmask, BitVec.and_allOnes] at h

/-- The function byte of format M is the bank bit after seven zeros (R63). -/
theorem bank (hmask : mask.extractLsb' 0 8 = 0xFE#8 := by rfl) : FieldIs w mask 0 (bankByte (bankField w)) := by
  have hbyte : ∀ fn : BitVec 8, fn &&& 0xFE#8 = 0 → fn = bankByte (if fn.getLsbD 0 then .B else .A) := by decide
  have hbit : (w.extractLsb' 0 8).getLsbD 0 = w.getLsbD 0 := by simp
  intro h
  rw [BitVec.extractLsb'_and, hmask] at h
  rw [bankField, ← hbit]
  exact hbyte _ h

end FieldIs

/-- A word that passes a row's check is assembled from the row's opcode and the fields as the row has them
(R61, R66). -/
theorem formatR_of_masked {w mask : Word} {op fn : BitVec 8} {rd ra rb rc : BitVec 4}
    (h : w &&& mask = formatR op 0 0 0 0 0)
    (hrd : FieldIs w mask 20 rd) (hra : FieldIs w mask 16 ra) (hrb : FieldIs w mask 12 rb) (hrc : FieldIs w mask 8 rc)
    (hfn : FieldIs w mask 0 fn) (hmask : mask.extractLsb' 24 8 = BitVec.allOnes 8 := by rfl) :
    formatR op rd ra rb rc fn = w := by
  have hop := (extractLsb'_of_masked h hmask).trans (opField_formatR ..)
  unfold FieldIs at hrd hra hrb hrc hfn
  rw [h] at hrd hra hrb hrc hfn
  exact formatR_of_fields hop (hrd (congrArg BitVec.ofFin (rdField_formatR ..)))
    (hra (congrArg BitVec.ofFin (raField_formatR ..))) (hrb (congrArg BitVec.ofFin (rbField_formatR ..)))
    (hrc (congrArg BitVec.ofFin (rcField_formatR ..))) (hfn (fnField_formatR ..))

/-- A word that passes the row's check is the word of the command the row reads from it: the fixed bits and the
operands are all of it (R66). -/
def RowFaithful (row : OpRow) : Prop := ∀ w : Word, w &&& row.mask = row.pattern → encode (row.build w) = w

open FieldIs

/-! The rows of R67 in the order of the tables: for each, what its command makes of the fields `rd`, `ra`, `rb`, `rc`
and the function byte. -/

theorem controlRows_faithful : ∀ row ∈ controlRows, RowFaithful row :=
  List.forall_iff_forall_mem.1 ⟨
    fun _ h => formatR_of_masked h unused unused unused unused unused,
    fun w h => (formatI_eq_formatR w ..).trans (formatR_of_masked h operand unused operand operand operand),
    fun w h => (formatI_eq_formatR w ..).trans (formatR_of_masked h operand unused operand operand operand),
    fun _ h => formatR_of_masked h operand operand unused unused unused,
    fun _ h => formatR_of_masked h operand unused unused unused operand,
    fun _ h => formatR_of_masked h unused operand unused unused unused,
    fun _ h => formatR_of_masked h unused unused unused unused unused,
    fun _ h => formatR_of_masked h unused unused unused unused unused,
    fun _ h => formatR_of_masked h unused operand unused unused unused,
    fun _ h => formatR_of_masked h unused operand unused unused unused⟩

theorem fieldAluRows_faithful : ∀ row ∈ fieldAluRows, RowFaithful row :=
  List.forall_iff_forall_mem.1 ⟨
    fun _ h => formatR_of_masked h operand unused unused unused unused,
    fun _ h => formatR_of_masked h operand unused unused unused unused,
    fun _ h => formatR_of_masked h operand operand operand unused unused,
    fun _ h => formatR_of_masked h operand operand operand unused unused,
    fun _ h => formatR_of_masked h operand operand unused unused unused,
    fun _ h => formatR_of_masked h operand operand unused unused unused,
    fun _ h => formatR_of_masked h operand operand operand unused unused⟩

theorem linearSystemRows_faithful : ∀ row ∈ linearSystemRows, RowFaithful row :=
  List.forall_iff_forall_mem.1 ⟨
    fun _ h => formatR_of_masked h unused operand operand unused bank,
    fun _ h => formatR_of_masked h unused operand operand operand bank,
    fun _ h => formatR_of_masked h operand operand operand unused bank,
    fun _ h => formatR_of_masked h unused operand operand unused bank,
    fun _ h => formatR_of_masked h unused operand operand unused bank,
    fun _ h => formatR_of_masked h unused operand operand operand bank,
    fun _ h => formatR_of_masked h unused unused unused unused bank,
    fun _ h => formatR_of_masked h unused unused unused unused bank,
    fun _ h => formatR_of_masked h unused unused unused unused bank,
    fun _ h => formatR_of_masked h unused unused unused unused bank,
    fun _ h => formatR_of_masked h operand unused unused unused bank⟩

theorem interpolationRows_faithful : ∀ row ∈ interpolationRows, RowFaithful row :=
  List.forall_iff_forall_mem.1 ⟨
    fun _ h => formatR_of_masked h unused operand operand operand unused,
    fun _ h => formatR_of_masked h unused unused unused unused bank,
    fun _ h => formatR_of_masked h unused unused unused unused unused⟩

theorem maskStreamRows_faithful : ∀ row ∈ maskStreamRows, RowFaithful row :=
  List.forall_iff_forall_mem.1 ⟨
    fun _ h => formatR_of_masked h unused operand operand unused unused,
    fun _ h => formatR_of_masked h operand unused unused unused unused,
    fun _ h => formatR_of_masked h operand operand unused unused unused,
    fun _ h => formatR_of_masked h unused unused unused unused unused⟩

theorem bitChannelRows_faithful : ∀ row ∈ bitChannelRows, RowFaithful row :=
  List.forall_iff_forall_mem.1 ⟨
    fun _ h => formatR_of_masked h unused operand operand unused unused,
    fun _ h => formatR_of_masked h unused operand operand unused unused,
    fun _ h => formatR_of_masked h unused operand operand unused unused,
    fun _ h => formatR_of_masked h unused operand operand unused unused,
    fun _ h => formatR_of_masked h operand operand unused unused unused,
    fun _ h => formatR_of_masked h operand operand unused unused unused,
    fun _ h => formatR_of_masked h operand operand unused unused unused,
    fun _ h => formatR_of_masked h unused operand operand unused unused,
    fun _ h => formatR_of_masked h operand operand unused unused unused,
    fun _ h => formatR_of_masked h unused operand unused unused unused,
    fun _ h => formatR_of_masked h operand unused unused unused unused⟩

theorem polyEvalRows_faithful : ∀ row ∈ polyEvalRows, RowFaithful row :=
  List.forall_iff_forall_mem.1 ⟨
    fun _ h => formatR_of_masked h unused operand operand unused unused,
    fun _ h => formatR_of_masked h operand operand unused unused unused,
    fun _ h => formatR_of_masked h operand operand unused unused unused,
    fun _ h => formatR_of_masked h unused unused unused unused unused,
    fun _ h => formatR_of_masked h operand operand unused unused unused⟩

/-- No row of the table ignores a bit (R66, R67). -/
theorem opTable_faithful : ∀ row ∈ opTable, RowFaithful row := by
  simp only [opTable, List.forall_mem_append]
  exact ⟨⟨⟨⟨⟨⟨controlRows_faithful, fieldAluRows_faithful⟩, linearSystemRows_faithful⟩,
    interpolationRows_faithful⟩, maskStreamRows_faithful⟩, bitChannelRows_faithful⟩, polyEvalRows_faithful⟩

/-- Settles O2: the word passes the check of a row, and every row is faithful. -/
theorem decodedWordIsTheCommandsWord : Obligations.DecodedWordIsTheCommandsWord := by
  intro w i h
  obtain ⟨row, hmem, hmask, rfl, hknown⟩ := row_of_decode h
  exact ⟨(csrKnown_eq_wellFormed _).symm.trans hknown, opTable_faithful row hmem w hmask⟩

/-! ### Illegal words (R70, R71) -/

/-- Settles O3: the opcodes R70 lists are those between the runs of the table. -/
theorem illegalOpcodesAndCsrNumbersAreThoseListed : Obligations.IllegalOpcodesAndCsrNumbersAreThoseListed := by
  constructor
  · intro w
    have hop := (opField w).isLt
    have hmem : opField w ∈ opTable.map (fun row => opField row.pattern) ↔
        (opField w).toNat ∈ (opTable.map fun row => opField row.pattern).map BitVec.toNat :=
      (List.mem_map_of_injective BitVec.toNat_injective).symm
    rw [decode_unknownOpcode_iff, hmem, opTable_opcodes, opField_toNat]
    rw [opField_toNat] at hop
    simp only [List.mem_append, List.mem_range'_1]
    omega
  · intro csr
    rw [csrOfNumber_isSome]
    simp [csrNumberLegal, or_assoc]

/-- In READY an illegal word is an error entry, whatever makes it illegal (R70, R240). -/
theorem executeWord_of_illegal {w : Word} {s : State} {e : Illegal} (hd : decode w = .error e)
    (hready : s.faulted = false) : executeWord w s = .next (errorEntry ⟨.illegalCommand, 0⟩ w s) := by
  simp [executeWord, hd, hready]

/-- Settles O7: the step takes the word, which raises. -/
theorem illegalWordRaisesInReady : Obligations.IllegalWordRaisesInReady := by
  intro s w rest e hinput hready hdecode
  rw [step_of_command hinput]
  exact executeWord_of_illegal hdecode hready

/-- Settles O4, word by word. -/
theorem exampleWordsDecode : Obligations.ExampleWordsDecode :=
  ⟨rfl, rfl, rfl, rfl, rfl, rfl, rfl, rfl⟩

/-! ### LI32 (R76, R81, R82) -/

/-- A command's own word executes the command in READY (R90). -/
theorem executeWord_encode {i : Instr} {s : State} (hwf : i.wellFormed = true) (hready : s.faulted = false) :
    executeWord (encode i) s = exec i s :=
  executeWord_of_decode (decodeOfEncodeIsTheCommand i hwf) (.inl hready)

/-- The halves of a 32-bit value (R76). -/
theorem li32_eq (rd : RegIdx) (v : Word) :
    li32 rd v = [.li rd (BitVec.ofNat 16 (v.toNat % 2 ^ 16)), .lih rd (BitVec.ofNat 16 (v.toNat / 2 ^ 16))] := by
  have hlow : v.extractLsb' 0 16 = BitVec.ofNat 16 (v.toNat % 2 ^ 16) := by
    apply BitVec.eq_of_toNat_eq
    simp
  have hhigh : v.extractLsb' 16 16 = BitVec.ofNat 16 (v.toNat / 2 ^ 16) := by
    apply BitVec.eq_of_toNat_eq
    simp [Nat.shiftRight_eq_div_pow]
  rw [li32, hlow, hhigh]

/-- The value LIH makes of the high half and the low half in the register (R81, R82). -/
theorem halves_append (v : Word) :
    v.extractLsb' 16 16 ++ ((v.extractLsb' 0 16).setWidth 32).extractLsb' 0 16 = v := by
  have := v.isLt
  apply BitVec.eq_of_toNat_eq
  rw [toNat_append_add]
  simp only [BitVec.extractLsb'_toNat, BitVec.toNat_setWidth, Nat.shiftRight_eq_div_pow]
  omega

theorem exec_li (rd : RegIdx) (imm16 : BitVec 16) (s : State) :
    exec (.li rd imm16) s = .next (countCommand (writeX s rd (imm16.setWidth 32))) := rfl

theorem exec_lih (rd : RegIdx) (imm16 : BitVec 16) (s : State) :
    exec (.lih rd imm16) s = .next (countCommand (writeX s rd (imm16 ++ (readX s rd).extractLsb' 0 16))) := rfl

/-- LIH of the high half, after LI of the low half has been executed: the value is in the register, and two commands
are counted (R81, R82, R90). -/
theorem exec_lih_after_li (rd : RegIdx) (v : Word) (s : State) :
    exec (.lih rd (v.extractLsb' 16 16)) (countCommand (writeX s rd ((v.extractLsb' 0 16).setWidth 32))) =
      .next { s with x := s.x.set rd v, cmdcnt := s.cmdcnt + 2 } := by
  have hread : readX (countCommand (writeX s rd ((v.extractLsb' 0 16).setWidth 32))) rd =
      (v.extractLsb' 0 16).setWidth 32 := (readX_writeX ..).trans (if_pos rfl)
  rw [exec_lih, hread, halves_append]
  simp [countCommand, writeX, BitVec.add_assoc]

/-- Settles O21: each of the two words runs as its command. -/
theorem li32LoadsTheWholeWord : Obligations.Li32LoadsTheWholeWord := by
  intro rd v s
  refine ⟨li32_eq rd v, fun hready => ?_⟩
  calc runWords ((li32 rd v).map encode) s
      = runWords [encode (.lih rd (v.extractLsb' 16 16))]
          (countCommand (writeX s rd ((v.extractLsb' 0 16).setWidth 32))) :=
        runWords_cons _ ((executeWord_encode rfl hready).trans (exec_li ..))
    _ = .next { s with x := s.x.set rd v, cmdcnt := s.cmdcnt + 2 } :=
        runWords_cons [] ((executeWord_encode rfl (by simpa)).trans (exec_lih_after_li ..))

end Sys2Proof.Proofs

/-!
SUPPORT. The moves and constants (R80 to R83, R85, R101, R102), the return from an error (R86, R244), and the code
parameters (R88, R89).
-/

namespace Sys2Proof.Proofs

open Sys2Proof Sys2Proof.Machine Sys2Proof.Safety

/-! ### ERRACK (R86, R241, R244) -/

theorem exec_errack (s : State) : exec .errack s = .next (countCommand (clearError s)) := rfl

/-- In READY, with the invariants, there is nothing for ERRACK to clear (R25; R34, 1). -/
theorem clearError_of_ready {s : State} (hs : Inv s) (hready : s.faulted = false) : clearError s = s := by
  obtain ⟨hcode, hinfo, hcmd, hseq⟩ := hs.ready_clear hready
  cases s
  simp_all only [clearError]

/-- Clearing the record undoes whatever the error entry wrote (R240, R244). -/
theorem clearError_raised (code : Nat) (info w : Word) (s : State) :
    clearError (raised code info w s) = clearError s := rfl

/-- A command begun in READY that ends in FAULTED has raised (R90, R240). -/
theorem raised_of_faulted {i : Instr} {s t : State} (hready : s.faulted = false) (ht : exec i s = .next t)
    (hfaulted : t.faulted = true) : ∃ code info, t = raised code info (encode i) s := by
  obtain ⟨t', ht', ⟨code, info, -, -, hraised⟩ | ⟨hclear, -⟩⟩ := commandRaisesOrCounts i s hready
  all_goals obtain rfl := Host.Outcome.next.inj (ht'.symm.trans ht)
  · exact ⟨code, info, hraised⟩
  · exact absurd hfaulted (by simp [hclear])

/-- Settles O19: ERRACK clears what a raising command wrote, and nothing else. -/
theorem errackClearsTheRecord : Obligations.ErrackClearsTheRecord := by
  refine ⟨exec_errack, fun i s t hs hready ht hfaulted => ?_⟩
  obtain ⟨code, info, rfl⟩ := raised_of_faulted hready ht hfaulted
  rw [exec_errack, clearError_raised, clearError_of_ready hs hready]
  rfl

/-! ### Moves and constants (R80 to R83, R85, R101, R102) -/

/-- A 16-bit immediate zero-extended keeps its value (R81). -/
theorem setWidth_imm16 (imm16 : BitVec 16) : imm16.setWidth 32 = BitVec.ofNat 32 imm16.toNat :=
  (BitVec.ofNat_toNat ..).symm

/-- The immediate over the low half of a word is their sum, the immediate shifted up (R82). -/
theorem imm16_append_low (imm16 : BitVec 16) (v : Word) :
    imm16 ++ v.extractLsb' 0 16 = BitVec.ofNat 32 (imm16.toNat * 2 ^ 16 + v.toNat % 2 ^ 16) := by
  have := imm16.isLt
  apply BitVec.eq_of_toNat_eq
  rw [toNat_append_add]
  simp only [BitVec.extractLsb'_toNat, BitVec.toNat_ofNat, Nat.shiftRight_zero]
  omega

/-- Settles O17: of the values written only those of LI and LIH are spelt otherwise in the model. -/
theorem movesAndConstantsComplete : Obligations.MovesAndConstantsComplete := by
  intro rd ra imm16 s
  refine ⟨rfl, ?li, ?lih, rfl, rfl, rfl, rfl⟩
  case li =>
    rw [exec_li, setWidth_imm16]
    rfl
  case lih =>
    rw [exec_lih, imm16_append_low]
    rfl

/-! ### The code parameters (R88, R89) -/

/-- A check whose condition is false lets the rule go on. -/
theorem raiseIf_of_not {p : Prop} [Decidable p] {kind : ErrKind} {info : Word} (h : ¬p) :
    raiseIf p kind info = .ok () :=
  raiseIf_ok.2 h

section
variable {s : State} {ra : RegIdx}

theorem exec_kset (hlow : 2 ≤ s.x[ra].toNat) (hhigh : s.x[ra].toNat ≤ 257) :
    exec (.kset ra) s = .next (countCommand { s with k := s.x[ra].toNat, n := 0 }) :=
  finish_of_ok (bind_eq_of_ok (raiseIf_of_not (not_or.2 ⟨not_lt.2 hlow, not_lt.2 hhigh⟩)))

theorem exec_kset_out_of_range (h : s.x[ra].toNat < 2 ∨ 257 < s.x[ra].toNat) :
    exec (.kset ra) s = .next (raised 6 s.x[ra] (encode (.kset ra)) s) :=
  finish_of_error (bind_eq_of_error (raiseIf_error.2 ⟨h, rfl⟩))

theorem exec_nset (hk : s.k ≠ 0) (hlow : s.k ≤ s.x[ra].toNat) (hhigh : s.x[ra].toNat ≤ 256) :
    exec (.nset ra) s = .next (countCommand { s with n := s.x[ra].toNat }) :=
  finish_of_ok (bind_eq_of_ok (raiseIf_of_not (not_or.2 ⟨hk, not_or.2 ⟨not_lt.2 hlow, not_lt.2 hhigh⟩⟩)))

theorem exec_nset_out_of_range (h : s.k = 0 ∨ s.x[ra].toNat < s.k ∨ 256 < s.x[ra].toNat) :
    exec (.nset ra) s = .next (raised 6 s.x[ra] (encode (.nset ra)) s) :=
  finish_of_error (bind_eq_of_error (raiseIf_error.2 ⟨h, rfl⟩))

end

/-- Settles O20: each command has one check, and the two cases of it are the two clauses. -/
theorem ksetAndNsetSetTheParameters : Obligations.KsetAndNsetSetTheParameters :=
  fun _ _ => ⟨exec_kset, exec_kset_out_of_range, exec_nset, exec_nset_out_of_range⟩

end Sys2Proof.Proofs

/-!
SUPPORT. The field ALU (R103 to R107): the laws of the field (R109), and FADD, FMUL, FNEG, FINV and FEQ, their
operands in range or refused.
-/

namespace Sys2Proof.Proofs

open Sys2Proof Sys2Proof.Machine Sys2Proof.Safety

/-! ### The laws of the field (R100, R109) -/

theorem fadd_comm (a b : Felt) : fadd a b = fadd b a := by
  simp only [fadd_eq, add_comm]

theorem fadd_assoc (a b c : Felt) : fadd (fadd a b) c = fadd a (fadd b c) := by
  simp only [fadd_eq, add_assoc]

theorem fadd_zero (a : Felt) : fadd a 0 = a := by
  rw [fadd_eq, add_zero]

theorem fadd_fneg (a : Felt) : fadd a (fneg a) = 0 := by
  rw [fadd_eq, fneg_eq, add_neg_cancel]

theorem fmul_comm (a b : Felt) : fmul a b = fmul b a := by
  simp only [fmul_eq, mul_comm]

theorem fmul_assoc (a b c : Felt) : fmul (fmul a b) c = fmul a (fmul b c) := by
  simp only [fmul_eq, mul_assoc]

theorem fmul_one (a : Felt) : fmul a 1 = a := by
  rw [fmul_eq, mul_one]

theorem fmul_fadd (a b c : Felt) : fmul a (fadd b c) = fadd (fmul a b) (fmul a c) := by
  simp only [fadd_eq, fmul_eq, mul_add]

/-- Fermat's little theorem for 257, on the values of R110. -/
theorem pow_256_mod_257 {v : Nat} (h0 : 0 < v) (hlt : v < 257) : v ^ 256 % 257 = 1 := by
  have hprime : Nat.Prime 257 := by norm_num
  have hcoprime : v.Coprime 257 := (Nat.coprime_of_lt_prime h0.ne' hlt hprime).symm
  have hfermat : v ^ Nat.totient 257 % 257 = 1 := Nat.ModEq.pow_totient hcoprime
  rwa [Nat.totient_prime hprime] at hfermat

/-- The reciprocal by the power of R110 is one: `a * a^255 = a^256 = 1`. -/
theorem fmul_finv {a : Felt} (h : a ≠ 0) : fmul a (finv a) = 1 := by
  ext
  calc (fmul a (finv a)).val
      = a.val ^ 256 % 257 := by rw [fmul_val, finv_val, Nat.mul_mod_mod, ← pow_succ']
    _ = 1 := pow_256_mod_257 (Nat.pos_of_ne_zero (Fin.val_ne_zero_iff.2 h)) a.isLt

/-- A reciprocal is unique, by the laws: `b = b * (a * finv a) = (a * b) * finv a = finv a` (R106). -/
theorem eq_finv_of_fmul {a b : Felt} (h : a ≠ 0) (hab : fmul a b = 1) : b = finv a := by
  calc b = fmul b (fmul a (finv a)) := by rw [fmul_finv h, fmul_one]
    _ = fmul (fmul a b) (finv a) := by rw [← fmul_assoc, fmul_comm b]
    _ = finv a := by rw [hab, fmul_comm, fmul_one]

theorem finv_ne_zero {a : Felt} (h : a ≠ 0) : finv a ≠ 0 := by
  intro hzero
  have hone := fmul_finv h
  rw [hzero, fmul_eq, mul_zero] at hone
  exact absurd hone (by decide)

/-! ### The operands (R108) -/

section
variable {s : State} {ra : RegIdx}

theorem fieldOperand_of_ge (h : 257 ≤ s.x[ra].toNat) : fieldOperand s ra = .error ⟨.domainError, s.x[ra]⟩ :=
  fieldOperand_error.2 ⟨h, rfl⟩

/-- A rule that starts with a field operand out of range raises (R108). -/
theorem finish_fieldOperand_of_ge (w : Word) (rule : Felt → Except Raise State) (h : 257 ≤ s.x[ra].toNat) :
    finish w s (fieldOperand s ra >>= rule) = .next (raised 2 s.x[ra] w s) :=
  finish_of_error (bind_eq_of_error (fieldOperand_of_ge h))

/-- A rule that starts with a field operand in range goes on with its value. -/
theorem finish_fieldOperand_of_lt (w : Word) (rule : Felt → Except Raise State) (h : s.x[ra].toNat < 257) :
    finish w s (fieldOperand s ra >>= rule) = finish w s (rule (feltOf s.x[ra].toNat)) :=
  congrArg (finish w s) (bind_eq_of_ok (fieldOperand_of_lt h))

/-- The commands with two field operands: with both in range the result `f` is written and the command counted; else
the first that is out of range is reported, `ra` before `rb` (R108). -/
theorem finish_two_fieldOperands (w : Word) (s : State) (rd ra rb : RegIdx) (f : Felt → Felt → Word) :
    let done := finish w s (do
      let a ← fieldOperand s ra
      let b ← fieldOperand s rb
      pure (writeX s rd (f a b)))
    (s.x[ra].toNat < 257 → s.x[rb].toNat < 257 → done = .next { s with
      x := s.x.set rd (f (feltOf s.x[ra].toNat) (feltOf s.x[rb].toNat)), cmdcnt := s.cmdcnt + 1 }) ∧
    (257 ≤ s.x[ra].toNat → done = .next (raised 2 s.x[ra] w s)) ∧
    (s.x[ra].toNat < 257 → 257 ≤ s.x[rb].toNat → done = .next (raised 2 s.x[rb] w s)) := by
  refine ⟨fun ha hb => ?_, finish_fieldOperand_of_ge w _, fun ha hb => ?_⟩
  · exact (finish_fieldOperand_of_lt w _ ha).trans (finish_fieldOperand_of_lt w _ hb)
  · exact (finish_fieldOperand_of_lt w _ ha).trans (finish_fieldOperand_of_ge w _ hb)

end

/-! ### The values written -/

theorem feltWord_fadd (v w : Nat) : feltWord (fadd (feltOf v) (feltOf w)) = BitVec.ofNat 32 ((v + w) % 257) :=
  congrArg (BitVec.ofNat 32) (Nat.add_mod v w 257).symm

theorem feltWord_fmul (v w : Nat) : feltWord (fmul (feltOf v) (feltOf w)) = BitVec.ofNat 32 ((v * w) % 257) :=
  congrArg (BitVec.ofNat 32) (Nat.mul_mod v w 257).symm

theorem feltWord_fneg {v : Nat} (h : v < 257) : feltWord (fneg (feltOf v)) = BitVec.ofNat 32 ((257 - v) % 257) := by
  rw [feltWord, fneg_val, feltOf_val, Nat.mod_eq_of_lt h]

theorem feltOf_inj {v w : Nat} (hv : v < 257) (hw : w < 257) : feltOf v = feltOf w ↔ v = w := by
  rw [Fin.ext_iff, feltOf_val, feltOf_val, Nat.mod_eq_of_lt hv, Nat.mod_eq_of_lt hw]

theorem feltOf_ne_zero {v : Nat} (h0 : 0 < v) (hlt : v < 257) : feltOf v ≠ 0 :=
  fun h => h0.ne' ((feltOf_inj hlt (by decide)).1 h)

/-- Field elements with product 1, on the values (R106). -/
theorem fmul_feltOf_eq_one_iff (v w : Nat) : fmul (feltOf v) (feltOf w) = 1 ↔ (v * w) % 257 = 1 := by
  rw [Fin.ext_iff, fmul_val, feltOf_val, feltOf_val, ← Nat.mul_mod]
  rfl

/-! ### FADD, FMUL, FNEG and FEQ (R103 to R105, R107) -/

/-- Settles O22: FADD is a command with two field operands. -/
theorem faddAddsInTheField : Obligations.FaddAddsInTheField := by
  intro rd ra rb s
  rw [← feltWord_fadd]
  exact finish_two_fieldOperands (encode (.fadd rd ra rb)) s rd ra rb fun a b => feltWord (fadd a b)

/-- Settles O23: FMUL is a command with two field operands. -/
theorem fmulMultipliesInTheField : Obligations.FmulMultipliesInTheField := by
  intro rd ra rb s
  rw [← feltWord_fmul]
  exact finish_two_fieldOperands (encode (.fmul rd ra rb)) s rd ra rb fun a b => feltWord (fmul a b)

/-- Settles O24: FNEG has one operand, in range or refused. -/
theorem fnegNegatesInTheField : Obligations.FnegNegatesInTheField := by
  intro rd ra s
  refine ⟨fun ha => ?_, finish_fieldOperand_of_ge _ _⟩
  rw [← feltWord_fneg ha]
  exact finish_fieldOperand_of_lt _ _ ha

/-- Settles O26: FEQ checks its operands as FADD does, and field elements are equal when their values are. -/
theorem feqComparesFieldElements : Obligations.FeqComparesFieldElements := by
  intro rd ra rb s
  obtain ⟨hvalue, hfirst, hsecond⟩ :=
    finish_two_fieldOperands (encode (.feq rd ra rb)) s rd ra rb fun a b => if a = b then 1 else 0
  refine ⟨fun ha hb => ?_, hfirst, hsecond⟩
  simp only [feltOf_inj ha hb] at hvalue
  exact hvalue ha hb

/-! ### FINV (R106) -/

section
variable {s : State} {ra : RegIdx}

theorem exec_finv (rd : RegIdx) (h0 : 0 < s.x[ra].toNat) (hlt : s.x[ra].toNat < 257) :
    exec (.finv rd ra) s = .next (countCommand (writeX s rd (feltWord (finv (feltOf s.x[ra].toNat))))) :=
  (finish_fieldOperand_of_lt _ _ hlt).trans
    (finish_of_ok (bind_eq_of_ok (raiseIf_of_not (feltOf_ne_zero h0 hlt))))

/-- 0 is in the field, and is refused by the check that follows (R106). -/
theorem exec_finv_of_zero (rd : RegIdx) (h : s.x[ra] = 0) :
    exec (.finv rd ra) s = .next (raised 2 0 (encode (.finv rd ra)) s) :=
  (finish_fieldOperand_of_lt _ _ (by simp [h])).trans
    (finish_of_error (bind_eq_of_error (raiseIf_error.2 ⟨by rw [h]; rfl, rfl⟩)))

end

/-- Settles O25: `y` is the value of `finv`, in range because it is not 0, and unique by the laws of the field. -/
theorem finvWritesTheUniqueInverse : Obligations.FinvWritesTheUniqueInverse := by
  intro rd ra s
  refine ⟨fun h0 hlt => ?inverse, ?refused⟩
  case inverse =>
    have hne := feltOf_ne_zero h0 hlt
    refine ⟨(finv (feltOf s.x[ra].toNat)).val, Fin.pos_iff_ne_zero.2 (finv_ne_zero hne), Fin.isLt _, ?_,
      fun z _ hz hinv => ?_, exec_finv rd h0 hlt⟩
    · rw [← fmul_feltOf_eq_one_iff, feltOf_felt]
      exact fmul_finv hne
    · rw [← eq_finv_of_fmul hne ((fmul_feltOf_eq_one_iff _ z).2 hinv), feltOf_val, Nat.mod_eq_of_lt hz]
  case refused =>
    rintro (hzero | hge)
    · have hword : s.x[ra] = 0 := BitVec.eq_of_toNat_eq hzero
      rw [exec_finv_of_zero rd hword, hword]
    · exact finish_fieldOperand_of_ge _ _ hge

/-- Settles O27: the laws one by one; FINV of 0 is refused. -/
theorem fieldLawsHold : Obligations.FieldLawsHold :=
  ⟨fun a b => ⟨fadd_comm a b, fmul_comm a b⟩,
    fun a b c => ⟨fadd_assoc a b c, fmul_assoc a b c, fmul_fadd a b c⟩,
    fun a => ⟨fadd_zero a, fmul_one a, fadd_fneg a⟩,
    fun _ => fmul_finv,
    fun rd _ _ => exec_finv_of_zero rd⟩

end Sys2Proof.Proofs

/-!
SUPPORT. The commands of the linear-system unit that work element by element or row by row (R120 to R128): MNEW, the
checks of MSET, MGET, MSWAP, MSCALE and MADDSR, the three row operations, and the two appends.
-/

namespace Sys2Proof.Proofs

open Sys2Proof Sys2Proof.Machine Sys2Proof.Safety

/-! ### A rule after its next check

Each lemma takes one check off the front of a rule: the rest of the rule goes on, or the command raises. -/

section
variable {s : State} {b : BankSel} {ra : RegIdx} {w : Word}

theorem finish_constructed_of_rows {rule : Bank → Except Raise State} (h : (bankOf s b).rows ≠ 0) :
    finish w s (constructed s b >>= rule) = finish w s (rule (bankOf s b)) :=
  congrArg (finish w s) (bind_eq_of_ok (constructed_of_rows h))

theorem finish_constructed_of_no_rows {rule : Bank → Except Raise State} (h : (bankOf s b).rows = 0) :
    finish w s (constructed s b >>= rule) = .next (raised 14 (bankNumber b) w s) :=
  finish_of_error (bind_eq_of_error (constructed_of_no_rows h))

theorem finish_indexOperand_of_lt {bound : Nat} {rule : Nat → Except Raise State} (h : s.x[ra].toNat < bound) :
    finish w s (indexOperand s ra bound >>= rule) = finish w s (rule s.x[ra].toNat) :=
  congrArg (finish w s) (bind_eq_of_ok (indexOperand_of_lt h))

theorem finish_indexOperand_of_ge {bound : Nat} {rule : Nat → Except Raise State} (h : bound ≤ s.x[ra].toNat) :
    finish w s (indexOperand s ra bound >>= rule) = .next (raised 8 s.x[ra] w s) :=
  finish_of_error (bind_eq_of_error (indexOperand_error.2 ⟨h, rfl⟩))

/-- The two checks the element and row commands begin with (R120), both passed. -/
theorem finish_rowIndex_of_lt {rule : Bank → Nat → Except Raise State} (h : s.x[ra].toNat < (bankOf s b).rows) :
    finish w s (constructed s b >>= fun m => indexOperand s ra m.rows >>= rule m) =
      finish w s (rule (bankOf s b) s.x[ra].toNat) :=
  (finish_constructed_of_rows (Nat.ne_of_gt (Nat.zero_lt_of_lt h))).trans (finish_indexOperand_of_lt h)

theorem finish_dimOperand_of_le {max : Nat} {rule : Nat → Except Raise State} (hlow : 1 ≤ s.x[ra].toNat)
    (hhigh : s.x[ra].toNat ≤ max) :
    finish w s (dimOperand s ra max >>= rule) = finish w s (rule s.x[ra].toNat) :=
  congrArg (finish w s) (bind_eq_of_ok (dimOperand_ok.2 ⟨⟨hlow, hhigh⟩, rfl⟩))

theorem finish_dimOperand_of_out_of_range {max : Nat} {rule : Nat → Except Raise State}
    (h : s.x[ra].toNat = 0 ∨ max < s.x[ra].toNat) :
    finish w s (dimOperand s ra max >>= rule) = .next (raised 13 s.x[ra] w s) := by
  have hout : ¬(1 ≤ s.x[ra].toNat ∧ s.x[ra].toNat ≤ max) := by omega
  exact finish_of_error (bind_eq_of_error (dimOperand_error.2 ⟨hout, rfl⟩))

theorem finish_raiseIf_of_not {p : Prop} [Decidable p] {kind : ErrKind} {info : Word}
    {rule : Unit → Except Raise State} (h : ¬p) :
    finish w s (raiseIf p kind info >>= rule) = finish w s (rule ()) :=
  congrArg (finish w s) (bind_eq_of_ok (raiseIf_of_not h))

theorem finish_raiseIf_of {p : Prop} [Decidable p] {kind : ErrKind} {info : Word}
    {rule : Unit → Except Raise State} (h : p) :
    finish w s (raiseIf p kind info >>= rule) = .next (errorEntry ⟨kind, info⟩ w s) :=
  finish_of_error (bind_eq_of_error (raiseIf_error.2 ⟨h, rfl⟩))

/-- A rule that is left with replacing a bank completes, in the words of the statements. -/
theorem finish_setBank (w : Word) (s : State) (b : BankSel) (m : Bank) :
    finish w s (pure (setBank s b m)) = .next { setBank s b m with cmdcnt := s.cmdcnt + 1 } :=
  congrArg _ (countCommand_setBank s b m)

end

/-! ### MNEW (R121) -/

section
variable {s : State} {b : BankSel} {ra rb : RegIdx}

/-- A matrix of uninitialised elements has no other (R17). -/
theorem elem_replicate_none (rows cols r c : Nat) :
    (Bank.mk rows cols (List.replicate rows (List.replicate cols none))).elem r c = none := by
  simp only [Bank.elem, Bank.row, List.getD_eq_getElem?_getD, List.getElem?_replicate]
  split
  · simp only [Option.getD_some, List.getElem?_replicate]
    split <;> rfl
  · rfl

theorem exec_mnew (hr : 1 ≤ s.x[ra].toNat) (hr' : s.x[ra].toNat ≤ s.params.matMaxRows)
    (hc : 1 ≤ s.x[rb].toNat) (hc' : s.x[rb].toNat ≤ s.params.matMaxCols) :
    exec (.mnew b ra rb) s = .next { setBank s b ⟨s.x[ra].toNat, s.x[rb].toNat,
      List.replicate s.x[ra].toNat (List.replicate s.x[rb].toNat none)⟩ with cmdcnt := s.cmdcnt + 1 } :=
  (finish_dimOperand_of_le hr hr').trans <| (finish_dimOperand_of_le hc hc').trans <| finish_setBank ..

theorem exec_mnew_of_rows_out_of_range (h : s.x[ra].toNat = 0 ∨ s.params.matMaxRows < s.x[ra].toNat) :
    exec (.mnew b ra rb) s = .next (raised 13 s.x[ra] (encode (.mnew b ra rb)) s) :=
  finish_dimOperand_of_out_of_range h

theorem exec_mnew_of_cols_out_of_range (hr : 1 ≤ s.x[ra].toNat) (hr' : s.x[ra].toNat ≤ s.params.matMaxRows)
    (h : s.x[rb].toNat = 0 ∨ s.params.matMaxCols < s.x[rb].toNat) :
    exec (.mnew b ra rb) s = .next (raised 13 s.x[rb] (encode (.mnew b ra rb)) s) :=
  (finish_dimOperand_of_le hr hr').trans (finish_dimOperand_of_out_of_range h)

end

/-- Settles O28: two dimension operands, then a table of `none`. -/
theorem mnewConstructsAnUninitialisedMatrix : Obligations.MnewConstructsAnUninitialisedMatrix := by
  refine fun b ra rb s => ⟨fun hr hr' hc hc' => ?_, exec_mnew_of_rows_out_of_range, exec_mnew_of_cols_out_of_range⟩
  exact ⟨_, exec_mnew hr hr' hc hc', rfl, rfl, .of_rect ⟨hr, hr', hc, hc'⟩ (.replicate _ _ none),
    elem_replicate_none _ _⟩

/-! ### The order of checks (R120) -/

section
variable {s : State} {b : BankSel} {rd ra rb rc : RegIdx}

/-- The five commands on an element or a row begin alike: the bank, then a row index (R120). -/
theorem exec_rowCommand :
    ∀ i ∈ [Instr.mset b ra rb rc, .mget b rd ra rb, .mswap b ra rb, .mscale b ra rb, .maddsr b ra rb rc],
      ∃ rule : Bank → Nat → Except Raise State, exec i s =
        finish (encode i) s (constructed s b >>= fun m => indexOperand s ra m.rows >>= rule m) := by
  simp only [List.forall_mem_cons, List.not_mem_nil, false_imp_iff, implies_true, and_true]
  exact ⟨⟨_, rfl⟩, ⟨_, rfl⟩, ⟨_, rfl⟩, ⟨_, rfl⟩, ⟨_, rfl⟩⟩

/-- MSET and MGET go on with a column index. -/
theorem exec_elementCommand (hr : s.x[ra].toNat < (bankOf s b).rows) :
    ∀ i ∈ [Instr.mset b ra rb rc, .mget b rd ra rb], ∃ rule : Nat → Except Raise State,
      exec i s = finish (encode i) s (indexOperand s rb (bankOf s b).cols >>= rule) := by
  simp only [List.forall_mem_cons, List.not_mem_nil, false_imp_iff, implies_true, and_true]
  exact ⟨⟨_, finish_rowIndex_of_lt hr⟩, ⟨_, finish_rowIndex_of_lt hr⟩⟩

/-- MSWAP and MADDSR go on with a second row index. -/
theorem exec_rowPairCommand (hr : s.x[ra].toNat < (bankOf s b).rows) :
    ∀ i ∈ [Instr.mswap b ra rb, .maddsr b ra rb rc], ∃ rule : Nat → Except Raise State,
      exec i s = finish (encode i) s (indexOperand s rb (bankOf s b).rows >>= rule) := by
  simp only [List.forall_mem_cons, List.not_mem_nil, false_imp_iff, implies_true, and_true]
  exact ⟨⟨_, finish_rowIndex_of_lt hr⟩, ⟨_, finish_rowIndex_of_lt hr⟩⟩

/-- MSCALE goes on with its factor. -/
theorem exec_mscale_of_factor_ge (hr : s.x[ra].toNat < (bankOf s b).rows) (hf : 257 ≤ s.x[rb].toNat) :
    exec (.mscale b ra rb) s = .next (raised 2 s.x[rb] (encode (.mscale b ra rb)) s) :=
  (finish_rowIndex_of_lt hr).trans <| finish_fieldOperand_of_ge _ _ hf

theorem exec_mset_of_value_ge (hr : s.x[ra].toNat < (bankOf s b).rows) (hc : s.x[rb].toNat < (bankOf s b).cols)
    (hv : 257 ≤ s.x[rc].toNat) :
    exec (.mset b ra rb rc) s = .next (raised 2 s.x[rc] (encode (.mset b ra rb rc)) s) :=
  (finish_rowIndex_of_lt hr).trans <| (finish_indexOperand_of_lt hc).trans <|
    finish_fieldOperand_of_ge _ _ hv

theorem exec_maddsr_of_factor_ge (hsrc : s.x[ra].toNat < (bankOf s b).rows)
    (hdest : s.x[rb].toNat < (bankOf s b).rows) (hf : 257 ≤ s.x[rc].toNat) :
    exec (.maddsr b ra rb rc) s = .next (raised 2 s.x[rc] (encode (.maddsr b ra rb rc)) s) :=
  (finish_rowIndex_of_lt hsrc).trans <| (finish_indexOperand_of_lt hdest).trans <|
    finish_fieldOperand_of_ge _ _ hf

end

/-- Settles O30: check by check, each passed one leaving the rest of the rule. -/
theorem elementAndRowCommandsCheckInOrder : Obligations.ElementAndRowCommandsCheckInOrder := by
  intro b rd ra rb rc s
  refine ⟨fun hrows i hi => ?noMatrix, fun hrows hr i hi => ?firstIndex, fun hr =>
    ⟨fun hc i hi => ?column, fun hr' i hi => ?secondRow, exec_mscale_of_factor_ge hr, fun hv =>
      ⟨fun hc => exec_mset_of_value_ge hr hc hv, fun hr' => exec_maddsr_of_factor_ge hr hr' hv⟩⟩⟩
  case noMatrix =>
    obtain ⟨rule, hexec⟩ := exec_rowCommand i hi
    exact hexec.trans (finish_constructed_of_no_rows hrows)
  case firstIndex =>
    obtain ⟨rule, hexec⟩ := exec_rowCommand i hi
    exact hexec.trans ((finish_constructed_of_rows hrows).trans (finish_indexOperand_of_ge hr))
  case column =>
    obtain ⟨rule, hexec⟩ := exec_elementCommand hr i hi
    exact hexec.trans (finish_indexOperand_of_ge hc)
  case secondRow =>
    obtain ⟨rule, hexec⟩ := exec_rowPairCommand hr i hi
    exact hexec.trans (finish_indexOperand_of_ge hr')

/-! ### MSWAP, MSCALE and MADDSR (R124 to R126) -/

section
variable {α : Type}

/-- What row is read after one was replaced. -/
theorem getD_set_row {g : List (List α)} {r : Nat} (hr : r < g.length) (row : List α) (r' : Nat) :
    (g.set r row).getD r' [] = if r' = r then row else g.getD r' [] := by
  simp only [List.getD_eq_getElem?_getD, List.getElem?_set]
  by_cases h : r' = r
  · simp [h, hr]
  · simp [h, Ne.symm h]

/-- What row is read after two changed places (R124, R129). -/
theorem getD_swapRows {g : List (List α)} {i j : Nat} (hi : i < g.length) (hj : j < g.length) (r : Nat) :
    (swapRows g i j).getD r [] = g.getD (if r = i then j else if r = j then i else r) [] := by
  rw [swapRows, getD_set_row (by simpa using hj), getD_set_row hi]
  by_cases hri : r = i
  · by_cases hij : i = j <;> simp [hri, hij]
  · by_cases hrj : r = j <;> simp_all

end

/-- The elements of a bank with a row replaced. -/
theorem elem_setRow {m : Bank} {r : Nat} (hr : r < m.cells.length) (row : List (Option Felt)) (r' c : Nat) :
    (m.setRow r row).elem r' c = if r' = r then row.getD c none else m.elem r' c := by
  have hrow : (m.setRow r row).row r' = if r' = r then row else m.row r' := getD_set_row hr row r'
  rw [Bank.elem, hrow]
  split <;> rfl

theorem getD_map_some (vs : List Felt) (c : Nat) : (vs.map some).getD c none = vs[c]? := by
  rw [List.getD_eq_getElem?_getD, List.getElem?_map]
  cases vs[c]? <;> rfl

/-- An element of a row of initialised elements is its value there (R17). -/
theorem elem_of_rowOf {m : Bank} {r : Nat} {vs : List Felt} (h : rowOf m r = .ok vs) (c : Nat) :
    m.elem r c = vs[c]? := by
  rw [Bank.elem, rowOf_ok.1 h, getD_map_some]

/-- The lanes of MSCALE (R125). -/
theorem scaleRow_getElem? (f : Nat) (vs : List Felt) (c : Nat) :
    (scaleRow (feltOf f) vs)[c]? = vs[c]?.map fun v => feltOf (v.val * f) := by
  rw [scaleRow, List.getElem?_map]
  refine congrArg (fun lane => vs[c]?.map lane) (funext fun v => Fin.ext ?_)
  simp only [fmul_val, feltOf_val, Nat.mul_mod_mod]

/-- The lanes of MADDSR (R126). -/
theorem addScaledRow_getElem? (f : Nat) (ds vs : List Felt) (c : Nat) :
    (addScaledRow ds vs (feltOf f))[c]? =
      ds[c]?.bind fun d => vs[c]?.map fun v => feltOf (d.val + v.val * f) := by
  have hlane : ∀ d v, fadd d (fmul v (feltOf f)) = feltOf (d.val + v.val * f) := fun d v => Fin.ext <| by
    simp only [fadd_val, fmul_val, feltOf_val, Nat.mul_mod_mod, Nat.add_mod_mod]
  simp only [addScaledRow, List.getElem?_zipWith, hlane]
  cases ds[c]? <;> cases vs[c]? <;> rfl

section
variable {s : State} {b : BankSel} {ra rb rc : RegIdx}

theorem exec_mswap (hi : s.x[ra].toNat < (bankOf s b).rows) (hj : s.x[rb].toNat < (bankOf s b).rows) :
    exec (.mswap b ra rb) s = .next { setBank s b { bankOf s b with
      cells := swapRows (bankOf s b).cells s.x[ra].toNat s.x[rb].toNat } with cmdcnt := s.cmdcnt + 1 } :=
  (finish_rowIndex_of_lt hi).trans <| (finish_indexOperand_of_lt hj).trans <| finish_setBank ..

theorem exec_mscale {vs : List Felt} (hr : s.x[ra].toNat < (bankOf s b).rows) (hf : s.x[rb].toNat < 257)
    (hrow : rowOf (bankOf s b) s.x[ra].toNat = .ok vs) :
    exec (.mscale b ra rb) s = .next { setBank s b ((bankOf s b).setRow s.x[ra].toNat
      ((scaleRow (feltOf s.x[rb].toNat) vs).map some)) with cmdcnt := s.cmdcnt + 1 } :=
  (finish_rowIndex_of_lt hr).trans <| (finish_fieldOperand_of_lt _ _ hf).trans <|
    (congrArg (finish _ s) (bind_eq_of_ok hrow)).trans <| finish_setBank ..

theorem exec_maddsr_of_rows {vs ds : List Felt} (hsrc : s.x[ra].toNat < (bankOf s b).rows)
    (hdest : s.x[rb].toNat < (bankOf s b).rows) (hf : s.x[rc].toNat < 257)
    (hvs : rowOf (bankOf s b) s.x[ra].toNat = .ok vs) (hds : rowOf (bankOf s b) s.x[rb].toNat = .ok ds) :
    exec (.maddsr b ra rb rc) s = .next { setBank s b ((bankOf s b).setRow s.x[rb].toNat
      ((addScaledRow ds vs (feltOf s.x[rc].toNat)).map some)) with cmdcnt := s.cmdcnt + 1 } := by
  rw [exec_maddsr hsrc hdest hf, bind_eq_of_ok hvs, bind_eq_of_ok hds]
  exact finish_setBank ..

end

/-- Settles O31: reading a row after two changed places. -/
theorem mswapExchangesRows : Obligations.MswapExchangesRows := by
  intro b ra rb s hok hi hj
  refine ⟨_, exec_mswap hi hj, rfl, rfl, fun r c => ?_⟩
  have hlen := hok.rect.1
  exact congrArg (fun row => row.getD c none) (getD_swapRows (hlen ▸ hi) (hlen ▸ hj) r)

/-- Settles O32: the row replaced is the old one, lane by lane times the factor. -/
theorem mscaleScalesOneRow : Obligations.MscaleScalesOneRow := by
  intro b ra rb s hok hr hf hall
  obtain ⟨vs, hvs⟩ := hok.rowOf_of_initialised hr hall
  refine ⟨_, exec_mscale hr hf hvs, rfl, rfl, fun r c => ?_⟩
  rw [elem_setRow (hok.rect.1 ▸ hr), getD_map_some, scaleRow_getElem?]
  split
  next h => rw [h, elem_of_rowOf hvs]
  next => rfl

/-- Settles O33: both rows are read before the destination is replaced. -/
theorem maddsrAddsAScaledRow : Obligations.MaddsrAddsAScaledRow := by
  intro b ra rb rc s hok hsrc hdest hf hsrcAll hdestAll
  obtain ⟨vs, hvs⟩ := hok.rowOf_of_initialised hsrc hsrcAll
  obtain ⟨ds, hds⟩ := hok.rowOf_of_initialised hdest hdestAll
  refine ⟨_, exec_maddsr_of_rows hsrc hdest hf hvs hds, rfl, rfl, fun r c => ?_⟩
  rw [elem_setRow (hok.rect.1 ▸ hdest), getD_map_some, addScaledRow_getElem?, elem_of_rowOf hvs]
  split
  next h => rw [h, elem_of_rowOf hds]
  next => rfl

/-! ### MAPPC and MAPPR (R127, R128) -/

section
variable {s : State} {b : BankSel}

/-- The appends begin alike: the subject bank, then the other (R127, R128). -/
theorem exec_append : ∀ i ∈ [Instr.mappc b, .mappr b], ∃ rule : Bank → Bank → Except Raise State, exec i s =
    finish (encode i) s (constructed s b >>= fun m => constructed s (otherBank b) >>= rule m) := by
  simp only [List.forall_mem_cons, List.not_mem_nil, false_imp_iff, implies_true, and_true]
  exact ⟨⟨_, rfl⟩, ⟨_, rfl⟩⟩

theorem exec_mappc_of_banks (hm : (bankOf s b).rows ≠ 0) (ho : (bankOf s (otherBank b)).rows ≠ 0) :
    exec (.mappc b) s = finish (encode (.mappc b)) s (do
      let m := bankOf s b
      let o := bankOf s (otherBank b)
      raiseIf (m.rows ≠ o.rows) .dimMismatch (BitVec.ofNat 32 o.rows)
      raiseIf (m.cols + o.cols > s.params.matMaxCols) .operandRange (BitVec.ofNat 32 (m.cols + o.cols))
      pure (setBank s b ⟨m.rows, m.cols + o.cols, List.zipWith (· ++ ·) m.cells o.cells⟩)) :=
  (finish_constructed_of_rows hm).trans (finish_constructed_of_rows ho)

theorem exec_mappr_of_banks (hm : (bankOf s b).rows ≠ 0) (ho : (bankOf s (otherBank b)).rows ≠ 0) :
    exec (.mappr b) s = finish (encode (.mappr b)) s (do
      let m := bankOf s b
      let o := bankOf s (otherBank b)
      raiseIf (m.cols ≠ o.cols) .dimMismatch (BitVec.ofNat 32 o.cols)
      raiseIf (m.rows + o.rows > s.params.matMaxRows) .operandRange (BitVec.ofNat 32 (m.rows + o.rows))
      pure (setBank s b ⟨m.rows + o.rows, m.cols, m.cells ++ o.cells⟩)) :=
  (finish_constructed_of_rows hm).trans (finish_constructed_of_rows ho)

theorem exec_mappc (hm : (bankOf s b).rows ≠ 0) (ho : (bankOf s (otherBank b)).rows ≠ 0)
    (hrows : (bankOf s b).rows = (bankOf s (otherBank b)).rows)
    (hfit : (bankOf s b).cols + (bankOf s (otherBank b)).cols ≤ s.params.matMaxCols) :
    exec (.mappc b) s = .next { setBank s b ⟨(bankOf s b).rows, (bankOf s b).cols + (bankOf s (otherBank b)).cols,
      List.zipWith (· ++ ·) (bankOf s b).cells (bankOf s (otherBank b)).cells⟩ with cmdcnt := s.cmdcnt + 1 } :=
  (exec_mappc_of_banks hm ho).trans <| (finish_raiseIf_of_not (not_not.2 hrows)).trans <|
    (finish_raiseIf_of_not (not_lt.2 hfit)).trans <| finish_setBank ..

theorem exec_mappr (hm : (bankOf s b).rows ≠ 0) (ho : (bankOf s (otherBank b)).rows ≠ 0)
    (hcols : (bankOf s b).cols = (bankOf s (otherBank b)).cols)
    (hfit : (bankOf s b).rows + (bankOf s (otherBank b)).rows ≤ s.params.matMaxRows) :
    exec (.mappr b) s = .next { setBank s b ⟨(bankOf s b).rows + (bankOf s (otherBank b)).rows, (bankOf s b).cols,
      (bankOf s b).cells ++ (bankOf s (otherBank b)).cells⟩ with cmdcnt := s.cmdcnt + 1 } :=
  (exec_mappr_of_banks hm ho).trans <| (finish_raiseIf_of_not (not_not.2 hcols)).trans <|
    (finish_raiseIf_of_not (not_lt.2 hfit)).trans <| finish_setBank ..

end

/-- Settles O36: two banks, then two checks on their dimensions. -/
theorem appendsRaiseInOrder : Obligations.AppendsRaiseInOrder := by
  refine fun b s => ⟨fun hm i hi => ?subject, fun hm ho i hi => ?other, fun hm ho =>
    ⟨fun hrows => ?rowsDiffer, fun hcols => ?colsDiffer, fun hrows hwide => ?tooWide, fun hcols htall => ?tooTall⟩⟩
  case subject =>
    obtain ⟨rule, hexec⟩ := exec_append i hi
    exact hexec.trans (finish_constructed_of_no_rows hm)
  case other =>
    obtain ⟨rule, hexec⟩ := exec_append i hi
    exact hexec.trans ((finish_constructed_of_rows hm).trans (finish_constructed_of_no_rows ho))
  case rowsDiffer => exact (exec_mappc_of_banks hm ho).trans (finish_raiseIf_of hrows)
  case colsDiffer => exact (exec_mappr_of_banks hm ho).trans (finish_raiseIf_of hcols)
  case tooWide =>
    exact (exec_mappc_of_banks hm ho).trans ((finish_raiseIf_of_not (not_not.2 hrows)).trans (finish_raiseIf_of hwide))
  case tooTall =>
    exact (exec_mappr_of_banks hm ho).trans ((finish_raiseIf_of_not (not_not.2 hcols)).trans (finish_raiseIf_of htall))

/-- A row made of two, read at a column: the first holds as many columns as it is long. -/
theorem getD_append_row {α : Type} (row row' : List (Option α)) (c : Nat) :
    (row ++ row').getD c none = if c < row.length then row.getD c none else row'.getD (c - row.length) none := by
  simp only [List.getD_eq_getElem?_getD, List.getElem?_append]
  split <;> rfl

/-- Below its last row a bank has no elements. -/
theorem elem_of_rows_le {m : Bank} {r : Nat} (h : m.cells.length ≤ r) (c : Nat) : m.elem r c = none := by
  simp [Bank.elem, Bank.row, List.getElem?_eq_none h]

section
variable {p : Config.Params} {m o : Bank}

/-- The elements of two banks side by side (R127). -/
theorem elem_beside (hm : BankOk p m) (ho : BankOk p o) (hrows : m.rows = o.rows) (r c : Nat) :
    (Bank.mk m.rows (m.cols + o.cols) (List.zipWith (· ++ ·) m.cells o.cells)).elem r c =
      if c < m.cols then m.elem r c else o.elem r (c - m.cols) := by
  have hmlen := hm.rect.1
  have holen := ho.rect.1
  by_cases hr : r < m.rows
  · have hrow : (Bank.mk m.rows (m.cols + o.cols) (List.zipWith (· ++ ·) m.cells o.cells)).row r =
        m.row r ++ o.row r := by
      rw [Bank.row, List.getD_eq_getElem?_getD, List.getElem?_zipWith, hm.cells_getElem? hr,
        ho.cells_getElem? (hrows ▸ hr)]
      rfl
    rw [Bank.elem, hrow, getD_append_row, hm.row_length hr]
    rfl
  · have hnew : (List.zipWith (· ++ ·) m.cells o.cells).length ≤ r := by simp; omega
    rw [elem_of_rows_le hnew, elem_of_rows_le (by omega), elem_of_rows_le (by omega), ite_self]

/-- The elements of two banks one below the other (R128). -/
theorem elem_below (hm : BankOk p m) (r c : Nat) :
    (Bank.mk (m.rows + o.rows) m.cols (m.cells ++ o.cells)).elem r c =
      if r < m.rows then m.elem r c else o.elem (r - m.rows) c := by
  have hrow : (Bank.mk (m.rows + o.rows) m.cols (m.cells ++ o.cells)).row r =
      if r < m.rows then m.row r else o.row (r - m.rows) := by
    simp only [Bank.row, List.getD_eq_getElem?_getD, List.getElem?_append, hm.rect.1]
    split <;> rfl
  rw [Bank.elem, hrow]
  split <;> rfl

end

/-- Settles O35: with both checks passed, the rows, or the tables, are put together. -/
theorem appendsComposeTheTwoBanks : Obligations.AppendsComposeTheTwoBanks := by
  intro b s hmok hook hm ho
  exact ⟨fun hrows hfit => ⟨_, exec_mappc hm ho hrows hfit, rfl, rfl, elem_beside hmok hook hrows⟩,
    fun hcols hfit => ⟨_, exec_mappr hm ho hcols hfit, rfl, rfl, elem_below hmok⟩⟩

end Sys2Proof.Proofs

/-!
SUPPORT. Elimination (R129) as row operations: what each operation does to the entries of a grid, and the square matrix
it multiplies the grid by, with its determinant.
-/

namespace Sys2Proof.Proofs

open Sys2Proof Sys2Proof.Machine Sys2Proof.Safety

/-! ### Field elements as elements of `ZMod 257` (R100) -/

/-- A field element in Mathlib's field of 257 elements. -/
def toZ (a : Felt) : ZMod 257 := (a.val : ZMod 257)

theorem toZ_zero : toZ 0 = 0 := Nat.cast_zero

theorem toZ_one : toZ 1 = 1 := Nat.cast_one

theorem toZ_fadd (a b : Felt) : toZ (fadd a b) = toZ a + toZ b := by
  rw [toZ, fadd_val, ZMod.natCast_mod, Nat.cast_add]
  rfl

theorem toZ_fmul (a b : Felt) : toZ (fmul a b) = toZ a * toZ b := by
  rw [toZ, fmul_val, ZMod.natCast_mod, Nat.cast_mul]
  rfl

theorem toZ_fneg (a : Felt) : toZ (fneg a) = -toZ a := by
  rw [toZ, fneg_val, ZMod.natCast_mod, Nat.cast_sub a.isLt.le, ZMod.natCast_self, zero_sub]
  rfl

theorem toZ_finv {a : Felt} (h : a ≠ 0) : toZ (finv a) * toZ a = 1 := by
  rw [← toZ_fmul, fmul_comm, fmul_finv h, toZ_one]

theorem toZ_val (a : Felt) : (toZ a).val = a.val := ZMod.val_cast_of_lt a.isLt

theorem toZ_inj {a b : Felt} : toZ a = toZ b ↔ a = b := by
  refine ⟨fun h => Fin.ext ?_, congrArg toZ⟩
  rw [← toZ_val, ← toZ_val, h]

theorem fmul_zero (a : Felt) : fmul a 0 = 0 := by
  rw [fmul_eq, mul_zero]

theorem zero_fmul (a : Felt) : fmul 0 a = 0 := by
  rw [fmul_comm, fmul_zero]

theorem fneg_zero : fneg 0 = 0 := by decide

theorem finv_one : finv 1 = 1 := by
  rw [finv, Fin.val_one, one_pow]
  rfl

/-! ### The entries of a grid after a row operation -/

section
variable {rows cols : Nat} {g : Grid}

theorem getD_scaleRow (f : Felt) (row : List Felt) (c : Nat) :
    (scaleRow f row).getD c 0 = fmul (row.getD c 0) f := by
  simp only [scaleRow, List.getD_eq_getElem?_getD, List.getElem?_map]
  cases row[c]? with
  | none => exact (zero_fmul f).symm
  | some v => rfl

theorem getD_addScaledRow {dest src : List Felt} (h : dest.length = src.length) (f : Felt) (c : Nat) :
    (addScaledRow dest src f).getD c 0 = fadd (dest.getD c 0) (fmul (src.getD c 0) f) := by
  by_cases hc : c < dest.length
  · have hc' : c < src.length := h ▸ hc
    simp [addScaledRow, hc, hc']
  · have hc' : src.length ≤ c := h ▸ not_lt.1 hc
    simp [addScaledRow, hc', not_lt.1 hc, zero_fmul, fadd_zero]

theorem entry_set {r : Nat} (hr : r < g.length) (row : List Felt) (r' c : Nat) :
    entry (g.set r row) r' c = if r' = r then row.getD c 0 else entry g r' c := by
  rw [entry, gridRow, getD_set_row hr]
  split <;> rfl

theorem entry_swapRows {i j : Nat} (hi : i < g.length) (hj : j < g.length) (r c : Nat) :
    entry (swapRows g i j) r c = entry g (if r = i then j else if r = j then i else r) c :=
  congrArg (fun row => row.getD c 0) (getD_swapRows hi hj r)

/-- Clearing a column leaves the rows that are not picked, and adds to a picked row the multiple of the pivot row that
its own element asks for (R129). -/
theorem entry_eliminate (h : Rect rows cols g) {pivotRow : List Felt} (hp : pivotRow.length = cols)
    (sel : Nat → Bool) (col : Nat) {r : Nat} (hr : r < rows) (c : Nat) :
    entry (eliminate sel pivotRow col 0 g) r c =
      if sel r then fadd (entry g r c) (fmul (pivotRow.getD c 0) (fneg (entry g r col))) else entry g r c := by
  obtain ⟨hlen, hrows⟩ := h
  have hr' : r < g.length := hlen ▸ hr
  have hrow : gridRow g r = g[r] := List.getD_eq_getElem _ _ hr'
  have hnew : gridRow (eliminate sel pivotRow col 0 g) r = _ :=
    (List.getD_eq_getElem _ _ (by simpa using hr')).trans (eliminate_getElem sel pivotRow col 0 g r hr')
  simp only [entry, hrow, hnew, Nat.zero_add]
  split
  · exact getD_addScaledRow ((hrows _ (List.getElem_mem hr')).trans hp.symm) _ c
  · rfl

/-- Clearing a column changes nothing if the rows picked have a 0 there. -/
theorem eliminate_eq_self (h : Rect rows cols g) {pivotRow : List Felt} (hp : pivotRow.length = cols)
    {sel : Nat → Bool} {col : Nat} (hzero : ∀ r, r < rows → sel r = true → entry g r col = 0) :
    eliminate sel pivotRow col 0 g = g := by
  obtain ⟨hlen, hrows⟩ := h
  refine List.ext_getElem (by simp) fun r _ hr => ?_
  rw [eliminate_getElem _ _ _ _ _ _ hr, Nat.zero_add]
  split
  next hsel =>
    have hcol : g[r].getD col 0 = 0 := by
      rw [← List.getD_eq_getElem g [] hr]
      exact hzero r (hlen ▸ hr) hsel
    have hwidth := hrows _ (List.getElem_mem hr)
    rw [hcol, fneg_zero]
    exact List.ext_getElem (by simp [hwidth, hp]) fun c _ _ => by simp [addScaledRow, fmul_zero, fadd_zero]
  next => rfl

end

/-! ### A row operation as a matrix -/

/-- The entries of `cols` columns of a grid, from column `first` on. -/
def gridBlock (rows cols first : Nat) (g : Grid) : Matrix (Fin rows) (Fin cols) (ZMod 257) :=
  Matrix.of fun i j => toZ (entry g i (first + j))

theorem gridBlock_apply {rows cols : Nat} (first : Nat) (g : Grid) (i : Fin rows) (j : Fin cols) :
    gridBlock rows cols first g i j = toZ (entry g i (first + j)) := rfl

/-- The second grid is the first one multiplied from the left by a square matrix, whose determinant `d` undoes: `d`
times the determinant of the second grid is that of the first. -/
def RowTransform (rows : Nat) (d : ZMod 257) (g g' : Grid) : Prop :=
  ∃ E : Matrix (Fin rows) (Fin rows) (ZMod 257), E.det * d = 1 ∧
    ∀ cols first, gridBlock rows cols first g' = E * gridBlock rows cols first g

theorem val_swap {rows i j : Nat} (hi : i < rows) (hj : j < rows) (r : Fin rows) :
    (Equiv.swap (⟨i, hi⟩ : Fin rows) ⟨j, hj⟩ r : Nat) =
      if (r : Nat) = i then j else if (r : Nat) = j then i else r := by
  simp only [Equiv.swap_apply_def, Fin.ext_iff]
  split
  · rfl
  · split <;> rfl

section
/-- The matrix of clearing column `col` with row `p`, in the rows picked (R129). -/
def clearMatrix {rows : Nat} (p : Fin rows) (sel : Nat → Bool) (col : Nat) (g : Grid) :
    Matrix (Fin rows) (Fin rows) (ZMod 257) :=
  1 + Matrix.replicateCol Unit (fun r : Fin rows => if sel r then -toZ (entry g r col) else 0) *
    Matrix.replicateRow Unit (Pi.single p (1 : ZMod 257))

theorem clearMatrix_det {rows : Nat} {p : Fin rows} {sel : Nat → Bool} (hsel : sel p = false) (col : Nat) (g : Grid) :
    (clearMatrix p sel col g).det = 1 := by
  rw [clearMatrix, Matrix.det_one_add_replicateCol_mul_replicateRow, single_one_dotProduct, hsel]
  simp

theorem clearMatrix_mul_apply {rows cols : Nat} (p : Fin rows) (sel : Nat → Bool) (col : Nat) (g : Grid)
    (M : Matrix (Fin rows) (Fin cols) (ZMod 257)) (r : Fin rows) (c : Fin cols) :
    (clearMatrix p sel col g * M) r c = M r c + (if sel r then -toZ (entry g r col) else 0) * M p c := by
  rw [clearMatrix, Matrix.add_mul, Matrix.one_mul, Matrix.mul_assoc, Matrix.add_apply, Matrix.mul_apply]
  simp [Matrix.mul_apply, Pi.single_apply]

variable {rows cols : Nat} {d d' : ZMod 257} {g g' g'' : Grid}

namespace RowTransform

theorem refl (rows : Nat) (g : Grid) : RowTransform rows 1 g g :=
  ⟨1, by simp, fun _ _ => (Matrix.one_mul _).symm⟩

theorem trans (h : RowTransform rows d g g') (h' : RowTransform rows d' g' g'') :
    RowTransform rows (d * d') g g'' := by
  obtain ⟨E, hdet, hE⟩ := h
  obtain ⟨E', hdet', hE'⟩ := h'
  refine ⟨E' * E, ?_, fun cols first => by rw [hE', hE, Matrix.mul_assoc]⟩
  calc (E' * E).det * (d * d') = (E'.det * d') * (E.det * d) := by rw [Matrix.det_mul]; ring
    _ = 1 := by rw [hdet, hdet', mul_one]

/-- The determinant of a square grid, from that of the grid it becomes. -/
theorem det_eq {n : Nat} (h : RowTransform n d g g') :
    (gridBlock n n 0 g).det = d * (gridBlock n n 0 g').det := by
  obtain ⟨E, hdet, hE⟩ := h
  rw [hE, Matrix.det_mul, ← mul_assoc, mul_comm d, hdet, one_mul]

/-- The two grids send the same vectors to 0. -/
theorem mulVec_eq_zero_iff (h : RowTransform rows d g g') (v : Fin cols → ZMod 257) :
    (gridBlock rows cols 0 g).mulVec v = 0 ↔ (gridBlock rows cols 0 g').mulVec v = 0 := by
  obtain ⟨E, hdet, hE⟩ := h
  have hunit : IsUnit E := (Matrix.isUnit_iff_isUnit_det E).2 (.of_mul_eq_one d hdet)
  rw [hE, ← Matrix.mulVec_mulVec]
  constructor
  · intro hv
    rw [hv, Matrix.mulVec_zero]
  · intro hv
    exact Matrix.mulVec_injective_of_isUnit hunit (hv.trans (Matrix.mulVec_zero E).symm)

/-- Swapping two rows changes the sign of the determinant (R124). -/
theorem swapRows {i j : Nat} (hlen : g.length = rows) (hi : i < rows) (hj : j < rows) (hne : i ≠ j) :
    RowTransform rows (-1) g (swapRows g i j) := by
  refine ⟨(1 : Matrix _ _ _).submatrix (Equiv.swap ⟨i, hi⟩ ⟨j, hj⟩) id, ?_, fun cols first => ?_⟩
  · rw [Matrix.det_permute, Equiv.Perm.sign_swap (by simpa using hne)]
    simp
  · have hmul := Matrix.one_submatrix_mul (Equiv.swap ⟨i, hi⟩ ⟨j, hj⟩) (Equiv.refl _) (gridBlock rows cols first g)
    refine Eq.trans ?_ hmul.symm
    ext r c
    rw [Matrix.submatrix_apply, gridBlock_apply, gridBlock_apply, entry_swapRows (hlen ▸ hi) (hlen ▸ hj),
      ← val_swap hi hj]
    rfl

/-- Scaling a row divides the determinant by what undoes the factor (R125). -/
theorem scaleRow {p : Nat} {f : Felt} (hlen : g.length = rows) (hp : p < rows) (hf : toZ f * d = 1) :
    RowTransform rows d g (g.set p (scaleRow f (gridRow g p))) := by
  refine ⟨Matrix.diagonal (Function.update 1 ⟨p, hp⟩ (toZ f)), ?_, fun cols first => ?_⟩
  · rw [Matrix.det_diagonal, Finset.prod_update_of_mem (Finset.mem_univ _)]
    simpa using hf
  · ext r c
    rw [Matrix.diagonal_mul, gridBlock_apply, gridBlock_apply, entry_set (hlen ▸ hp)]
    by_cases hr : (r : Nat) = p
    · obtain rfl : r = ⟨p, hp⟩ := Fin.ext hr
      rw [if_pos rfl, Function.update_self, getD_scaleRow, toZ_fmul, mul_comm]
      rfl
    · have hr' : r ≠ ⟨p, hp⟩ := fun h => hr (congrArg Fin.val h)
      rw [if_neg hr, Function.update_of_ne hr', Pi.one_apply, one_mul]

/-- Clearing a column with a row of the grid that is not itself picked keeps the determinant (R126, R129). -/
theorem eliminate {p : Nat} {sel : Nat → Bool} (h : Rect rows cols g) (hp : p < rows) (hsel : sel p = false)
    (col : Nat) : RowTransform rows 1 g (eliminate sel (gridRow g p) col 0 g) := by
  have hpivot : (gridRow g p).length = cols := h.getD_length hp
  refine ⟨clearMatrix ⟨p, hp⟩ sel col g, ?_, fun cols' first => ?_⟩
  · rw [clearMatrix_det hsel, mul_one]
  · ext r c
    simp only [clearMatrix_mul_apply, gridBlock_apply, entry_eliminate h hpivot sel col r.isLt]
    split
    · rw [toZ_fadd, toZ_fmul, toZ_fneg, mul_comm]
      rfl
    · rw [zero_mul, add_zero]

end RowTransform

end

end Sys2Proof.Proofs

/-!
SUPPORT. The two passes of elimination (R129): the forward pass leaves an echelon form, the backward pass clears above
its pivots, both are made of row operations, and a grid that has the form already is left as it is.
-/

namespace Sys2Proof.Proofs

open Sys2Proof Sys2Proof.Machine Sys2Proof.Safety

/-! ### Echelon form of a grid (R129, R133) -/

/-- `EchelonWith`, said of the first `limit` columns of a grid: `pivotCols` are the pivot columns, row by row. -/
structure Echelon (rows limit : Nat) (g : Grid) (pivotCols : List Nat) : Prop where
  count_le : pivotCols.length ≤ rows
  sorted : pivotCols.Pairwise (· < ·)
  lt_limit : ∀ c ∈ pivotCols, c < limit
  pivot_one : ∀ r c, pivotCols[r]? = some c → entry g r c = 1
  zero_below : ∀ r c, pivotCols[r]? = some c → ∀ r', r < r' → r' < rows → entry g r' c = 0
  zero_left : ∀ r c, pivotCols[r]? = some c → ∀ c', c' < c → entry g r c' = 0
  zero_rows : ∀ r c, pivotCols.length ≤ r → r < rows → c < limit → entry g r c = 0

/-- The pivots of row `k` and of the rows below it have only zeros above them. -/
def ClearedFrom (k : Nat) (g : Grid) (pivotCols : List Nat) : Prop :=
  ∀ r c, k ≤ r → pivotCols[r]? = some c → ∀ r', r' < r → entry g r' c = 0

/-- The pivots of rows 0, 1, ... in the columns listed, last first, as the forward pass lists them (R129). -/
def pivotList (pivotCols : List Nat) : List (Nat × Nat) :=
  (pivotCols.zipIdx.map fun pivot => (pivot.2, pivot.1)).reverse

theorem pivotList_concat (pivotCols : List Nat) (c : Nat) :
    pivotList (pivotCols ++ [c]) = (pivotCols.length, c) :: pivotList pivotCols := by
  simp [pivotList, List.zipIdx_append]

theorem pivotList_length (pivotCols : List Nat) : (pivotList pivotCols).length = pivotCols.length := by
  simp [pivotList]

theorem mem_pivotList {pivotCols : List Nat} {pivot : Nat × Nat} :
    pivot ∈ pivotList pivotCols ↔ pivotCols[pivot.1]? = some pivot.2 := by
  simp only [pivotList, List.mem_reverse, List.mem_map, Prod.exists, List.mem_zipIdx_iff_getElem?]
  constructor
  · rintro ⟨c, r, h, rfl⟩
    exact h
  · exact fun h => ⟨_, _, h, rfl⟩

theorem getElem?_concat_cases {cols : List Nat} {col r c : Nat} (h : (cols ++ [col])[r]? = some c) :
    (r < cols.length ∧ cols[r]? = some c) ∨ (r = cols.length ∧ c = col) := by
  rcases Nat.lt_trichotomy r cols.length with hr | hr | hr
  · exact .inl ⟨hr, by rwa [List.getElem?_append_left hr] at h⟩
  · exact .inr ⟨hr, by simpa [hr, eq_comm] using h⟩
  · rw [List.getElem?_eq_none (by simpa using hr)] at h
    cases h

namespace Echelon

variable {rows limit : Nat} {g g' : Grid} {pivotCols : List Nat}

theorem lt_count {r c : Nat} (hc : pivotCols[r]? = some c) : r < pivotCols.length :=
  (List.getElem?_eq_some_iff.1 hc).1

theorem col_lt (h : Echelon rows limit g pivotCols) {r c : Nat} (hc : pivotCols[r]? = some c) : c < limit :=
  h.lt_limit c (List.mem_of_getElem? hc)

theorem row_lt (h : Echelon rows limit g pivotCols) {r c : Nat} (hc : pivotCols[r]? = some c) : r < rows :=
  (lt_count hc).trans_le h.count_le

theorem col_lt_col (h : Echelon rows limit g pivotCols) {r r' c c' : Nat} (hc : pivotCols[r]? = some c)
    (hc' : pivotCols[r']? = some c') (hr : r < r') : c < c' := by
  obtain ⟨hlt, rfl⟩ := List.getElem?_eq_some_iff.1 hc
  obtain ⟨hlt', rfl⟩ := List.getElem?_eq_some_iff.1 hc'
  exact List.pairwise_iff_getElem.1 h.sorted r r' hlt hlt' hr

/-- With a pivot in every row there is nothing more to ask of the columns after. -/
theorem of_full (h : Echelon rows limit g pivotCols) (hfull : pivotCols.length = rows) {limit' : Nat}
    (hle : limit ≤ limit') : Echelon rows limit' g pivotCols :=
  { h with
    lt_limit := fun c hc => (h.lt_limit c hc).trans_le hle
    zero_rows := fun r _ hr hr' => absurd hr' (by omega) }

/-- A row whose pivot, if it has one, is to the right of a column has a 0 there. -/
theorem zero_of_pivot_right (h : Echelon rows limit g pivotCols) {r c : Nat} (hr : r < rows) (hc : c < limit)
    (hright : ∀ c', pivotCols[r]? = some c' → c < c') : entry g r c = 0 := by
  cases hpivot : pivotCols[r]? with
  | some c' => exact h.zero_left r c' hpivot c (hright c' hpivot)
  | none => exact h.zero_rows r c (List.getElem?_eq_none_iff.1 hpivot) hr hc

/-- A column that is 0 from the next pivot's row on has no pivot (R129). -/
theorem skip (h : Echelon rows limit g pivotCols)
    (hzero : ∀ r, pivotCols.length ≤ r → r < rows → entry g r limit = 0) :
    Echelon rows (limit + 1) g pivotCols :=
  { h with
    lt_limit := fun c hc => (h.lt_limit c hc).trans (Nat.lt_succ_self _)
    zero_rows := fun r c hr hr' hc => (Nat.lt_succ_iff_lt_or_eq.1 hc).elim (h.zero_rows r c hr hr')
      fun heq => heq ▸ hzero r hr hr' }

/-- A pivot put in the next row: the rows above are kept, the row itself has a 1 in the column and zeros before it, and
the rows below have zeros up to and in the column (R129). -/
theorem concat (h : Echelon rows limit g pivotCols) (hroom : pivotCols.length < rows)
    (habove : ∀ r, r < pivotCols.length → ∀ c, entry g' r c = entry g r c)
    (hone : entry g' pivotCols.length limit = 1)
    (hleft : ∀ r c, pivotCols.length ≤ r → r < rows → c < limit → entry g' r c = 0)
    (hbelow : ∀ r, pivotCols.length < r → r < rows → entry g' r limit = 0) :
    Echelon rows (limit + 1) g' (pivotCols ++ [limit]) where
  count_le := by simpa using hroom
  sorted := List.pairwise_append.2 ⟨h.sorted, List.pairwise_singleton _ _,
    fun c hc c' hc' => List.mem_singleton.1 hc' ▸ h.lt_limit c hc⟩
  lt_limit := fun c hc => (List.mem_append.1 hc).elim (fun hold => (h.lt_limit c hold).trans (Nat.lt_succ_self _))
    fun hnew => List.mem_singleton.1 hnew ▸ Nat.lt_succ_self _
  pivot_one := fun r c hc => by
    obtain ⟨hr, hold⟩ | ⟨rfl, rfl⟩ := getElem?_concat_cases hc
    · rw [habove r hr]
      exact h.pivot_one r c hold
    · exact hone
  zero_below := fun r c hc r' hlt hr' => by
    obtain ⟨hr, hold⟩ | ⟨rfl, rfl⟩ := getElem?_concat_cases hc
    · by_cases hr'p : r' < pivotCols.length
      · rw [habove r' hr'p]
        exact h.zero_below r c hold r' hlt hr'
      · exact hleft r' c (not_lt.1 hr'p) hr' (h.col_lt hold)
    · exact hbelow r' hlt hr'
  zero_left := fun r c hc c' hc' => by
    obtain ⟨hr, hold⟩ | ⟨rfl, rfl⟩ := getElem?_concat_cases hc
    · rw [habove r hr]
      exact h.zero_left r c hold c' hc'
    · exact hleft _ c' le_rfl hroom hc'
  zero_rows := fun r c hr hr' hc => by
    have hlt : pivotCols.length < r := by simpa using hr
    exact (Nat.lt_succ_iff_lt_or_eq.1 hc).elim (hleft r c hlt.le hr') fun heq => heq ▸ hbelow r hlt hr'

/-- Changes above a pivot that begin at its column keep the form. -/
theorem congr_above (h : Echelon rows limit g pivotCols) {p col : Nat} (hcol : pivotCols[p]? = some col)
    (hsame : ∀ r c, r < rows → (p ≤ r ∨ c < col) → entry g' r c = entry g r c) :
    Echelon rows limit g' pivotCols where
  count_le := h.count_le
  sorted := h.sorted
  lt_limit := h.lt_limit
  pivot_one := fun r c hc => by
    rw [hsame r c (h.row_lt hc) (or_iff_not_imp_left.2 fun hr => h.col_lt_col hc hcol (not_le.1 hr))]
    exact h.pivot_one r c hc
  zero_below := fun r c hc r' hlt hr' => by
    have hkept : p ≤ r' ∨ c < col := or_iff_not_imp_left.2 fun hr => h.col_lt_col hc hcol (hlt.trans (not_le.1 hr))
    rw [hsame r' c hr' hkept]
    exact h.zero_below r c hc r' hlt hr'
  zero_left := fun r c hc c' hc' => by
    have hkept : p ≤ r ∨ c' < col :=
      or_iff_not_imp_left.2 fun hr => hc'.trans (h.col_lt_col hc hcol (not_le.1 hr))
    rw [hsame r c' (h.row_lt hc) hkept]
    exact h.zero_left r c hc c' hc'
  zero_rows := fun r c hr hr' hc => by
    rw [hsame r c hr' (.inl ((lt_count hcol).le.trans hr))]
    exact h.zero_rows r c hr hr' hc

end Echelon

/-! ### One pivot of the forward pass -/

/-- The grid with the pivot row swapped into place (R129). -/
def pivotSwap (e : Elim) (q : Nat) : Grid := if q = e.p then e.grid else swapRows e.grid q e.p

/-- And that row scaled, its element in the column becoming 1 (R129). -/
def pivotScale (e : Elim) (col q : Nat) : Grid :=
  (pivotSwap e q).set e.p (scaleRow (finv (entry (pivotSwap e q) e.p col)) (gridRow (pivotSwap e q) e.p))

section
variable {rows cols : Nat} {e : Elim} {col q : Nat}

theorem pivotSwap_rect (h : Rect rows cols e.grid) (hp : e.p < rows) (hq : q < rows) :
    Rect rows cols (pivotSwap e q) := by
  rw [pivotSwap]
  split
  · exact h
  · exact h.swapRows hq hp

theorem pivotScale_rect (h : Rect rows cols e.grid) (hp : e.p < rows) (hq : q < rows) :
    Rect rows cols (pivotScale e col q) :=
  have hswap := pivotSwap_rect h hp hq
  hswap.set _ ((scaleRow_length _ _).trans (hswap.getD_length hp))

theorem entry_pivotSwap (h : Rect rows cols e.grid) (hp : e.p < rows) (hq : q < rows) (r c : Nat) :
    entry (pivotSwap e q) r c = entry e.grid (if r = q then e.p else if r = e.p then q else r) c := by
  rw [pivotSwap]
  split
  next heq => rw [heq]; split <;> simp_all
  next => exact entry_swapRows (h.1 ▸ hq) (h.1 ▸ hp) r c

theorem entry_pivotSwap_pivot (h : Rect rows cols e.grid) (hp : e.p < rows) (hq : q < rows) (c : Nat) :
    entry (pivotSwap e q) e.p c = entry e.grid q c := by
  rw [entry_pivotSwap h hp hq]
  split
  next heq => rw [heq]
  next => rw [if_pos rfl]

theorem entry_pivotScale_pivot (h : Rect rows cols e.grid) (hp : e.p < rows) (hq : q < rows) (c : Nat) :
    entry (pivotScale e col q) e.p c = fmul (entry e.grid q c) (finv (entry e.grid q col)) := by
  have hlen : e.p < (pivotSwap e q).length := (pivotSwap_rect h hp hq).1 ▸ hp
  rw [pivotScale, entry_set hlen, if_pos rfl, getD_scaleRow, entry_pivotSwap_pivot h hp hq]
  exact congrArg (fmul · _) (entry_pivotSwap_pivot h hp hq c)

theorem entry_pivotScale_of_ne (h : Rect rows cols e.grid) (hp : e.p < rows) (hq : q < rows) {r : Nat}
    (hr : r ≠ e.p) (c : Nat) :
    entry (pivotScale e col q) r c = entry e.grid (if r = q then e.p else r) c := by
  have hlen : e.p < (pivotSwap e q).length := (pivotSwap_rect h hp hq).1 ▸ hp
  rw [pivotScale, entry_set hlen, if_neg hr, entry_pivotSwap h hp hq, if_neg hr]

/-- The pivot's column is then cleared below it. -/
theorem pivotOn_grid (h : Rect rows cols e.grid) (hp : e.p < rows) (hq : q < rows) :
    (pivotOn e col q).grid =
      eliminate (fun r => e.p < r) (gridRow (pivotScale e col q) e.p) col 0 (pivotScale e col q) := by
  have hlen : e.p < (pivotSwap e q).length := (pivotSwap_rect h hp hq).1 ▸ hp
  rw [gridRow, pivotScale, getD_set_row hlen, if_pos rfl]
  rfl

theorem pivotOn_grid_rect (h : Rect rows cols e.grid) (hp : e.p < rows) (hq : q < rows) :
    Rect rows cols (pivotOn e col q).grid := by
  have hscale := pivotScale_rect (col := col) h hp hq
  rw [pivotOn_grid h hp hq]
  exact eliminate_rect hscale _ (hscale.getD_length hp) _ _

theorem entry_pivotOn (h : Rect rows cols e.grid) (hp : e.p < rows) (hq : q < rows) {r : Nat} (hr : r < rows)
    (c : Nat) : entry (pivotOn e col q).grid r c =
      if e.p < r then fadd (entry (pivotScale e col q) r c)
        (fmul (entry (pivotScale e col q) e.p c) (fneg (entry (pivotScale e col q) r col)))
      else entry (pivotScale e col q) r c := by
  have hscale := pivotScale_rect (col := col) h hp hq
  have hpivot : (gridRow (pivotScale e col q) e.p).length = cols := hscale.getD_length hp
  rw [pivotOn_grid h hp hq, entry_eliminate hscale hpivot _ _ hr]
  simp only [decide_eq_true_eq]
  rfl

/-- The forward pass on one column with a pivot extends the echelon form by it (R129). -/
theorem pivotOn_echelon {pivotCols : List Nat} (h : Rect rows cols e.grid) (he : Echelon rows col e.grid pivotCols)
    (hcount : e.p = pivotCols.length) (hp : e.p < rows) (hq : q < rows) (hpq : e.p ≤ q)
    (hne : entry e.grid q col ≠ 0) : Echelon rows (col + 1) (pivotOn e col q).grid (pivotCols ++ [col]) := by
  have hone : entry (pivotScale e col q) e.p col = 1 := by
    rw [entry_pivotScale_pivot h hp hq, fmul_finv hne]
  have hleft : ∀ r c, e.p ≤ r → r < rows → c < col → entry (pivotScale e col q) r c = 0 := by
    intro r c hr hr' hc
    by_cases hrp : r = e.p
    · rw [hrp, entry_pivotScale_pivot h hp hq, he.zero_rows q c (hcount ▸ hpq) hq hc, zero_fmul]
    · rw [entry_pivotScale_of_ne h hp hq hrp]
      split
      · exact he.zero_rows _ c hcount.ge hp hc
      · exact he.zero_rows r c (hcount ▸ hr) hr' hc
  refine he.concat (hcount ▸ hp) ?above ?one ?left ?below
  all_goals rw [← hcount]
  case above =>
    intro r hr c
    rw [entry_pivotOn h hp hq (hr.trans hp), if_neg hr.le.not_gt, entry_pivotScale_of_ne h hp hq hr.ne,
      if_neg (hr.trans_le hpq).ne]
  case one =>
    rw [entry_pivotOn h hp hq hp, if_neg (lt_irrefl _), hone]
  case left =>
    intro r c hr hr' hc
    rw [entry_pivotOn h hp hq hr', hleft r c hr hr' hc, hleft e.p c le_rfl hp hc, zero_fmul, fadd_zero, ite_self]
  case below =>
    intro r hr hr'
    rw [entry_pivotOn h hp hq hr', if_pos hr, hone, fmul_comm, fmul_one, fadd_fneg]

theorem pivotSwap_transform (h : Rect rows cols e.grid) (hp : e.p < rows) (hq : q < rows) :
    RowTransform rows (if q = e.p then 1 else -1) e.grid (pivotSwap e q) := by
  rw [pivotSwap]
  split
  · exact .refl rows _
  next hne => exact .swapRows h.1 hq hp hne

theorem pivotScale_transform (h : Rect rows cols e.grid) (hp : e.p < rows) (hq : q < rows)
    (hne : entry e.grid q col ≠ 0) :
    RowTransform rows (toZ (entry e.grid q col)) (pivotSwap e q) (pivotScale e col q) := by
  rw [← entry_pivotSwap_pivot h hp hq] at hne ⊢
  exact .scaleRow (pivotSwap_rect h hp hq).1 hp (toZ_finv hne)

theorem pivotOn_sign : toZ (pivotOn e col q).sign = toZ e.sign * if q = e.p then 1 else -1 := by
  rw [pivotOn]
  split
  · rw [mul_one]
  · rw [toZ_fneg, mul_neg_one]

theorem pivotOn_prod (h : Rect rows cols e.grid) (hp : e.p < rows) (hq : q < rows) :
    toZ (pivotOn e col q).prod = toZ e.prod * toZ (entry e.grid q col) := by
  rw [← entry_pivotSwap_pivot h hp hq]
  exact toZ_fmul _ _

/-- It is made of row operations, and keeps account of their determinants in `sign` and `prod` (R129). -/
theorem pivotOn_transform {g : Grid} (h : Rect rows cols e.grid) (hp : e.p < rows) (hq : q < rows)
    (hne : entry e.grid q col ≠ 0) (ht : RowTransform rows (toZ e.sign * toZ e.prod) g e.grid) :
    RowTransform rows (toZ (pivotOn e col q).sign * toZ (pivotOn e col q).prod) g (pivotOn e col q).grid := by
  have hclear : RowTransform rows 1 (pivotScale e col q) (pivotOn e col q).grid := by
    rw [pivotOn_grid h hp hq]
    exact .eliminate (pivotScale_rect h hp hq) hp (decide_eq_false (lt_irrefl _)) col
  have hdet : toZ (pivotOn e col q).sign * toZ (pivotOn e col q).prod = toZ e.sign * toZ e.prod *
      ((if q = e.p then 1 else -1) * (toZ (entry e.grid q col) * 1)) := by
    rw [pivotOn_sign, pivotOn_prod h hp hq]
    ring
  rw [hdet]
  exact ht.trans <| (pivotSwap_transform h hp hq).trans <| (pivotScale_transform h hp hq hne).trans hclear

end

/-! ### The forward pass -/

/-- What the forward pass has done to grid `g` when it has seen `limit` columns. -/
structure ForwardFrom (rows cols limit : Nat) (g : Grid) (pivotCols : List Nat) (e : Elim) : Prop where
  rect : Rect rows cols e.grid
  echelon : Echelon rows limit e.grid pivotCols
  count : e.p = pivotCols.length
  pivots : e.pivots = pivotList pivotCols
  transform : RowTransform rows (toZ e.sign * toZ e.prod) g e.grid

section
variable {rows cols : Nat} {g : Grid}

theorem ForwardFrom.start (h : Rect rows cols g) : ForwardFrom rows cols 0 g [] ⟨g, [], 0, 1, 1⟩ where
  rect := h
  echelon := by constructor <;> simp
  count := rfl
  pivots := rfl
  transform := by
    rw [toZ_one, mul_one]
    exact .refl rows g

theorem ForwardFrom.pivotOn {limit q : Nat} {pivotCols : List Nat} {e : Elim}
    (h : ForwardFrom rows cols limit g pivotCols e)
    (hq : findPivot e.grid rows e.p limit = some q) :
    ForwardFrom rows cols (limit + 1) g (pivotCols ++ [limit]) (pivotOn e limit q) := by
  obtain ⟨hrect, hechelon, hcount, hpivots, htransform⟩ := h
  obtain ⟨hpq, hqr, hne, -⟩ := findPivot_some.1 hq
  have hp : e.p < rows := hpq.trans_lt hqr
  exact {
    rect := pivotOn_grid_rect hrect hp hqr
    echelon := pivotOn_echelon hrect hechelon hcount hp hqr hpq hne
    count := by simp [Machine.pivotOn, hcount]
    pivots := by rw [pivotList_concat, ← hcount, ← hpivots]; rfl
    transform := pivotOn_transform hrect hp hqr hne htransform }

theorem forwardFrom_spec (n : Nat) {limit : Nat} {pivotCols : List Nat} {e : Elim} (hn : limit + n = cols)
    (h : ForwardFrom rows cols limit g pivotCols e) :
    ∃ pivotCols', ForwardFrom rows cols cols g pivotCols' (forwardFrom rows (List.range' limit n) e) := by
  induction n generalizing limit pivotCols e with
  | zero =>
    subst hn
    exact ⟨pivotCols, h⟩
  | succ n ih =>
    have hn' : limit + 1 + n = cols := by omega
    rw [List.range'_succ, forwardFrom]
    split
    next hfull => exact ⟨pivotCols, { h with echelon := h.echelon.of_full (h.count ▸ hfull) (by omega) }⟩
    next =>
      split
      next hnone =>
        rw [h.count] at hnone
        exact ih hn' { h with echelon := h.echelon.skip (findPivot_none.1 hnone) }
      next q hq => exact ih hn' (h.pivotOn hq)

/-- The forward pass leaves an echelon form, made by row operations whose determinants it has kept account of. -/
theorem forward_spec (h : Rect rows cols g) :
    ∃ pivotCols, ForwardFrom rows cols cols g pivotCols (forward g rows cols) := by
  rw [forward, List.range_eq_range']
  exact forwardFrom_spec cols (Nat.zero_add cols) (.start h)

end

/-! ### The backward pass -/

/-- What the backward pass keeps of an echelon form, and what it has cleared. -/
structure BackwardFrom (rows cols k : Nat) (g : Grid) (pivotCols : List Nat) (g' : Grid) : Prop where
  rect : Rect rows cols g'
  echelon : Echelon rows cols g' pivotCols
  cleared : ClearedFrom k g' pivotCols
  transform : RowTransform rows 1 g g'

section
variable {rows cols : Nat} {g g' : Grid} {pivotCols : List Nat}

/-- Clearing above one more pivot (R129). -/
theorem BackwardFrom.clear {p col : Nat} (h : BackwardFrom rows cols (p + 1) g pivotCols g')
    (hcol : pivotCols[p]? = some col) :
    BackwardFrom rows cols p g pivotCols (eliminate (fun r => r < p) (gridRow g' p) col 0 g') := by
  obtain ⟨hrect, hechelon, hcleared, htransform⟩ := h
  have hp : p < rows := hechelon.row_lt hcol
  have hpivot : (gridRow g' p).length = cols := hrect.getD_length hp
  have hentry : ∀ {r}, r < rows → ∀ c, entry (eliminate (fun r => r < p) (gridRow g' p) col 0 g') r c =
      if r < p then fadd (entry g' r c) (fmul (entry g' p c) (fneg (entry g' r col))) else entry g' r c := by
    intro r hr c
    rw [entry_eliminate hrect hpivot _ _ hr]
    simp only [decide_eq_true_eq]
    rfl
  have hkept : ∀ r c, r < rows → (p ≤ r ∨ entry g' p c = 0) →
      entry (eliminate (fun r => r < p) (gridRow g' p) col 0 g') r c = entry g' r c := by
    rintro r c hr (hle | hzero)
    · rw [hentry hr, if_neg hle.not_gt]
    · rw [hentry hr, hzero, zero_fmul, fadd_zero, ite_self]
  refine ⟨eliminate_rect hrect _ hpivot _ _, hechelon.congr_above hcol fun r c hr hrc =>
    hkept r c hr (hrc.imp_right (hechelon.zero_left p col hcol c)), ?cleared, ?transform⟩
  case cleared =>
    intro r c hpr hc r' hr'
    have hr'' : r' < rows := hr'.trans (hechelon.row_lt hc)
    obtain rfl | hlt := hpr.eq_or_lt
    · obtain rfl : col = c := Option.some.inj (hcol.symm.trans hc)
      rw [hentry hr'', if_pos hr', hechelon.pivot_one p col hcol, fmul_comm, fmul_one, fadd_fneg]
    · rw [hkept r' c hr'' (.inr (hcleared r c hlt hc p hlt))]
      exact hcleared r c hlt hc r' hr'
  case transform =>
    have hclear := RowTransform.eliminate (sel := fun r => r < p) hrect hp (decide_eq_false (lt_irrefl _)) col
    rw [← one_mul (1 : ZMod 257)]
    exact htransform.trans hclear

theorem backward_spec (hs done : List Nat)
    (h : BackwardFrom rows cols hs.length g (hs ++ done) g') :
    BackwardFrom rows cols 0 g (hs ++ done) (backward (pivotList hs) g') := by
  induction hs using List.reverseRecOn generalizing done g' with
  | nil => exact h
  | append_singleton hs col ih =>
    rw [List.length_append, List.append_assoc] at h
    rw [pivotList_concat, backward, List.append_assoc]
    exact ih _ (h.clear (by simp))

/-- The two passes leave the reduced form, made by row operations (R129, R133). -/
theorem reduce_spec (h : Rect rows cols g) : ∃ pivotCols d, Rect rows cols (reduce g rows cols) ∧
    Echelon rows cols (reduce g rows cols) pivotCols ∧ ClearedFrom 0 (reduce g rows cols) pivotCols ∧
    RowTransform rows d g (reduce g rows cols) := by
  obtain ⟨pivotCols, hforward⟩ := forward_spec h
  have hstart : BackwardFrom rows cols pivotCols.length (forward g rows cols).grid (pivotCols ++ [])
      (forward g rows cols).grid := {
    rect := hforward.rect
    echelon := (List.append_nil pivotCols).symm ▸ hforward.echelon
    cleared := fun r c hr hc => absurd (Echelon.lt_count hc) (by simpa using hr)
    transform := .refl _ _ }
  obtain ⟨hrect, hechelon, hcleared, htransform⟩ := backward_spec pivotCols [] hstart
  rw [List.append_nil, ← hforward.pivots] at hechelon hcleared
  rw [← hforward.pivots] at hrect htransform
  exact ⟨pivotCols, _, hrect, hechelon, hcleared, hforward.transform.trans htransform⟩

end

/-! ### A grid already in the form (R130) -/

section
variable {rows cols : Nat} {g : Grid} {pivotCols : List Nat}

/-- A pivot that is in place, scaled and cleared below is found, and nothing changes. -/
theorem pivotOn_grid_eq_self {e : Elim} {col : Nat} (h : Rect rows cols e.grid) (hp : e.p < rows)
    (hone : entry e.grid e.p col = 1) (hbelow : ∀ r, e.p < r → r < rows → entry e.grid r col = 0) :
    (pivotOn e col e.p).grid = e.grid := by
  have hswap : pivotSwap e e.p = e.grid := if_pos rfl
  have hrow : scaleRow (finv 1) (gridRow e.grid e.p) = gridRow e.grid e.p := by
    simp [scaleRow, finv_one, fmul_one]
  have hscale : pivotScale e col e.p = e.grid := by
    have hlen : e.p < e.grid.length := h.1 ▸ hp
    rw [pivotScale, hswap, hone, hrow, gridRow, List.getD_eq_getElem _ _ hlen]
    exact List.set_getElem_self hlen
  rw [pivotOn_grid h hp hp, hscale]
  exact eliminate_eq_self h (h.getD_length hp) fun r hr hsel => hbelow r (of_decide_eq_true hsel) hr

/-- The forward pass over the rest of the columns of an echelon form finds the rest of its pivots and changes
nothing. -/
theorem forwardFrom_of_echelon (h : Rect rows cols g) (n : Nat) {limit : Nat} {done rest : List Nat} {e : Elim}
    (he : Echelon rows cols g (done ++ rest)) (hn : limit + n = cols) (hrest : ∀ c ∈ rest, limit ≤ c)
    (hgrid : e.grid = g) (hcount : e.p = done.length) (hpivots : e.pivots = pivotList done) :
    (forwardFrom rows (List.range' limit n) e).grid = g ∧
      (forwardFrom rows (List.range' limit n) e).pivots = pivotList (done ++ rest) := by
  induction n generalizing limit done rest e with
  | zero =>
    obtain rfl : rest = [] := List.eq_nil_iff_forall_not_mem.2 fun c hc => by
      have hlt := he.lt_limit c (List.mem_append_right _ hc)
      have hle := hrest c hc
      omega
    exact ⟨hgrid, by rw [List.append_nil]; exact hpivots⟩
  | succ n ih =>
    have hn' : limit + 1 + n = cols := by omega
    have hnone : (∀ c ∈ rest, limit < c) → findPivot e.grid rows e.p limit = none := fun hlt => by
      refine findPivot_none.2 fun r hr hr' => ?_
      rw [hgrid]
      refine he.zero_of_pivot_right hr' (by omega) fun c hc => hlt c ?_
      rw [List.getElem?_append_right (hcount ▸ hr)] at hc
      exact List.mem_of_getElem? hc
    rw [List.range'_succ, forwardFrom]
    split
    next hfull =>
      have hcountLe := he.count_le
      rw [List.length_append, ← hcount, hfull] at hcountLe
      obtain rfl : rest = [] := List.length_eq_zero_iff.1 (by omega)
      exact ⟨hgrid, by simpa using hpivots⟩
    next =>
      cases rest with
      | nil =>
        rw [hnone (by simp)]
        exact ih he hn' (by simp) hgrid hcount hpivots
      | cons c rest =>
        have hafter : ∀ c' ∈ rest, c < c' := (List.pairwise_cons.1 (List.pairwise_append.1 he.sorted).2.1).1
        obtain rfl | hlt := (hrest c List.mem_cons_self).eq_or_lt
        · have hcol : (done ++ limit :: rest)[done.length]? = some limit := by simp
          have hp : e.p < rows := hcount ▸ he.row_lt hcol
          have hone : entry e.grid e.p limit = 1 := by
            rw [hgrid, hcount]
            exact he.pivot_one _ _ hcol
          have hbelow : ∀ r, e.p < r → r < rows → entry e.grid r limit = 0 := by
            rw [hgrid, hcount]
            exact he.zero_below _ _ hcol
          have hfind : findPivot e.grid rows e.p limit = some e.p :=
            findPivot_some.2 ⟨le_rfl, hp, hone ▸ one_ne_zero, fun r hr hr' => absurd hr hr'.not_ge⟩
          have hnext := ih (done := done ++ [limit]) (e := pivotOn e limit e.p)
            (by rwa [List.append_assoc]) hn' hafter
            ((pivotOn_grid_eq_self (hgrid ▸ h) hp hone hbelow).trans hgrid) (by simp [pivotOn, hcount])
            (by rw [pivotList_concat, ← hcount, ← hpivots]; rfl)
          rw [List.append_assoc] at hnext
          rw [hfind]
          exact hnext
        · have hall : ∀ c' ∈ c :: rest, limit < c' :=
            List.forall_mem_cons.2 ⟨hlt, fun c' hc' => hlt.trans (hafter c' hc')⟩
          rw [hnone hall]
          exact ih he hn' hall hgrid hcount hpivots

/-- The forward pass finds the pivots of an echelon form and changes nothing. -/
theorem forward_of_echelon (h : Rect rows cols g) (he : Echelon rows cols g pivotCols) :
    (forward g rows cols).grid = g ∧ (forward g rows cols).pivots = pivotList pivotCols := by
  rw [forward, List.range_eq_range']
  exact forwardFrom_of_echelon h cols (done := []) he (Nat.zero_add cols) (by simp) rfl rfl rfl

/-- The backward pass has nothing to clear above pivots that are cleared. -/
theorem backward_eq_self (h : Rect rows cols g) (he : Echelon rows cols g pivotCols)
    (hcleared : ClearedFrom 0 g pivotCols) (pivots : List (Nat × Nat))
    (hp : ∀ pivot ∈ pivots, pivotCols[pivot.1]? = some pivot.2) : backward pivots g = g := by
  induction pivots with
  | nil => rfl
  | cons pivot rest ih =>
    obtain ⟨hpivot, hrest⟩ := List.forall_mem_cons.1 hp
    have hkept : eliminate (fun r => r < pivot.1) (gridRow g pivot.1) pivot.2 0 g = g :=
      eliminate_eq_self h (h.getD_length (he.row_lt hpivot)) fun r _ hsel =>
        hcleared _ _ (Nat.zero_le _) hpivot r (of_decide_eq_true hsel)
    rw [backward, hkept]
    exact ih hrest

/-- A grid in reduced form is left as it is (R130). -/
theorem reduce_eq_self (h : Rect rows cols g) (he : Echelon rows cols g pivotCols)
    (hcleared : ClearedFrom 0 g pivotCols) : reduce g rows cols = g := by
  obtain ⟨hgrid, hpivots⟩ := forward_of_echelon h he
  rw [reduce, hgrid, hpivots]
  exact backward_eq_self h he hcleared _ fun pivot => mem_pivotList.1

end

end Sys2Proof.Proofs

/-!
SUPPORT. MRREF, MDET and MINV on a bank of initialised elements (R130 to R133, R135): the bank as a grid, and what
elimination on the grid says of it.
-/

namespace Sys2Proof.Proofs

open Sys2Proof Sys2Proof.Machine Sys2Proof.Safety

/-! ### A bank of initialised elements and its grid (R17) -/

section
variable {rows cols : Nat} {g : Grid} {pivotCols : List Nat}

theorem ofGrid_rows (rows cols : Nat) (g : Grid) : (Bank.ofGrid rows cols g).rows = rows := rfl

theorem ofGrid_cols (rows cols : Nat) (g : Grid) : (Bank.ofGrid rows cols g).cols = cols := rfl

theorem ofGrid_row (rows cols : Nat) (g : Grid) (r : Nat) :
    (Bank.ofGrid rows cols g).row r = (gridRow g r).map some := by
  simp only [Bank.row, Bank.ofGrid, gridRow, List.getD_eq_getElem?_getD, List.getElem?_map]
  cases g[r]? <;> rfl

theorem elemValue_ofGrid (rows cols : Nat) (g : Grid) (r c : Nat) :
    elemValue (Bank.ofGrid rows cols g) r c = entry g r c := by
  rw [elemValue, Bank.elem, ofGrid_row, getD_map_some]
  exact (List.getD_eq_getElem?_getD ..).symm

theorem elem_ofGrid (h : Rect rows cols g) {r c : Nat} (hr : r < rows) (hc : c < cols) :
    (Bank.ofGrid rows cols g).elem r c = some (entry g r c) := by
  have hc' : c < (gridRow g r).length := (h.getD_length hr).symm ▸ hc
  rw [Bank.elem, ofGrid_row, getD_map_some, entry, List.getD_eq_getElem _ _ hc', List.getElem?_eq_getElem hc']

theorem allInitialised_ofGrid (h : Rect rows cols g) : AllInitialised (Bank.ofGrid rows cols g) := by
  intro r c hr hc
  rw [elem_ofGrid h hr hc]
  exact Option.some_ne_none _

theorem elem_ofGrid_eq_iff (h : Rect rows cols g) {r c : Nat} (hr : r < rows) (hc : c < cols) (v : Felt) :
    (Bank.ofGrid rows cols g).elem r c = some v ↔ entry g r c = v := by
  rw [elem_ofGrid h hr hc, Option.some_inj]

/-- The form of a bank, as the statements say it, is the form of its grid. -/
theorem echelonWith_ofGrid (h : Rect rows cols g) :
    EchelonWith (Bank.ofGrid rows cols g) pivotCols ↔ Echelon rows cols g pivotCols := by
  constructor
  · rintro ⟨hcount, hsorted, hlt, hpivot, hzero⟩
    have hrow : ∀ {r c}, pivotCols[r]? = some c → r < rows := fun hc => (Echelon.lt_count hc).trans_le hcount
    have hcol : ∀ {r c}, pivotCols[r]? = some c → c < cols := fun hc => hlt _ (List.mem_of_getElem? hc)
    exact {
      count_le := hcount
      sorted := hsorted
      lt_limit := hlt
      pivot_one := fun r c hc => (elem_ofGrid_eq_iff h (hrow hc) (hcol hc) 1).1 (hpivot r c hc).1
      zero_below := fun r c hc r' hlt' hr' =>
        (elem_ofGrid_eq_iff h hr' (hcol hc) 0).1 ((hpivot r c hc).2.1 r' hlt' hr')
      zero_left := fun r c hc c' hc' =>
        (elem_ofGrid_eq_iff h (hrow hc) (hc'.trans (hcol hc)) 0).1 ((hpivot r c hc).2.2 c' hc')
      zero_rows := fun r c hr hr' hc => (elem_ofGrid_eq_iff h hr' hc 0).1 (hzero r c hr hr' hc) }
  · intro he
    refine ⟨he.count_le, he.sorted, he.lt_limit, fun r c hc => ⟨?one, ?below, ?left⟩, fun r c hr hr' hc => ?rows⟩
    case one => exact (elem_ofGrid_eq_iff h (he.row_lt hc) (he.col_lt hc) 1).2 (he.pivot_one r c hc)
    case below =>
      exact fun r' hlt hr' => (elem_ofGrid_eq_iff h hr' (he.col_lt hc) 0).2 (he.zero_below r c hc r' hlt hr')
    case left =>
      exact fun c' hc' => (elem_ofGrid_eq_iff h (he.row_lt hc) (hc'.trans (he.col_lt hc)) 0).2
        (he.zero_left r c hc c' hc')
    case rows => exact (elem_ofGrid_eq_iff h hr' hc 0).2 (he.zero_rows r c hr hr' hc)

theorem reducedWith_ofGrid (h : Rect rows cols g) :
    ReducedWith (Bank.ofGrid rows cols g) pivotCols ↔ Echelon rows cols g pivotCols ∧ ClearedFrom 0 g pivotCols := by
  rw [ReducedWith, echelonWith_ofGrid h]
  refine and_congr_right fun he => ⟨fun hcleared r c _ hc r' hr' => ?_, fun hcleared r c hc r' hr' => ?_⟩
  · exact (elem_ofGrid_eq_iff h (hr'.trans (he.row_lt hc)) (he.col_lt hc) 0).1 (hcleared r c hc r' hr')
  · exact (elem_ofGrid_eq_iff h (hr'.trans (he.row_lt hc)) (he.col_lt hc) 0).2 (hcleared r c r.zero_le hc r' hr')

/-- A bank without a `none` within its dimensions is given by its grid (R17). -/
theorem exists_grid {p : Config.Params} {m : Bank} (h : BankOk p m) (hall : AllInitialised m) :
    ∃ g, gridOf m = .ok g ∧ m = Bank.ofGrid m.rows m.cols g ∧ Rect m.rows m.cols g := by
  have hrows : ∀ row ∈ m.cells, row ∈ Set.range (List.map (some : Felt → Option Felt)) := fun row hrow => by
    obtain ⟨r, hr, rfl⟩ := List.getElem_of_mem hrow
    have hr' : r < m.rows := h.rect.1 ▸ hr
    obtain ⟨vs, hvs⟩ := h.rowValues_of_initialised hr' (hall r · hr') 0
    refine ⟨vs, (rowValues_ok.1 hvs).symm.trans ?_⟩
    rw [Bank.row, List.getD_eq_getElem _ _ hr]
  obtain ⟨g, hg⟩ : m.cells ∈ Set.range (List.map (List.map (some : Felt → Option Felt))) := by
    rw [Set.range_list_map]
    exact hrows
  have hgrid : gridOf m = .ok g := gridOf_ok.2 hg.symm
  exact ⟨g, hgrid, by rw [Bank.ofGrid, hg], h.gridOf_rect hgrid⟩

end

/-! ### The three commands (R130 to R132) -/

section
variable {s : State} {b : BankSel} {g : Grid}

theorem exec_mrref (hm : (bankOf s b).rows ≠ 0) (hg : gridOf (bankOf s b) = .ok g) :
    exec (.mrref b) s = .next { setBank s b (Bank.ofGrid (bankOf s b).rows (bankOf s b).cols
      (reduce g (bankOf s b).rows (bankOf s b).cols)) with cmdcnt := s.cmdcnt + 1 } :=
  (finish_constructed_of_rows hm).trans <| (congrArg (finish _ s) (bind_eq_of_ok hg)).trans <| finish_setBank ..

/-- The value MDET writes (R132). -/
def detValue (e : Elim) (n : Nat) : Felt := if e.pivots.length = n then fmul e.sign e.prod else 0

theorem exec_mdet {rd : RegIdx} (hm : (bankOf s b).rows ≠ 0) (hsquare : (bankOf s b).cols = (bankOf s b).rows)
    (hg : gridOf (bankOf s b) = .ok g) :
    exec (.mdet b rd) s = .next (countCommand (writeX (setBank s b (Bank.ofGrid (bankOf s b).rows (bankOf s b).rows
      (forward g (bankOf s b).rows (bankOf s b).rows).grid)) rd
      (feltWord (detValue (forward g (bankOf s b).rows (bankOf s b).rows) (bankOf s b).rows)))) :=
  (finish_constructed_of_rows hm).trans <| (finish_raiseIf_of_not (not_not.2 hsquare)).trans <|
    (congrArg (finish _ s) (bind_eq_of_ok hg))

/-- The grid MINV works on, reduced (R131). -/
def invGrid (n : Nat) (g : Grid) : Grid := reduce (augmentIdentity n 0 g) n (2 * n)

theorem exec_minv_of_grid (hm : (bankOf s b).rows ≠ 0) (hsquare : (bankOf s b).cols = (bankOf s b).rows)
    (hg : gridOf (bankOf s b) = .ok g) :
    exec (.minv b) s = finish (encode (.minv b)) s (do
      raiseIf (leftIsIdentity (invGrid (bankOf s b).rows g) (bankOf s b).rows = false) .singularMatrix 0
      pure (setBank s b (Bank.ofGrid (bankOf s b).rows (bankOf s b).rows
        ((invGrid (bankOf s b).rows g).map fun row => row.drop (bankOf s b).rows)))) :=
  (finish_constructed_of_rows hm).trans <| (finish_raiseIf_of_not (not_not.2 hsquare)).trans <|
    (congrArg (finish _ s) (bind_eq_of_ok hg))

end

/-! ### MRREF (R130, R133) -/

/-- Settles O37: the reduced form is what the two passes leave, and what they leave alone. -/
theorem mrrefLeavesTheReducedForm : Obligations.MrrefLeavesTheReducedForm := by
  intro b s hok hrows hall
  obtain ⟨g, hg, hbank, hrect⟩ := exists_grid hok hall
  have hexec := exec_mrref hrows hg
  refine ⟨?reduced, fun pivotCols hreduced => ?idempotent⟩
  case reduced =>
    obtain ⟨pivotCols, -, hrect', hechelon, hcleared, -⟩ := reduce_spec hrect
    exact ⟨_, pivotCols, hexec, rfl, rfl, .ofGrid (hok.dims hrows) hrect', allInitialised_ofGrid hrect',
      (reducedWith_ofGrid hrect').2 ⟨hechelon, hcleared⟩⟩
  case idempotent =>
    rw [hbank, reducedWith_ofGrid hrect] at hreduced
    obtain ⟨hechelon, hcleared⟩ := hreduced
    rw [hexec, reduce_eq_self hrect hechelon hcleared, ← hbank]
    cases b <;> rfl

/-! ### The solutions (R129) -/

/-- A sum of products on unbounded integers, reduced, is the sum in the field. -/
theorem sum_mod_eq_iff (n : Nat) (a b : Nat → Felt) {k : Nat} (hk : k < 257) :
    (∑ c ∈ Finset.range n, (a c).val * (b c).val) % 257 = k ↔ ∑ c : Fin n, toZ (a c) * toZ (b c) = k := by
  have hcast : ((∑ c ∈ Finset.range n, (a c).val * (b c).val : Nat) : ZMod 257) =
      ∑ c : Fin n, toZ (a c) * toZ (b c) := by
    rw [Finset.sum_range, Nat.cast_sum]
    exact Finset.sum_congr rfl fun c _ => Nat.cast_mul _ _
  rw [← hcast, ZMod.natCast_eq_natCast_iff', Nat.mod_eq_of_lt hk]

theorem solution_iff (rows cols : Nat) (g : Grid) (v : Nat → Felt) :
    (∀ r, r < rows → (∑ c ∈ Finset.range cols, (entry g r c).val * (v c).val) % 257 = 0) ↔
      (gridBlock rows cols 0 g).mulVec (fun c => toZ (v c)) = 0 := by
  have hrow : ∀ r : Fin rows, (gridBlock rows cols 0 g).mulVec (fun c => toZ (v c)) r =
      ∑ c : Fin cols, toZ (entry g r c) * toZ (v c) := fun r => by
    simp only [Matrix.mulVec, dotProduct, gridBlock_apply, Nat.zero_add]
  simp only [sum_mod_eq_iff cols _ _ (by decide : 0 < 257), Nat.cast_zero, funext_iff, hrow, Pi.zero_apply,
    Fin.forall_iff]

/-- What MRREF, or MDET on a square bank, leaves in the bank is its grid after row operations. -/
theorem elimination_transform {b : BankSel} {rd : RegIdx} {s t : State} {g : Grid}
    (hrows : (bankOf s b).rows ≠ 0) (hg : gridOf (bankOf s b) = .ok g)
    (hrect : Rect (bankOf s b).rows (bankOf s b).cols g)
    (ht : exec (.mrref b) s = .next t ∨ ((bankOf s b).cols = (bankOf s b).rows ∧ exec (.mdet b rd) s = .next t)) :
    ∃ g' d, bankOf t b = Bank.ofGrid (bankOf s b).rows (bankOf s b).cols g' ∧
      RowTransform (bankOf s b).rows d g g' := by
  obtain hmrref | ⟨hsquare, hmdet⟩ := ht
  · obtain rfl := Host.Outcome.next.inj ((exec_mrref hrows hg).symm.trans hmrref)
    obtain ⟨_, d, -, -, -, htransform⟩ := reduce_spec hrect
    rw [← countCommand_setBank]
    exact ⟨_, d, bankOf_setBank s b _, htransform⟩
  · obtain rfl := Host.Outcome.next.inj ((exec_mdet hrows hsquare hg).symm.trans hmdet)
    rw [hsquare] at hrect ⊢
    obtain ⟨_, hforward⟩ := forward_spec hrect
    exact ⟨_, _, bankOf_setBank s b _, hforward.transform⟩

/-- Settles O38: both passes multiply the grid by an invertible matrix. -/
theorem eliminationKeepsTheSolutions : Obligations.EliminationKeepsTheSolutions := by
  intro b rd s t v hok hrows hall ht
  obtain ⟨g, hg, hbank, hrect⟩ := exists_grid hok hall
  obtain ⟨g', d, hbank', htransform⟩ := elimination_transform hrows hg hrect ht
  have hvalue : ∀ r c, elemValue (bankOf s b) r c = entry g r c := fun r c => by
    rw [hbank, elemValue_ofGrid]
  simp only [hvalue, hbank', elemValue_ofGrid, ofGrid_rows, ofGrid_cols, solution_iff]
  exact htransform.mulVec_eq_zero_iff _

/-! ### The determinant (R132) -/

section
variable {n limit : Nat} {g : Grid} {pivotCols : List Nat}

/-- With a pivot in each of `n` rows, all in the first `n` columns, the pivots are on the diagonal. -/
theorem Echelon.eq_range (h : Echelon n limit g pivotCols) (hcount : pivotCols.length = n)
    (hlt : ∀ c ∈ pivotCols, c < n) : pivotCols = List.range n := by
  have hnodup : pivotCols.Nodup := h.sorted.imp Nat.ne_of_lt
  have hperm : pivotCols.Perm (List.range n) :=
    (hnodup.subperm fun c hc => List.mem_range.2 (hlt c hc)).perm_of_length_le (by simp [hcount])
  exact hperm.eq_of_pairwise (fun c c' _ _ hcc hcc' => absurd hcc' hcc.not_gt) h.sorted List.pairwise_lt_range

/-- A square echelon form with a pivot in every row is upper triangular with ones on the diagonal; with fewer it has a
row of zeros (R132). -/
theorem Echelon.det_eq (h : Echelon n n g pivotCols) :
    (gridBlock n n 0 g).det = if pivotCols.length = n then 1 else 0 := by
  split
  next hcount =>
    obtain rfl := h.eq_range hcount h.lt_limit
    have hpivot : ∀ j : Fin n, (List.range n)[(j : Nat)]? = some (j : Nat) := fun j => List.getElem?_range j.isLt
    have htriangular : (gridBlock n n 0 g).IsUpperTriangular := fun i j hij => by
      rw [gridBlock_apply, Nat.zero_add, h.zero_below j j (hpivot j) i hij i.isLt, toZ_zero]
    rw [Matrix.det_of_isUpperTriangular htriangular]
    refine Finset.prod_eq_one fun i _ => ?_
    rw [gridBlock_apply, Nat.zero_add, h.pivot_one i i (hpivot i), toZ_one]
  next hcount =>
    have hlt : pivotCols.length < n := lt_of_le_of_ne h.count_le hcount
    refine Matrix.det_eq_zero_of_row_eq_zero ⟨pivotCols.length, hlt⟩ fun j => ?_
    rw [gridBlock_apply, h.zero_rows _ _ le_rfl hlt (by omega), toZ_zero]

/-- The value MDET writes is the determinant: what the forward pass multiplied out, times that of the form it left. -/
theorem toZ_detValue (h : ForwardFrom n n n g pivotCols (forward g n n)) :
    toZ (detValue (forward g n n) n) = (gridBlock n n 0 g).det := by
  rw [h.transform.det_eq, h.echelon.det_eq, detValue, h.pivots, pivotList_length]
  split
  · rw [toZ_fmul, mul_one]
  · rw [toZ_zero, mul_zero]

end

/-- A bank replaced, a register written and the command counted, in the words of the statements. -/
theorem countCommand_writeX_setBank (s : State) (b : BankSel) (m : Bank) (rd : RegIdx) (v : Word) :
    countCommand (writeX (setBank s b m) rd v) =
      { setBank s b m with x := s.x.set rd v, cmdcnt := s.cmdcnt + 1 } := by
  cases b <;> rfl

/-- Settles O40: the forward pass leaves an echelon form and keeps account of the determinant. -/
theorem mdetComputesTheDeterminant : Obligations.MdetComputesTheDeterminant := by
  rintro b rd s n hok rfl hsquare hrows hall
  obtain ⟨g, hg, hbank, hrect⟩ := exists_grid hok hall
  rw [hsquare] at hrect
  obtain ⟨pivotCols, hforward⟩ := forward_spec hrect
  have hdims := hok.dims hrows
  rw [hsquare] at hdims
  have hmatrix : (Matrix.of fun i j : Fin (bankOf s b).rows => ((elemValue (bankOf s b) i j).val : ZMod 257)) =
      gridBlock (bankOf s b).rows (bankOf s b).rows 0 g := by
    ext i j
    rw [gridBlock_apply, Nat.zero_add, ← elemValue_ofGrid (bankOf s b).rows (bankOf s b).cols g, ← hbank]
    rfl
  have hexec := exec_mdet (rd := rd) hrows hsquare hg
  rw [countCommand_writeX_setBank, feltWord, ← toZ_val, toZ_detValue hforward, ← hmatrix] at hexec
  exact ⟨_, pivotCols, hexec, rfl, rfl, .ofGrid hdims hforward.rect, allInitialised_ofGrid hforward.rect,
    (echelonWith_ofGrid hforward.rect).2 hforward.echelon⟩

/-! ### The inverse (R131, R135) -/

section
variable {n rows cols : Nat} {g t : Grid} {pivotCols : List Nat}

theorem gridRow_augmentIdentity (n first : Nat) {r : Nat} (hr : r < g.length) :
    gridRow (augmentIdentity n first g) r =
      gridRow g r ++ (List.range n).map fun c => if first + r = c then 1 else 0 := by
  induction g generalizing first r with
  | nil => simp at hr
  | cons row rest ih =>
    cases r with
    | zero => rfl
    | succ r =>
      rw [show first + (r + 1) = first + 1 + r by omega]
      exact ih (first + 1) (by simpa using hr)

/-- The left half of the augmented grid is the grid (R131). -/
theorem gridBlock_augmentIdentity_left (h : Rect n n g) :
    gridBlock n n 0 (augmentIdentity n 0 g) = gridBlock n n 0 g := by
  ext i j
  have hlen : (j : Nat) < (gridRow g i).length := (h.getD_length i.isLt).symm ▸ j.isLt
  rw [gridBlock_apply, gridBlock_apply, Nat.zero_add, entry, gridRow_augmentIdentity n 0 (h.1 ▸ i.isLt),
    List.getD_append _ _ _ _ hlen]
  rfl

/-- And the right half is the identity. -/
theorem gridBlock_augmentIdentity_right (h : Rect n n g) : gridBlock n n n (augmentIdentity n 0 g) = 1 := by
  ext i j
  have hlen : (gridRow g i).length = n := h.getD_length i.isLt
  rw [gridBlock_apply, entry, gridRow_augmentIdentity n 0 (h.1 ▸ i.isLt),
    List.getD_append_right _ _ _ _ (by omega), hlen, Nat.add_sub_cancel_left, Nat.zero_add]
  simp only [List.getD_eq_getElem?_getD, List.getElem?_map, List.getElem?_range j.isLt, Option.map_some,
    Option.getD_some, Matrix.one_apply, Fin.ext_iff]
  split
  · exact toZ_one
  · exact toZ_zero

/-- The test of R135, on the matrix. -/
theorem leftIsIdentity_iff : leftIsIdentity t n = true ↔ gridBlock n n 0 t = 1 := by
  have hentry : ∀ i j : Fin n, gridBlock n n 0 t i j = (1 : Matrix _ _ (ZMod 257)) i j ↔
      entry t i j = if (i : Nat) = j then 1 else 0 := fun i j => by
    rw [gridBlock_apply, Nat.zero_add, Matrix.one_apply, ← toZ_inj, apply_ite toZ, toZ_one, toZ_zero]
    simp only [Fin.ext_iff]
  simp only [leftIsIdentity, List.all_eq_true, List.mem_range, beq_iff_eq, ← Matrix.ext_iff, hentry, Fin.forall_iff]

/-- A reduced form whose left block is invertible has the identity there: no row of the block is 0, so every row has
its pivot in it (R133, R135). -/
theorem gridBlock_eq_one_of_reduced (h : Echelon n cols t pivotCols) (hcleared : ClearedFrom 0 t pivotCols)
    (hcols : n ≤ cols) (hdet : (gridBlock n n 0 t).det ≠ 0) : gridBlock n n 0 t = 1 := by
  have hrow : ∀ i, i < n → ∃ j, j < n ∧ entry t i j ≠ 0 := fun i hi => by
    by_contra! hzero
    refine hdet (Matrix.det_eq_zero_of_row_eq_zero ⟨i, hi⟩ fun j => ?_)
    rw [gridBlock_apply, Nat.zero_add, hzero j j.isLt, toZ_zero]
  have hpivot : ∀ i, i < n → ∃ c, pivotCols[i]? = some c ∧ c < n := fun i hi => by
    obtain ⟨j, hj, hne⟩ := hrow i hi
    by_contra! hright
    exact hne (h.zero_of_pivot_right hi (hj.trans_le hcols) fun c hc => hj.trans_le (hright c hc))
  have hcount : pivotCols.length = n := by
    refine le_antisymm h.count_le (not_lt.1 fun hlt => ?_)
    obtain ⟨c, hc, -⟩ := hpivot _ hlt
    exact absurd (Echelon.lt_count hc) (lt_irrefl _)
  have hlt : ∀ c ∈ pivotCols, c < n := fun c hc => by
    obtain ⟨i, hi, rfl⟩ := List.getElem_of_mem hc
    obtain ⟨c, hc', hcn⟩ := hpivot i (hcount ▸ hi)
    rwa [List.getElem?_eq_getElem hi, Option.some_inj.1 hc'] at *
  obtain rfl := h.eq_range hcount hlt
  have hdiag : ∀ j : Fin n, (List.range n)[(j : Nat)]? = some (j : Nat) := fun j => List.getElem?_range j.isLt
  ext i j
  rw [gridBlock_apply, Nat.zero_add]
  obtain hij | rfl | hij := lt_trichotomy i j
  · rw [hcleared j j (Nat.zero_le _) (hdiag j) i hij, Matrix.one_apply_ne hij.ne, toZ_zero]
  · rw [h.pivot_one i i (hdiag i), Matrix.one_apply_eq, toZ_one]
  · rw [h.zero_below j j (hdiag j) i hij i.isLt, Matrix.one_apply_ne hij.ne', toZ_zero]

/-- The reduced augmented grid: its right half times the old grid is its left half, which is the identity as soon as
the old grid has an inverse (R131). -/
theorem invGrid_spec (h : Rect n n g) :
    Rect n (n + n) (invGrid n g) ∧
    gridBlock n n n (invGrid n g) * gridBlock n n 0 g = gridBlock n n 0 (invGrid n g) ∧
    (∀ Q, Q * gridBlock n n 0 g = 1 → gridBlock n n 0 (invGrid n g) = 1) := by
  have haugment := augmentIdentity_rect n 0 h
  rw [invGrid, two_mul]
  obtain ⟨pivotCols, d, hrect, hechelon, hcleared, E, hdet, hE⟩ := reduce_spec haugment
  have hright : gridBlock n n n (reduce (augmentIdentity n 0 g) n (n + n)) = E := by
    rw [hE, gridBlock_augmentIdentity_right h, Matrix.mul_one]
  have hleft : gridBlock n n 0 (reduce (augmentIdentity n 0 g) n (n + n)) = E * gridBlock n n 0 g := by
    rw [hE, gridBlock_augmentIdentity_left h]
  refine ⟨hrect, by rw [hright, hleft], fun Q hQ => ?_⟩
  refine gridBlock_eq_one_of_reduced hechelon hcleared (Nat.le_add_right n n) fun hzero => ?_
  have hunit : (E.det * d) * (Q.det * (gridBlock n n 0 g).det) = 1 := by
    rw [hdet, ← Matrix.det_mul, hQ, Matrix.det_one, mul_one]
  rw [hleft, Matrix.det_mul] at hzero
  have hone : (0 : ZMod 257) = 1 := by
    rw [← hunit]
    linear_combination (-(d * Q.det)) * hzero
  exact absurd hone (by decide)

/-- A product that is the identity, in the words of the statements. -/
theorem product_eq_one_iff (n : Nat) (q a : Nat → Nat → Felt) :
    (∀ i j, i < n → j < n →
      (∑ l ∈ Finset.range n, (q i l).val * (a l j).val) % 257 = if i = j then 1 else 0) ↔
    (Matrix.of fun i j : Fin n => toZ (q i j)) * (Matrix.of fun i j : Fin n => toZ (a i j)) = 1 := by
  have hsmall : ∀ i j : Nat, (if i = j then 1 else 0) < 257 := fun i j => by split <;> decide
  simp only [sum_mod_eq_iff n _ (fun l => a l _) (hsmall _ _), ← Matrix.ext_iff, Matrix.mul_apply, Matrix.of_apply,
    Fin.forall_iff, Matrix.one_apply, Fin.ext_iff, Nat.cast_ite, Nat.cast_one, Nat.cast_zero]
  exact forall_congr' fun i => forall_comm

theorem gridBlock_zero (rows cols : Nat) (g : Grid) :
    gridBlock rows cols 0 g = Matrix.of fun (i : Fin rows) (j : Fin cols) => toZ (entry g i j) := by
  ext i j
  rw [gridBlock_apply, Nat.zero_add, Matrix.of_apply]

/-- The columns from `n` on, taken as a grid of their own (R131). -/
theorem gridBlock_drop (rows cols n : Nat) (g : Grid) :
    gridBlock rows cols 0 (g.map fun row => row.drop n) = gridBlock rows cols n g := by
  ext i j
  have hrow : gridRow (g.map fun row => row.drop n) i = (gridRow g i).drop n := by
    simp only [gridRow, List.getD_eq_getElem?_getD, List.getElem?_map]
    cases g[(i : Nat)]? <;> simp
  rw [gridBlock_apply, gridBlock_apply, entry, hrow, Nat.zero_add, List.getD_eq_getElem?_getD, List.getElem?_drop,
    ← List.getD_eq_getElem?_getD]
  rfl

end

section
variable {s : State} {b : BankSel} {g : Grid}

theorem exec_minv (hm : (bankOf s b).rows ≠ 0) (hsquare : (bankOf s b).cols = (bankOf s b).rows)
    (hg : gridOf (bankOf s b) = .ok g)
    (hone : gridBlock (bankOf s b).rows (bankOf s b).rows 0 (invGrid (bankOf s b).rows g) = 1) :
    exec (.minv b) s = .next { setBank s b (Bank.ofGrid (bankOf s b).rows (bankOf s b).rows
      ((invGrid (bankOf s b).rows g).map fun row => row.drop (bankOf s b).rows)) with cmdcnt := s.cmdcnt + 1 } :=
  (exec_minv_of_grid hm hsquare hg).trans <|
    (finish_raiseIf_of_not (ne_false_of_eq_true (leftIsIdentity_iff.2 hone))).trans <| finish_setBank ..

theorem exec_minv_of_singular (hm : (bankOf s b).rows ≠ 0) (hsquare : (bankOf s b).cols = (bankOf s b).rows)
    (hg : gridOf (bankOf s b) = .ok g)
    (hone : gridBlock (bankOf s b).rows (bankOf s b).rows 0 (invGrid (bankOf s b).rows g) ≠ 1) :
    exec (.minv b) s = .next (raised 4 0 (encode (.minv b)) s) :=
  (exec_minv_of_grid hm hsquare hg).trans <|
    finish_raiseIf_of (Bool.eq_false_iff.2 fun h => hone (leftIsIdentity_iff.1 h))

end

/-- Settles O39: the right half of the reduced grid is the inverse exactly when its left half is the identity, which it
is when there is an inverse. -/
theorem minvInvertsOrRaisesSingular : Obligations.MinvInvertsOrRaisesSingular := by
  rintro b s n hok rfl hsquare hrows hall
  obtain ⟨g, hg, hbank, hrect⟩ := exists_grid hok hall
  have hvalue : ∀ r c, elemValue (bankOf s b) r c = entry g r c := fun r c => by
    rw [hbank, elemValue_ofGrid]
  rw [hsquare] at hrect
  obtain ⟨hrect', hproduct, hidentity⟩ := invGrid_spec hrect
  have hdrop := hrect'.map (f := fun row => row.drop (bankOf s b).rows) (cols' := (bankOf s b).rows)
    fun row hrow => by rw [List.length_drop, hrow, Nat.add_sub_cancel]
  have hinverse (hone : gridBlock (bankOf s b).rows (bankOf s b).rows 0 (invGrid (bankOf s b).rows g) = 1) := by
    have hinv := hproduct.trans hone
    rwa [← gridBlock_drop, gridBlock_zero, gridBlock_zero, ← product_eq_one_iff] at hinv
  simp only [hvalue]
  refine ⟨fun ⟨q, hq⟩ => ?inverse, fun hnone => ?singular⟩
  case inverse =>
    rw [product_eq_one_iff, ← gridBlock_zero _ _ g] at hq
    have hone := hidentity _ hq
    refine ⟨_, exec_minv hrows hsquare hg hone, rfl, rfl, allInitialised_ofGrid hdrop, ?_⟩
    simp only [elemValue_ofGrid]
    exact hinverse hone
  case singular =>
    exact exec_minv_of_singular hrows hsquare hg fun hone => hnone ⟨_, hinverse hone⟩

end Sys2Proof.Proofs

/-!
SUPPORT. PTSET and MVAND (R151 to R153): one point written, its operands in range or refused in order, and the
augmented Vandermonde grid entry by entry.
-/

namespace Sys2Proof.Proofs

open Sys2Proof Sys2Proof.Machine Sys2Proof.Safety

/-! ### PTSET (R151) -/

section
variable {s : State} {ra rb rc : RegIdx} {w : Word}

theorem finish_bufferIndex_of_lt {rule : Fin Config.bufSize → Except Raise State} (h : s.x[ra].toNat < 257) :
    finish w s (bufferIndex s ra >>= rule) = finish w s (rule ⟨s.x[ra].toNat, h⟩) :=
  congrArg (finish w s) (bind_eq_of_ok (bufferIndex_ok.2 rfl))

theorem finish_bufferIndex_of_ge {rule : Fin Config.bufSize → Except Raise State} (h : 257 ≤ s.x[ra].toNat) :
    finish w s (bufferIndex s ra >>= rule) = .next (raised 8 s.x[ra] w s) :=
  finish_of_error (bind_eq_of_error (bufferIndex_error.2 ⟨h, rfl⟩))

theorem exec_ptset (hi : s.x[ra].toNat < 257) (hx : s.x[rb].toNat < 257) (hy : s.x[rc].toNat < 257) :
    exec (.ptset ra rb rc) s = .next (countCommand { s with
      pt := s.pt.set s.x[ra].toNat ⟨feltOf s.x[rb].toNat, feltOf s.x[rc].toNat⟩ hi }) :=
  (finish_bufferIndex_of_lt hi).trans <| (finish_fieldOperand_of_lt _ _ hx).trans <|
    finish_fieldOperand_of_lt _ _ hy

end

/-- Settles O42: the three operands one after the other, each in range or refused. -/
theorem ptsetWritesOnePoint : Obligations.PtsetWritesOnePoint := by
  intro ra rb rc s
  refine ⟨fun hi hx hy => ⟨_, exec_ptset hi hx hy, fun i => ?entry⟩, finish_bufferIndex_of_ge, fun hi hx => ?x,
    fun hi hx hy => ?y⟩
  case entry => simp only [Fin.getElem_fin, Vector.getElem_set, eq_comm]
  case x => exact (finish_bufferIndex_of_lt hi).trans (finish_fieldOperand_of_ge _ _ hx)
  case y =>
    exact (finish_bufferIndex_of_lt hi).trans <| (finish_fieldOperand_of_lt _ _ hx).trans <|
      finish_fieldOperand_of_ge _ _ hy

/-! ### The Vandermonde grid (R152) -/

theorem getD_powersFrom (x : Felt) {count j : Nat} (hj : j < count) (acc : Felt) :
    (powersFrom x count acc).getD j 0 = feltOf (acc.val * x.val ^ j) := by
  induction count generalizing acc j with
  | zero => simp at hj
  | succ count ih =>
    cases j with
    | zero => simp [powersFrom]
    | succ j =>
      have hacc : (fmul acc x).val * x.val ^ j % 257 = acc.val * x.val ^ (j + 1) % 257 := by
        rw [fmul_val, Nat.mod_mul_mod, pow_succ', mul_assoc]
      rw [powersFrom, List.getD_cons_succ, ih (Nat.lt_of_succ_lt_succ hj)]
      exact Fin.ext hacc

theorem getD_vandRow_of_lt {k j : Nat} (hj : j < k) (pt : Point) :
    (vandRow k pt).getD j 0 = feltOf (pt.x.val ^ j) := by
  rw [vandRow, List.getD_append _ _ _ _ (by simpa using hj), getD_powersFrom _ hj, Fin.val_one, one_mul]

theorem getD_vandRow_last (k : Nat) (pt : Point) : (vandRow k pt).getD k 0 = pt.y := by
  rw [vandRow, List.getD_append_right _ _ _ _ (by simp), powersFrom_length, Nat.sub_self]
  rfl

/-- The point set as a family over the rows of the grid (R21). -/
def pointAt (s : State) (hk : s.k ≤ 257) (r : Fin s.k) : Point := s.pt[Fin.castLE hk r]

theorem points_eq_ofFn (s : State) (hk : s.k ≤ 257) : points s = List.ofFn (pointAt s hk) := by
  refine List.ext_getElem (by simp [points_length hk]) fun r _ _ => ?_
  simp [points, pointAt]

/-- What is said of the entries below `K` of a buffer is said of the rows of the grid. -/
theorem forall_lt_iff_castLE {k : Nat} (hk : k ≤ 257) {P : Fin 257 → Prop} :
    (∀ i : Fin 257, i.val < k → P i) ↔ ∀ r : Fin k, P (Fin.castLE hk r) :=
  ⟨fun h r => h _ r.isLt, fun h i hi => h ⟨i, hi⟩⟩

section
variable {k : Nat} (p : Fin k → Point)

theorem gridRow_vand (r : Fin k) : gridRow (vand k (List.ofFn p)) r = vandRow k (p r) := by
  simp [gridRow, vand]

theorem entry_vand_of_lt (r : Fin k) {j : Nat} (hj : j < k) :
    entry (vand k (List.ofFn p)) r j = feltOf ((p r).x.val ^ j) := by
  rw [entry, gridRow_vand, getD_vandRow_of_lt hj]

theorem entry_vand_last (r : Fin k) : entry (vand k (List.ofFn p)) r k = (p r).y := by
  rw [entry, gridRow_vand, getD_vandRow_last]

end

/-! ### MVAND (R153) -/

section
variable {s : State} {w : Word}

theorem finish_needK_of_ne {rule : Unit → Except Raise State} (h : s.k ≠ 0) :
    finish w s (needK s >>= rule) = finish w s (rule ()) :=
  finish_raiseIf_of_not h

theorem finish_needK_of_zero {rule : Unit → Except Raise State} (h : s.k = 0) :
    finish w s (needK s >>= rule) = .next (raised 6 0 w s) :=
  finish_raiseIf_of h

theorem exec_mvand {b : BankSel} (h : s.k ≠ 0) :
    exec (.mvand b) s = .next { setBank s b (Bank.ofGrid s.k (s.k + 1) (vand s.k (points s))) with
      cmdcnt := s.cmdcnt + 1 } :=
  (finish_needK_of_ne h).trans (finish_setBank ..)

end

/-- Every machine has room for the grid (R7, R16). -/
theorem dimsOk_vand (p : Config.Params) {k : Nat} (hk : k ≠ 0) (hle : k ≤ 257) : DimsOk p k (k + 1) := by
  have hrows := p.rows_min
  have hcols := p.cols_min
  exact ⟨by omega, by omega, by omega, by omega⟩

/-- Settles O43: the bank is the grid, which is read entry by entry. -/
theorem mvandBuildsTheVandermondeGrid : Obligations.MvandBuildsTheVandermondeGrid := by
  refine fun b s => ⟨fun hk hle => ?grid, finish_needK_of_zero⟩
  have hrect := vand_rect hle
  refine ⟨_, exec_mvand hk, rfl, rfl, .ofGrid (dimsOk_vand s.params hk hle) hrect, ?entries⟩
  rw [points_eq_ofFn s hle] at hrect ⊢
  rw [forall_lt_iff_castLE hle]
  refine fun r => ⟨fun j hj => ?_, ?_⟩
  · rw [Fin.val_castLE, elem_ofGrid hrect r.isLt (hj.trans (Nat.lt_succ_self _)), entry_vand_of_lt _ r hj]
    rfl
  · rw [Fin.val_castLE, elem_ofGrid hrect r.isLt (Nat.lt_succ_self _), entry_vand_last]
    rfl

end Sys2Proof.Proofs

/-!
SUPPORT. The value of a polynomial (R190) in Mathlib's field, and the overflow-avoidance rule (R196): PSHARE leaves no
evaluation that is 256, so `EV` holds the evaluations of the corrected coefficients unchanged.
-/

namespace Sys2Proof.Proofs

open Sys2Proof Sys2Proof.Machine Sys2Proof.Safety

/-! ### The value of a polynomial (R190) -/

theorem toZ_feltOf (v : Nat) : toZ (feltOf v) = (v : ZMod 257) := ZMod.natCast_mod v 257

theorem peval_cons (v : Felt) (c : List Felt) (x : Felt) : peval (v :: c) x = fadd v (fmul (peval c x) x) := rfl

/-- Horner's rule sums the powers (R190). -/
theorem toZ_peval (c : List Felt) (x : Felt) :
    toZ (peval c x) = ∑ j : Fin c.length, toZ (c.getD j 0) * toZ x ^ (j : Nat) := by
  induction c with
  | nil => exact toZ_zero
  | cons v c ih =>
    have hshift : toZ (peval c x) * toZ x = ∑ j : Fin c.length, toZ (c.getD j 0) * toZ x ^ ((j : Nat) + 1) := by
      rw [ih, Finset.sum_mul]
      exact Finset.sum_congr rfl fun j _ => by rw [pow_succ, mul_assoc]
    rw [peval_cons, toZ_fadd, toZ_fmul, hshift]
    simp [Fin.sum_univ_succ]

/-- The value by Horner's rule is the sum on unbounded integers, reduced (R190). -/
theorem polyValue_eq_peval (c : List Felt) (x : Felt) : polyValue c x.val = (peval c x).val := by
  have hcast : ((∑ j ∈ Finset.range c.length, (c.getD j 0).val * x.val ^ j : Nat) : ZMod 257) =
      toZ (peval c x) := by
    rw [toZ_peval, Finset.sum_range, Nat.cast_sum]
    exact Finset.sum_congr rfl fun j _ => by rw [Nat.cast_mul, Nat.cast_pow]; rfl
  rw [polyValue, ← ZMod.val_natCast, hcast, toZ_val]

/-- A polynomial takes a value at a point. -/
theorem polyValue_eq_iff (c : List Felt) (x y : Felt) : polyValue c x.val = y.val ↔ peval c x = y := by
  rw [polyValue_eq_peval, Fin.ext_iff]

/-! ### The overflow-avoidance rule (R196) -/

theorem peval_eq_zero {c : List Felt} (h : ∀ v ∈ c, v = 0) (x : Felt) : peval c x = 0 := by
  induction c with
  | nil => rfl
  | cons v c ih =>
    obtain ⟨hv, hc⟩ := List.forall_mem_cons.1 h
    rw [peval_cons, hv, ih hc, zero_fmul, fadd_zero]

theorem mem_evaluations {c : List Felt} {n : Nat} {v : Felt} :
    v ∈ evaluations c n ↔ ∃ x, 1 ≤ x ∧ x < 1 + n ∧ peval c (feltOf x) = v := by
  simp [evaluations, and_assoc]

/-- A polynomial that takes the value 256 has a non-zero coefficient, so a decrement is possible (R196). -/
theorem exists_ne_zero_of_overflow {c : List Felt} {n : Nat} (h : 256 ∈ evaluations c n) : ∃ v ∈ c, v ≠ 0 := by
  obtain ⟨x, -, -, hx⟩ := mem_evaluations.1 h
  by_contra! hzero
  rw [peval_eq_zero hzero] at hx
  exact absurd hx (by decide)

/-- A decrement lowers the sum of the coefficients by 1 (R196). -/
theorem coefficientSum_decrementFirst {c : List Felt} (h : ∃ v ∈ c, v ≠ 0) :
    coefficientSum (decrementFirst c) + 1 = coefficientSum c := by
  induction c with
  | nil => simp at h
  | cons v c ih =>
    rw [decrementFirst]
    split
    next hv =>
      have hc : coefficientSum (decrementFirst c) + 1 = coefficientSum c := ih (by simpa [hv] using h)
      simp only [coefficientSum, List.map_cons, List.sum_cons] at hc ⊢
      omega
    next hv =>
      have hpos : 0 < v.val := Nat.pos_of_ne_zero (Fin.val_ne_zero_iff.2 hv)
      have hlt := v.isLt
      simp only [coefficientSum, List.map_cons, List.sum_cons, feltOf_val]
      omega

/-- The sum of the coefficients bounds the decrements, so the rule always ends with no evaluation at 256 (R196). -/
theorem correctOverflow_avoids (n fuel : Nat) {c : List Felt} (h : coefficientSum c ≤ fuel) (cnt : Nat) :
    256 ∉ evaluations (correctOverflow n fuel c cnt).1 n := by
  induction fuel generalizing c cnt with
  | zero =>
    intro hmem
    have hsum := coefficientSum_decrementFirst (exists_ne_zero_of_overflow hmem)
    exact absurd (hsum.trans_le h) (Nat.not_succ_le_zero _)
  | succ fuel ih =>
    rw [correctOverflow]
    split
    next hmem =>
      have hsum := coefficientSum_decrementFirst (exists_ne_zero_of_overflow (List.contains_iff_mem.1 hmem))
      exact ih (by omega) (cnt + 1)
    next hmem => exact fun h256 => hmem (List.contains_iff_mem.2 h256)

theorem correctOverflow_length (n fuel : Nat) (c : List Felt) (cnt : Nat) :
    (correctOverflow n fuel c cnt).1.length = c.length := by
  induction fuel generalizing c cnt with
  | zero => rfl
  | succ fuel ih =>
    rw [correctOverflow]
    split
    · rw [ih, decrementFirst_length]
    · rfl

/-! ### Replacing the first entries of a buffer -/

section
variable {α : Type}

theorem overlay_eq_append {vs olds : List α} (h : vs.length ≤ olds.length) :
    overlay vs olds = vs ++ olds.drop vs.length := by
  induction vs, olds using overlay.induct with
  | case1 v vs old olds ih => simpa [overlay] using ih (by simpa using h)
  | case2 olds => simp [overlay]
  | case3 v vs => simp at h

/-- The first entries read back (R19). -/
theorem take_overwriteFirst {n k : Nat} {vs : List α} (hvs : vs.length = k) (hk : k ≤ n) (buf : Vector α n) :
    (overwriteFirst vs buf).toList.take k = vs := by
  have hbuf : vs.length ≤ buf.toList.length := by simpa [hvs] using hk
  change (overlay vs buf.toList).take k = vs
  rw [overlay_eq_append hbuf, List.take_left' hvs]

/-- A buffer's own first entries written to it change nothing. -/
theorem overwriteFirst_take {n : Nat} (k : Nat) (buf : Vector α n) :
    overwriteFirst (buf.toList.take k) buf = buf := by
  ext i hi
  rw [overwriteFirst_getElem]
  split <;> simp

end

/-! ### PSHARE (R196) -/

/-- What the overflow-avoidance rule answers for the block of a state: the corrected coefficients and the number of
decrements. -/
def correctedBlock (s : State) : List Felt × Nat :=
  correctOverflow s.n (coefficientSum (coefficients s)) (coefficients s) 0

section
variable {s : State}

theorem correctedBlock_length (hk : s.k ≤ 257) : (correctedBlock s).1.length = s.k :=
  (correctOverflow_length _ _ _ _).trans (coefficients_length hk)

theorem byteCoefficients_of_le (h : ∀ i : Fin 257, i.val < s.k → s.cb[i].val ≤ 255) :
    byteCoefficients s = .ok (coefficients s) := by
  refine byteCoefficients_ok.2 ⟨rfl, fun v hv => ?_⟩
  obtain ⟨i, hi, rfl⟩ := List.getElem_of_mem hv
  obtain ⟨hik, hi257⟩ : i < s.k ∧ i < 257 := by simpa [coefficients] using hi
  simpa [coefficients] using h ⟨i, hi257⟩ hik

theorem exec_pshare (hn : s.n ≠ 0) (h : ∀ i : Fin 257, i.val < s.k → s.cb[i].val ≤ 255) :
    exec .pshare s = .next (countCommand { s with
      cb := overwriteFirst (correctedBlock s).1 s.cb
      ev := overwriteFirst ((evaluations (correctedBlock s).1 s.n).map fun e => BitVec.ofNat 8 e.val) s.ev
      corrcnt := BitVec.ofNat 32 (correctedBlock s).2 }) :=
  (finish_raiseIf_of_not hn).trans (congrArg (finish _ s) (bind_eq_of_ok (byteCoefficients_of_le h)))

/-- The evaluations PSHARE stores are values of the corrected polynomial: none is 256, so each fits its byte. -/
theorem toNat_ev_pshare {j : Nat} (hj : j < s.n) (hj' : j < 256) :
    (overwriteFirst ((evaluations (correctedBlock s).1 s.n).map fun e => BitVec.ofNat 8 e.val) s.ev)[j].toNat =
      (peval (correctedBlock s).1 (feltOf (j + 1))).val := by
  have hne : peval (correctedBlock s).1 (feltOf (j + 1)) ≠ 256 := fun h256 =>
    correctOverflow_avoids s.n _ le_rfl 0 (mem_evaluations.2 ⟨j + 1, by omega, by omega, h256⟩)
  have hbyte : (peval (correctedBlock s).1 (feltOf (j + 1))).val < 256 :=
    lt_of_le_of_ne (Nat.le_of_lt_succ (Fin.isLt _)) fun h => hne (Fin.ext h)
  rw [overwriteFirst_getElem, dif_pos (by simpa using hj), List.getElem_map]
  simp only [evaluations, List.getElem_map, List.getElem_range', one_mul, Nat.add_comm 1 j, BitVec.toNat_ofNat]
  exact Nat.mod_eq_of_lt hbyte

end

end Sys2Proof.Proofs

/-!
SUPPORT. ISOLVE (R154 to R156, R199): elimination on an augmented square grid solves its linear system when the square
block is invertible, the Vandermonde block is invertible exactly when the x-values are distinct, and the only solution
is the list of coefficients of the only polynomial through the points.
-/

namespace Sys2Proof.Proofs

open Sys2Proof Sys2Proof.Machine Sys2Proof.Safety

/-! ### An augmented square grid (R129, R135) -/

/-- 257 is prime, so the field has no zero divisors (R100). -/
theorem isDomain_zmod_257 : IsDomain (ZMod 257) :=
  have : Fact (Nat.Prime 257) := ⟨by norm_num⟩
  Field.isDomain

section
variable {n : Nat} {g : Grid}

/-- The left block is reduced to the identity exactly when it is invertible (R135). -/
theorem leftIsIdentity_reduce_iff (h : Rect n (n + 1) g) :
    leftIsIdentity (reduce g n (n + 1)) n = true ↔ (gridBlock n n 0 g).det ≠ 0 := by
  have := isDomain_zmod_257
  obtain ⟨pivotCols, d, -, hechelon, hcleared, htransform⟩ := reduce_spec h
  have hdet := htransform.det_eq
  rw [leftIsIdentity_iff]
  constructor
  · intro hone
    obtain ⟨E, hE, -⟩ := htransform
    rw [hdet, hone, Matrix.det_one, mul_one]
    exact right_ne_zero_of_mul_eq_one hE
  · intro hne
    rw [hdet] at hne
    exact gridBlock_eq_one_of_reduced hechelon hcleared (Nat.le_succ n) (right_ne_zero_of_mul hne)

/-- And then the last column is the only solution of the system (R154). -/
theorem mul_eq_lastColumn_iff (h : Rect n (n + 1) g) (hone : leftIsIdentity (reduce g n (n + 1)) n = true)
    (X : Matrix (Fin n) (Fin 1) (ZMod 257)) :
    gridBlock n n 0 g * X = gridBlock n 1 n g ↔ X = gridBlock n 1 n (reduce g n (n + 1)) := by
  obtain ⟨-, -, -, -, -, E, -, hE⟩ := reduce_spec h
  rw [leftIsIdentity_iff, hE] at hone
  rw [hE]
  constructor
  · intro hX
    rw [← hX, ← Matrix.mul_assoc, hone, Matrix.one_mul]
  · rintro rfl
    rw [← Matrix.mul_assoc, mul_eq_one_comm.1 hone, Matrix.one_mul]

end

/-! ### The Vandermonde system (R152) -/

/-- A list of coefficients as a column. -/
def coefficientColumn (k : Nat) (c : List Felt) : Matrix (Fin k) (Fin 1) (ZMod 257) :=
  Matrix.of fun j _ => toZ (c.getD j 0)

section
variable {k : Nat}

theorem coefficientColumn_inj {c c' : List Felt} (hc : c.length = k) (hc' : c'.length = k) :
    coefficientColumn k c = coefficientColumn k c' ↔ c = c' := by
  refine ⟨fun h => List.ext_getElem (hc.trans hc'.symm) fun j hj hj' => ?_, fun h => h ▸ rfl⟩
  have hentry := toZ_inj.1 (congrFun (congrFun h ⟨j, hc ▸ hj⟩) 0)
  rwa [List.getD_eq_getElem _ _ hj, List.getD_eq_getElem _ _ hj'] at hentry

theorem coefficientColumn_solutionColumn (t : Grid) :
    coefficientColumn k (solutionColumn t k) = gridBlock k 1 k t := by
  ext j l
  obtain rfl := Subsingleton.elim l 0
  simp [coefficientColumn, solutionColumn, gridBlock_apply]

variable (p : Fin k → Point)

theorem gridBlock_vand_left :
    gridBlock k k 0 (vand k (List.ofFn p)) = Matrix.vandermonde fun r => toZ (p r).x := by
  ext r j
  rw [gridBlock_apply, Nat.zero_add, entry_vand_of_lt p r j.isLt, toZ_feltOf, Nat.cast_pow]
  rfl

/-- A solution of the system is a polynomial through the points (R150, R155). -/
theorem vand_mul_eq_iff {c : List Felt} (hc : c.length = k) :
    gridBlock k k 0 (vand k (List.ofFn p)) * coefficientColumn k c = gridBlock k 1 k (vand k (List.ofFn p)) ↔
      ∀ r, peval c (p r).x = (p r).y := by
  subst hc
  have hrow : ∀ r, ((Matrix.vandermonde fun r => toZ (p r).x) * coefficientColumn c.length c) r 0 =
      toZ (peval c (p r).x) := fun r => by
    rw [toZ_peval, Matrix.mul_apply]
    exact Finset.sum_congr rfl fun j _ => mul_comm _ _
  have hlast : ∀ r, gridBlock c.length 1 c.length (vand c.length (List.ofFn p)) r 0 = toZ (p r).y := fun r => by
    rw [gridBlock_apply, Fin.val_zero, Nat.add_zero, entry_vand_last]
  simp only [gridBlock_vand_left, ← Matrix.ext_iff, Fin.forall_fin_one, hrow, hlast, toZ_inj]

/-- Distinct x-values make the Vandermonde block invertible, and only they do (R155). -/
theorem leftIsIdentity_vand_iff (h : Rect k (k + 1) (vand k (List.ofFn p))) :
    leftIsIdentity (reduce (vand k (List.ofFn p)) k (k + 1)) k = true ↔
      Function.Injective fun r => (p r).x := by
  have := isDomain_zmod_257
  have hcomp : (fun r => toZ (p r).x) = toZ ∘ fun r => (p r).x := rfl
  have hinj : Function.Injective toZ := fun _ _ => toZ_inj.1
  rw [leftIsIdentity_reduce_iff h, gridBlock_vand_left, Matrix.det_vandermonde_ne_zero_iff, hcomp, hinj.of_comp_iff]

end

/-! ### ISOLVE (R154) -/

/-- The scratch grid of ISOLVE, reduced (R154). -/
def isolveGrid (s : State) : Grid := reduce (vand s.k (points s)) s.k (s.k + 1)

/-- The x-values of the points are pairwise distinct (R155). -/
def DistinctX (s : State) : Prop :=
  ∀ i j : Fin 257, i.val < s.k → j.val < s.k → i ≠ j → s.pt[i].x ≠ s.pt[j].x

/-- The polynomial of the coefficients goes through the points (R150). -/
def Interpolates (s : State) (c : List Felt) : Prop :=
  ∀ i : Fin 257, i.val < s.k → polyValue c s.pt[i].x.val = s.pt[i].y.val

section
variable {s : State}

theorem exec_isolve_of_identity (hk : s.k ≠ 0) (h : leftIsIdentity (isolveGrid s) s.k = true) :
    exec .isolve s =
      .next (countCommand { s with cb := overwriteFirst (solutionColumn (isolveGrid s) s.k) s.cb }) :=
  (finish_needK_of_ne hk).trans (finish_raiseIf_of_not (ne_false_of_eq_true h))

theorem exec_isolve_of_not_identity (hk : s.k ≠ 0) (h : ¬leftIsIdentity (isolveGrid s) s.k = true) :
    exec .isolve s = .next (raised 3 0 (encode .isolve) s) :=
  (finish_needK_of_ne hk).trans (finish_raiseIf_of (Bool.eq_false_iff.2 h))

theorem distinctX_iff (hle : s.k ≤ 257) :
    DistinctX s ↔ Function.Injective fun r => (pointAt s hle r).x := by
  constructor
  · intro h r r' hx
    by_contra hne
    exact h (Fin.castLE hle r) (Fin.castLE hle r') r.isLt r'.isLt ((Fin.castLE_injective hle).ne hne) hx
  · intro h i j hi hj hne hx
    exact hne (congrArg (Fin.castLE hle) (h (a₁ := ⟨i, hi⟩) (a₂ := ⟨j, hj⟩) hx))

theorem interpolates_iff (hle : s.k ≤ 257) (c : List Felt) :
    Interpolates s c ↔ ∀ r, peval c (pointAt s hle r).x = (pointAt s hle r).y := by
  simp only [Interpolates, polyValue_eq_iff]
  exact forall_lt_iff_castLE hle

/-- ISOLVE's check passes exactly on distinct x-values (R155). -/
theorem leftIsIdentity_isolveGrid_iff (hle : s.k ≤ 257) :
    leftIsIdentity (isolveGrid s) s.k = true ↔ DistinctX s := by
  have hrect := vand_rect hle
  rw [points_eq_ofFn s hle] at hrect
  rw [isolveGrid, points_eq_ofFn s hle, leftIsIdentity_vand_iff _ hrect, distinctX_iff hle]

/-- On distinct x-values exactly one list of `K` coefficients goes through the points, the one ISOLVE reads off the
reduced grid (R155). -/
theorem interpolates_iff_eq_solution (hle : s.k ≤ 257) (h : DistinctX s) {c : List Felt} (hc : c.length = s.k) :
    Interpolates s c ↔ c = solutionColumn (isolveGrid s) s.k := by
  have hone := (leftIsIdentity_isolveGrid_iff hle).2 h
  have hrect := vand_rect hle
  rw [← coefficientColumn_inj hc (solutionColumn_length _ _), coefficientColumn_solutionColumn]
  rw [isolveGrid] at hone ⊢
  rw [← mul_eq_lastColumn_iff hrect hone, points_eq_ofFn s hle, vand_mul_eq_iff _ hc, interpolates_iff hle]

theorem exec_isolve (hk : s.k ≠ 0) (hle : s.k ≤ 257) (h : DistinctX s) :
    exec .isolve s =
      .next (countCommand { s with cb := overwriteFirst (solutionColumn (isolveGrid s) s.k) s.cb }) :=
  exec_isolve_of_identity hk ((leftIsIdentity_isolveGrid_iff hle).2 h)

theorem exec_isolve_of_equal_x (hk : s.k ≠ 0) (hle : s.k ≤ 257) (h : ¬DistinctX s) :
    exec .isolve s = .next (raised 3 0 (encode .isolve) s) :=
  exec_isolve_of_not_identity hk fun hone => h ((leftIsIdentity_isolveGrid_iff hle).1 hone)

/-- Points of the polynomial that `CB` holds give it back (R156). -/
theorem exec_isolve_of_interpolates (hk : s.k ≠ 0) (hle : s.k ≤ 257) (h : DistinctX s)
    (hc : Interpolates s (coefficients s)) : exec .isolve s = .next { s with cmdcnt := s.cmdcnt + 1 } := by
  rw [exec_isolve hk hle h, ← (interpolates_iff_eq_solution hle h (coefficients_length hle)).1 hc, coefficients,
    overwriteFirst_take]
  rfl

end

/-- Settles O44: the solution is the only list through the points, and the check fails on equal x-values. -/
theorem isolveInterpolatesIffDistinct : Obligations.IsolveInterpolatesIffDistinct := by
  refine fun s hle => ⟨fun hk hdistinct => ?solved, ?degenerate, finish_needK_of_zero⟩
  case solved =>
    have hunique := fun c => interpolates_iff_eq_solution (c := c) hle hdistinct
    have hlen : (solutionColumn (isolveGrid s) s.k).length = s.k := solutionColumn_length _ _
    have htake : (overwriteFirst (solutionColumn (isolveGrid s) s.k) s.cb).toList.take s.k =
        solutionColumn (isolveGrid s) s.k := take_overwriteFirst hlen hle s.cb
    refine ⟨_, exec_isolve hk hle hdistinct, ?through, fun i hi => ?kept, fun c hc hthrough => ?only⟩
    case through =>
      rw [htake]
      exact (hunique _ hlen).2 rfl
    case kept =>
      rw [Fin.getElem_fin, overwriteFirst_getElem, dif_neg (by omega)]
      rfl
    case only =>
      rw [htake]
      exact (hunique c hc).1 hthrough
  case degenerate =>
    rintro ⟨i, j, hi, hj, hne, hx⟩
    exact exec_isolve_of_equal_x (Nat.ne_of_gt (Nat.zero_lt_of_lt hi)) hle fun h => h i j hi hj hne hx

/-- Settles O45: in both halves the coefficients in `CB` go through the points. -/
theorem interpolationRoundTrip : Obligations.InterpolationRoundTrip := by
  refine ⟨fun s hk hle hdistinct hvalues => ?evaluated, fun s t points' hk hle hn hn' hbytes ht hpoints hdistinct =>
    ?corrected⟩
  case evaluated =>
    exact exec_isolve_of_interpolates hk hle hdistinct fun i hi => (hvalues i hi).symm
  case corrected =>
    obtain rfl := Host.Outcome.next.inj ((exec_pshare hn hbytes).symm.trans ht)
    refine exec_isolve_of_interpolates hk hle hdistinct fun i hi => ?_
    obtain ⟨j, hj, hx, hy⟩ := hpoints i hi
    have htake : (overwriteFirst (correctedBlock s).1 s.cb).toList.take s.k = (correctedBlock s).1 :=
      take_overwriteFirst (correctedBlock_length hle) hle s.cb
    calc polyValue ((overwriteFirst (correctedBlock s).1 s.cb).toList.take s.k) points'[i].x.val
        = (peval (correctedBlock s).1 points'[i].x).val := by rw [htake, polyValue_eq_peval]
      _ = (peval (correctedBlock s).1 (feltOf (j.val + 1))).val := by rw [← hx, feltOf_felt]
      _ = points'[i].y.val := (toNat_ev_pshare hj j.isLt).symm.trans hy.symm

end Sys2Proof.Proofs

/-!
SUPPORT. The mask stream (R161 to R165): MSEED, MNEXT, MXOR and MXORB, for every mask generator. The stream is read off
the generator entry by entry, and masking with the same stretch of it twice is the identity.
-/

namespace Sys2Proof.Proofs

open Sys2Proof Sys2Proof.Machine Sys2Proof.Safety

/-! ### The stream of a generator (R161, R165) -/

section
variable (next : MaskState → MaskState × Byte)

/-- The generator's state after `i` steps from `z`. -/
def streamState (z : MaskState) (i : Nat) : MaskState := (fun z => (next z).1)^[i] z

/-- The byte at index `i` of the stream from `z`. -/
def streamByte (z : MaskState) (i : Nat) : Byte := (next (streamState next z i)).2

theorem streamState_succ (z : MaskState) (i : Nat) : streamState next z (i + 1) = streamState next (next z).1 i :=
  Function.iterate_succ_apply _ i z

theorem streamByte_succ (z : MaskState) (i : Nat) : streamByte next z (i + 1) = streamByte next (next z).1 i :=
  congrArg (fun z' => (next z').2) (streamState_succ next z i)

theorem maskAll_cons (z : MaskState) (v : Felt) (vs : List Felt) :
    maskAll next z (v :: vs) =
      ((maskAll next (next z).1 vs).1, xorByte v (next z).2 :: (maskAll next (next z).1 vs).2) := rfl

/-- Masking a list steps the generator once per value. -/
theorem maskAll_fst (z : MaskState) (vs : List Felt) : (maskAll next z vs).1 = streamState next z vs.length := by
  induction vs generalizing z with
  | nil => rfl
  | cons v vs ih => rw [maskAll_cons, ih, List.length_cons, streamState_succ]

/-- Each value is masked with the byte of the stream at its own index. -/
theorem maskAll_getElem (z : MaskState) (vs : List Felt) (i : Nat) (h : i < vs.length) :
    (maskAll next z vs).2[i]'(by rwa [maskAll_length]) = xorByte vs[i] (streamByte next z i) := by
  induction vs generalizing z i with
  | nil => simp at h
  | cons v vs ih =>
    cases i with
    | zero => rfl
    | succ i =>
      simp only [maskAll_cons, List.getElem_cons_succ, streamByte_succ]
      exact ih _ i (Nat.lt_of_succ_lt_succ h)

end

/-! ### Masking one value (R164, R165) -/

/-- The mask of a value that is a byte is its XOR on unbounded integers, and a byte again. -/
theorem xorByte_val {v : Felt} (h : v.val ≤ 255) (b : Byte) : (xorByte v b).val = v.val ^^^ b.toNat := by
  have hxor : v.val ^^^ b.toNat < 2 ^ 8 := Nat.xor_lt_two_pow (Nat.lt_succ_of_le h) b.isLt
  rw [xorByte, feltOf_val, BitVec.toNat_xor, BitVec.toNat_ofNat, Nat.mod_eq_of_lt (Nat.lt_succ_of_le h)]
  exact Nat.mod_eq_of_lt (by omega)

theorem xorByte_le {v : Felt} (h : v.val ≤ 255) (b : Byte) : (xorByte v b).val ≤ 255 := by
  rw [xorByte_val h]
  exact Nat.le_of_lt_succ (Nat.xor_lt_two_pow (n := 8) (Nat.lt_succ_of_le h) b.isLt)

theorem xorByte_xorByte {v : Felt} (h : v.val ≤ 255) (b : Byte) : xorByte (xorByte v b) b = v := by
  rw [Fin.ext_iff, xorByte_val (xorByte_le h b), xorByte_val h, Nat.xor_xor_cancel_right]

/-- Masking a list of bytes twice from one state gives it back, the generator ending in the same state (R164, R165). -/
theorem maskAll_maskAll (next : MaskState → MaskState × Byte) (z : MaskState) {vs : List Felt}
    (h : ∀ v ∈ vs, v.val ≤ 255) : maskAll next z (maskAll next z vs).2 = ((maskAll next z vs).1, vs) := by
  induction vs generalizing z with
  | nil => rfl
  | cons v vs ih =>
    obtain ⟨hv, hvs⟩ := List.forall_mem_cons.1 h
    simp only [maskAll_cons, ih _ hvs, xorByte_xorByte hv]

/-! ### MSEED and the default generator (R161, R162) -/

theorem maskStep_of_lcg16 {s : State} (h : s.params.maskGen = .lcg16) : maskStep s = lcg16 := by
  rw [maskStep, h]

theorem lcg16_state_toNat (z : MaskState) : (lcg16 z).1.toNat = (25173 * z.toNat + 13849) % 65536 :=
  BitVec.toNat_ofNat ..

/-- The byte of LCG16 is the high half of its next state. -/
theorem lcg16_byte_toNat (z : MaskState) : (lcg16 z).2.toNat = (lcg16 z).1.toNat / 256 := by
  have hstate := (lcg16 z).1.isLt
  change ((lcg16 z).1.extractLsb' 8 8).toNat = _
  rw [BitVec.extractLsb'_toNat, Nat.shiftRight_eq_div_pow]
  omega

/-- Settles O46: the one check of MSEED decides between its two clauses; the generator is `lcg16`. -/
theorem mseedStartsAStream : Obligations.MseedStartsAStream := by
  refine ⟨fun ra rb s => ⟨fun h => ?seeded, fun h => finish_raiseIf_of h⟩, fun s z hgen => ?lcg⟩
  case seeded =>
    rw [BitVec.ofNat_toNat]
    exact finish_raiseIf_of_not (not_lt.2 h)
  case lcg =>
    rw [maskStep_of_lcg16 hgen, lcg16_byte_toNat, lcg16_state_toNat]
    exact ⟨rfl, rfl⟩

/-! ### MNEXT and MXOR (R163, R164) -/

section
variable {s : State} {ra : RegIdx} {w : Word}

theorem finish_takeMaskByte_of_left {rule : State × Byte → Except Raise State} (h : s.prrem ≠ 0) :
    finish w s (takeMaskByte s >>= rule) =
      finish w s (rule ({ s with prstate := (maskStep s s.prstate).1, prrem := s.prrem - 1 },
        (maskStep s s.prstate).2)) :=
  congrArg (finish w s) (bind_eq_of_ok (takeMaskByte_ok.2 ⟨h, rfl, rfl⟩))

theorem finish_takeMaskByte_of_exhausted {rule : State × Byte → Except Raise State} (h : s.prrem = 0) :
    finish w s (takeMaskByte s >>= rule) = .next (raised 11 0 w s) :=
  finish_of_error (bind_eq_of_error (takeMaskByte_error.2 ⟨h, rfl⟩))

theorem finish_byteOperand_of_le {rule : Byte → Except Raise State} (h : s.x[ra].toNat ≤ 255) :
    finish w s (byteOperand s ra >>= rule) = finish w s (rule (s.x[ra].setWidth 8)) :=
  congrArg (finish w s) (bind_eq_of_ok (byteOperand_of_le h))

theorem finish_byteOperand_of_gt {rule : Byte → Except Raise State} (h : 255 < s.x[ra].toNat) :
    finish w s (byteOperand s ra >>= rule) = .next (raised 10 s.x[ra] w s) :=
  finish_of_error (bind_eq_of_error (byteOperand_error.2 ⟨h, rfl⟩))

end

theorem byteWord_eq (b : Byte) : byteWord b = BitVec.ofNat 32 b.toNat :=
  (BitVec.ofNat_toNat ..).symm

/-- The XOR of a register that holds a byte with a byte, as a word. -/
theorem byteWord_xor {v : Word} (h : v.toNat ≤ 255) (b : Byte) :
    byteWord (v.setWidth 8 ^^^ b) = BitVec.ofNat 32 (v.toNat ^^^ b.toNat) := by
  rw [byteWord_eq, BitVec.toNat_xor, BitVec.toNat_setWidth, Nat.mod_eq_of_lt (Nat.lt_succ_of_le h)]

/-- Settles O47: the checks of each command, in order, are its clauses. -/
theorem maskByteCommandsTakeOneByte : Obligations.MaskByteCommandsTakeOneByte := by
  refine fun rd ra s => ⟨fun hleft => ?mnext, finish_takeMaskByte_of_exhausted, fun hv hleft => ?mxor,
    finish_byteOperand_of_gt, fun hv hnone => ?exhausted⟩
  case mnext =>
    rw [← byteWord_eq]
    exact finish_takeMaskByte_of_left hleft
  case mxor =>
    rw [← byteWord_xor hv]
    exact (finish_byteOperand_of_le hv).trans (finish_takeMaskByte_of_left hleft)
  case exhausted => exact (finish_byteOperand_of_le hv).trans (finish_takeMaskByte_of_exhausted hnone)

/-! ### MXORB (R165) -/

/-- What masking the block of a state answers: the generator's state after it, and the masked coefficients. -/
def maskedBlock (s : State) : MaskState × List Felt := maskAll (maskStep s) s.prstate (coefficients s)

section
variable {s : State}

theorem maskedBlock_length (hk : s.k ≤ 257) : (maskedBlock s).2.length = s.k :=
  (maskAll_length _ _ _).trans (coefficients_length hk)

theorem maskedBlock_state (hk : s.k ≤ 257) : (maskedBlock s).1 = streamState (maskStep s) s.prstate s.k := by
  rw [maskedBlock, maskAll_fst, coefficients_length hk]

/-- A coefficient of the block is the entry of the buffer (R19). -/
theorem coefficients_getElem {i : Nat} (h : i < (coefficients s).length) (hi : i < 257) :
    (coefficients s)[i] = s.cb[i] := by
  simp [coefficients]

/-- The block masked in the buffer, entry by entry. -/
theorem maskedBlock_getElem (hk : s.k ≤ 257) {i : Nat} (hi : i < 257) :
    (overwriteFirst (maskedBlock s).2 s.cb)[i] =
      if i < s.k then xorByte s.cb[i] (streamByte (maskStep s) s.prstate i) else s.cb[i] := by
  rw [overwriteFirst_getElem]
  by_cases hik : i < s.k
  · have hc : i < (coefficients s).length := by rwa [coefficients_length hk]
    rw [dif_pos (by rwa [maskedBlock_length hk]), if_pos hik, ← coefficients_getElem hc hi]
    exact maskAll_getElem _ _ _ i hc
  · rw [dif_neg (by rwa [maskedBlock_length hk]), if_neg hik]

/-- The first coefficient that is not a byte is the one reported (R165, R196). -/
theorem byteCoefficients_of_first_gt (i : Fin 257) (hi : i.val < s.k) (hbig : 255 < s.cb[i].val)
    (hfirst : ∀ j : Fin 257, j < i → s.cb[j].val ≤ 255) :
    byteCoefficients s = .error ⟨.byteRange, BitVec.ofNat 32 i.val⟩ := by
  have hlen : i.val < (coefficients s).length := by simp [coefficients, hi]
  refine byteCoefficients_error.2 ⟨i.val, List.findIdx?_eq_some_iff_getElem.2 ⟨hlen, ?_, fun j hj => ?_⟩, rfl⟩
  · simpa [coefficients] using hbig
  · simpa [coefficients] using hfirst ⟨j, hj.trans i.isLt⟩ hj

/-- MXORB up to the check of the stream: the block is set and all bytes. -/
theorem exec_mxorb_of_bytes (hk : s.k ≠ 0) (h : ∀ i : Fin 257, i.val < s.k → s.cb[i].val ≤ 255) :
    exec .mxorb s = finish (encode .mxorb) s
      (raiseIf (s.prrem.toNat < s.k) .maskExhausted s.prrem >>= fun _ => pure { s with
        cb := overwriteFirst (maskedBlock s).2 s.cb
        prstate := (maskedBlock s).1
        prrem := s.prrem - BitVec.ofNat 32 s.k }) :=
  (finish_needK_of_ne hk).trans (congrArg (finish _ s) (bind_eq_of_ok (byteCoefficients_of_le h)))

theorem exec_mxorb (hk : s.k ≠ 0) (h : ∀ i : Fin 257, i.val < s.k → s.cb[i].val ≤ 255)
    (hleft : s.k ≤ s.prrem.toNat) :
    exec .mxorb s = .next { s with
      cb := overwriteFirst (maskedBlock s).2 s.cb
      prstate := (maskedBlock s).1
      prrem := s.prrem - BitVec.ofNat 32 s.k
      cmdcnt := s.cmdcnt + 1 } :=
  (exec_mxorb_of_bytes hk h).trans (finish_raiseIf_of_not (not_lt.2 hleft))

end

/-- Settles O48: the three checks in order, and the masked block read entry by entry. -/
theorem mxorbMasksTheBlock : Obligations.MxorbMasksTheBlock := by
  refine fun s hle => ⟨fun hk hbytes hleft => ?masked, finish_needK_of_zero,
    fun i hi hbig hfirst => ?notByte, fun hk hbytes hnone => ?exhausted⟩
  case masked =>
    refine ⟨overwriteFirst (maskedBlock s).2 s.cb, ?_, fun i => ?_⟩
    · rw [exec_mxorb hk hbytes hleft, maskedBlock_state hle]
      rfl
    · rw [Fin.getElem_fin, maskedBlock_getElem hle i.isLt]
      split
      next hi => exact xorByte_val (hbytes i hi) _
      next hi => rfl
  case notByte =>
    have herr := byteCoefficients_of_first_gt i hi hbig hfirst
    exact (finish_needK_of_ne (Nat.ne_of_gt (Nat.zero_lt_of_lt hi))).trans
      (finish_of_error (bind_eq_of_error herr))
  case exhausted => exact (exec_mxorb_of_bytes hk hbytes).trans (finish_raiseIf_of hnone)

/-! ### Unmasking (R164, R165) -/

/-- A second replacement of the same entries hides the first. -/
theorem overwriteFirst_overwriteFirst {α : Type} {n : Nat} {vs ws : List α} (h : ws.length = vs.length)
    (buf : Vector α n) : overwriteFirst vs (overwriteFirst ws buf) = overwriteFirst vs buf := by
  ext i hi
  simp only [overwriteFirst_getElem, h]
  split <;> rfl

/-- The state in which a masked block is about to be masked again with the same stretch of the stream. -/
def rewound (s : State) : State :=
  { s with cb := overwriteFirst (maskedBlock s).2 s.cb, cmdcnt := s.cmdcnt + 1 }

section
variable {s : State}

theorem rewound_bytes (hk : s.k ≤ 257) (h : ∀ i : Fin 257, i.val < s.k → s.cb[i].val ≤ 255) (i : Fin 257)
    (hi : i.val < s.k) : (rewound s).cb[i].val ≤ 255 := by
  rw [rewound, Fin.getElem_fin, maskedBlock_getElem hk i.isLt, if_pos hi]
  exact xorByte_le (h i hi) _

theorem coefficients_rewound (hk : s.k ≤ 257) : coefficients (rewound s) = (maskedBlock s).2 :=
  take_overwriteFirst (maskedBlock_length hk) hk s.cb

/-- Masking again ends in the same state of the generator and answers the coefficients there were. -/
theorem maskedBlock_rewound (hk : s.k ≤ 257) (h : ∀ i : Fin 257, i.val < s.k → s.cb[i].val ≤ 255) :
    maskedBlock (rewound s) = ((maskedBlock s).1, coefficients s) := by
  have hbytes := (byteCoefficients_ok.1 (byteCoefficients_of_le h)).2
  rw [maskedBlock, coefficients_rewound hk]
  exact maskAll_maskAll _ _ hbytes

/-- The coefficients there were, back in the buffer. -/
theorem overwriteFirst_rewound (hk : s.k ≤ 257) : overwriteFirst (coefficients s) (rewound s).cb = s.cb := by
  have hlen := (maskedBlock_length hk).trans (coefficients_length hk).symm
  exact (overwriteFirst_overwriteFirst hlen s.cb).trans (overwriteFirst_take s.k s.cb)

end

/-- Settles O49: masking is an involution on the block, and nothing else of the state tells the two runs apart. -/
theorem unmaskingUndoesMasking : Obligations.UnmaskingUndoesMasking := by
  intro s t hpos hle hbytes hleft ht
  have hk : s.k ≠ 0 := Nat.ne_of_gt hpos
  obtain rfl := Host.Outcome.next.inj ((exec_mxorb hk hbytes hleft).symm.trans ht)
  have hagain := exec_mxorb (s := rewound s) hk (rewound_bytes hle hbytes) hleft
  rw [maskedBlock_rewound hle hbytes, overwriteFirst_rewound hle] at hagain
  exact hagain

end Sys2Proof.Proofs

/-!
SUPPORT. The buffer and the bit channel (R171, R174 to R180): the serializer bit by bit, then BCOPEN, EMBED and EXTRACT,
and the effect of the commands at `CURSOR`.
-/

namespace Sys2Proof.Proofs

open Sys2Proof Sys2Proof.Machine Sys2Proof.Safety

/-! ### BCOPEN (R171) -/

/-- Settles O50: the two checks of BCOPEN, in order, are its clauses. -/
theorem bcopenDeclaresTheBuffer : Obligations.BcopenDeclaresTheBuffer := by
  refine fun ra rb s => ⟨fun hlen hoff => ?opened, fun hlen => finish_raiseIf_of hlen, fun hlen hoff => ?offset⟩
  case opened => exact (finish_raiseIf_of_not (not_lt.2 hlen)).trans (finish_raiseIf_of_not (not_lt.2 hoff))
  case offset => exact (finish_raiseIf_of_not (not_lt.2 hlen)).trans (finish_raiseIf_of hoff)

/-! ### One bit in a byte (R174) -/

/-- A byte with a new lowest bit: its upper seven bits, and then the new one. -/
theorem embedBit_eq_concat (c : Byte) (bit : Bool) : embedBit c bit = (c.extractLsb' 1 7).concat bit := by
  cases bit <;> decide +revert

theorem embedBit_toNat (c : Byte) (bit : Bool) : (embedBit c bit).toNat = c.toNat / 2 * 2 + bit.toNat := by
  have hc := c.isLt
  rw [embedBit_eq_concat, BitVec.toNat_concat, BitVec.extractLsb'_toNat, Nat.shiftRight_eq_div_pow]
  omega

theorem embedBit_lowBit (c : Byte) (bit : Bool) : (embedBit c bit).getLsbD 0 = bit := by
  rw [embedBit_eq_concat, BitVec.getLsbD_concat_zero]

/-- A second bit in the same place hides the first. -/
@[simp] theorem embedBit_embedBit (c : Byte) (bit bit' : Bool) :
    embedBit (embedBit c bit) bit' = embedBit c bit' := by
  apply BitVec.eq_of_toNat_eq
  have hbit := bit.toNat_le
  simp only [embedBit_toNat]
  omega

/-- The bit a byte has already changes nothing. -/
theorem embedBit_own_lowBit (c : Byte) : embedBit c (c.getLsbD 0) = c := by
  apply BitVec.eq_of_toNat_eq
  rw [embedBit_toNat, BitVec.getLsbD, Nat.toNat_testBit]
  omega

/-- The upper seven bits of a byte are the byte with 0 for its lowest bit. -/
theorem and_upperBits (c : Byte) : c &&& 0xFE = embedBit c false :=
  BitVec.or_zero.symm

theorem embedBit_upperBits (c : Byte) (bit : Bool) : embedBit c bit &&& 0xFE = c &&& 0xFE := by
  rw [and_upperBits, and_upperBits, embedBit_embedBit]

/-! ### The serializer (R174, R175, R180) -/

/-- Bytes read from the last to the first: bit `j` of what is extracted is the lowest bit of the byte at `j`. -/
theorem getLsbD_foldr_lowBits (bytes : List Byte) (j : Nat) (hj : j < bytes.length) (hj8 : j < 8) :
    (bytes.foldr (fun b (acc : Byte) => acc <<< 1 ||| b &&& 1) 0).getLsbD j = bytes[j].getLsbD 0 := by
  induction bytes generalizing j with
  | nil => exact absurd hj (Nat.not_lt_zero j)
  | cons b rest ih =>
    cases j with
    | zero => simp
    | succ j =>
      have hj7 : j < 8 := Nat.lt_of_succ_lt hj8
      simpa [hj8, hj7] using ih j (Nat.lt_of_succ_lt_succ hj) hj7

/-- Bit `7 - i` of the byte extracted is the lowest bit of byte `i` (R175). -/
theorem extract8_getLsbD (cover : Vector Byte 8) (i : Nat) (hi : i < 8) :
    (extract8 cover).getLsbD (7 - i) = cover[i].getLsbD 0 := by
  have hj : 7 - i < cover.toList.reverse.length := by simp; omega
  have hbyte : cover.toList.reverse[7 - i] = cover[i] := by
    simp [List.getElem_reverse, show 7 - (7 - i) = i by omega]
  rw [extract8, List.foldl_eq_foldr_reverse, getLsbD_foldr_lowBits _ _ hj (by omega), hbyte]

theorem embed8_getElem (cover : Vector Byte 8) (v : Byte) (i : Nat) (hi : i < 8) :
    (embed8 cover v)[i] = embedBit cover[i] (v.getLsbD (7 - i)) := by
  simp [embed8]

theorem extract8_embed8 (cover : Vector Byte 8) (v : Byte) : extract8 (embed8 cover v) = v := by
  apply BitVec.eq_of_getLsbD_eq
  intro j hj
  obtain ⟨i, hi, rfl⟩ : ∃ i, i < 8 ∧ 7 - i = j := ⟨7 - j, by omega, by omega⟩
  rw [extract8_getLsbD _ i hi, embed8_getElem, embedBit_lowBit]

theorem embed8_embed8 (cover : Vector Byte 8) (v : Byte) : embed8 (embed8 cover v) v = embed8 cover v := by
  ext1 i hi
  simp only [embed8_getElem, embedBit_embedBit]

theorem embed8_extract8 (cover : Vector Byte 8) : embed8 cover (extract8 cover) = cover := by
  ext1 i hi
  rw [embed8_getElem, extract8_getLsbD _ i hi, embedBit_own_lowBit]

/-- A bit of a word, as a number. -/
theorem toNat_getLsbD {w : Nat} (v : BitVec w) (i : Nat) : (v.getLsbD i).toNat = v.toNat / 2 ^ i % 2 :=
  Nat.toNat_testBit ..

/-- A byte is the sum of its bits, most significant bit first. -/
theorem byte_toNat_eq_sum_bits (v : Byte) :
    v.toNat = ∑ i ∈ Finset.range 8, (v.getLsbD (7 - i)).toNat * 2 ^ (7 - i) := by
  have hv := v.isLt
  simp only [toNat_getLsbD, Finset.sum_range_succ, Finset.sum_range_zero]
  omega

/-- The byte extracted from cover memory is the sum R175 gives. -/
theorem extract8_eightBytes_toNat (s : State) (addr : Nat) :
    (extract8 (eightBytes s addr)).toNat =
      ∑ i ∈ Finset.range 8, (readByte s.cv (addr + i)).toNat % 2 * 2 ^ (7 - i) := by
  rw [byte_toNat_eq_sum_bits]
  refine Finset.sum_congr rfl fun i hi => ?_
  have hbyte : (eightBytes s addr)[i]'(Finset.mem_range.1 hi) = readByte s.cv (addr + i) := by
    simp [eightBytes]
  rw [extract8_getLsbD _ i (Finset.mem_range.1 hi), hbyte, toNat_getLsbD, pow_zero, Nat.div_one]

/-- The word EXTRACT and EXTRACTC write is the sum of the statements. -/
theorem extractedWord_eq_sum (s : State) (addr : Nat) :
    byteWord (extract8 (eightBytes s addr)) = BitVec.ofNat 32
      (∑ i ∈ Finset.range 8, (readByte s.cv (addr + i)).toNat % 2 * 2 ^ (7 - i)) := by
  rw [byteWord_eq, extract8_eightBytes_toNat]

/-- The eight bytes a byte was embedded in are those of the serializer (R176). -/
theorem eightBytes_embedAt (s : State) (addr : Nat) (v : Byte) :
    eightBytes (embedAt s addr v) addr = embed8 (eightBytes s addr) v := by
  ext1 i hi
  rw [embed8_getElem]
  simp [eightBytes, readByte_embedAt]

/-- Embedding keeps the upper seven bits of every byte of cover memory (R180). -/
theorem readByte_embedAt_upperBits (s : State) (addr : Nat) (v : Byte) (a : Nat) :
    readByte (embedAt s addr v).cv a &&& 0xFE = readByte s.cv a &&& 0xFE := by
  rw [readByte_embedAt]
  split
  · exact embedBit_upperBits ..
  · rfl

/-- What embedding a register that holds a byte does to each byte of cover memory, in the words of the statements. -/
theorem readByte_embedAt_toNat (s : State) (addr : Nat) {v : Word} (hv : v.toNat ≤ 255) (a : Nat) :
    (readByte (embedAt s addr (v.setWidth 8)).cv a).toNat = if addr ≤ a ∧ a < addr + 8
      then (readByte s.cv a).toNat / 2 * 2 + v.toNat / 2 ^ (7 - (a - addr)) % 2
      else (readByte s.cv a).toNat := by
  have hbyte : (v.setWidth 8).toNat = v.toNat := Nat.mod_eq_of_lt (Nat.lt_succ_of_le hv)
  rw [readByte_embedAt]
  split
  · rw [embedBit_toNat, toNat_getLsbD, hbyte]
  · rfl

/-! ### EMBED and EXTRACT (R176, R177) -/

section
variable {s : State} {rd ra rb : RegIdx}

/-- EMBED of a byte, with eight bytes from the offset below `BUFLEN` (R176). -/
theorem exec_embed (hv : s.x[rb].toNat ≤ 255) (h : s.x[ra].toNat + 8 ≤ s.buflen.toNat) :
    exec (.embed ra rb) s = .next (countCommand (embedAt s s.x[ra].toNat (s.x[rb].setWidth 8))) :=
  (finish_byteOperand_of_le hv).trans (finish_raiseIf_of_not (not_lt.2 h))

/-- EMBED checks the value first, then the room (R176). -/
theorem exec_embed_beyond (hv : s.x[rb].toNat ≤ 255) (h : s.buflen.toNat < s.x[ra].toNat + 8) :
    exec (.embed ra rb) s = .next (raised 5 s.x[ra] (encode (.embed ra rb)) s) :=
  (finish_byteOperand_of_le hv).trans (finish_raiseIf_of h)

/-- EXTRACT, with eight bytes from the offset below `BUFLEN` (R177). -/
theorem exec_extract (h : s.x[ra].toNat + 8 ≤ s.buflen.toNat) :
    exec (.extract rd ra) s =
      .next (countCommand (writeX s rd (byteWord (extract8 (eightBytes s s.x[ra].toNat))))) :=
  finish_raiseIf_of_not (not_lt.2 h)

end

/-- Settles O54: the checks in order, the bytes of `readByte_embedAt_toNat` and the sum of `extractedWord_eq_sum`. -/
theorem embedWritesAndExtractReadsEightBytes : Obligations.EmbedWritesAndExtractReadsEightBytes := by
  refine fun rd ra rb s => ⟨fun hv h => ⟨_, exec_embed hv h, readByte_embedAt_toNat s _ hv⟩,
    finish_byteOperand_of_gt, exec_embed_beyond, fun h => ?extract, fun h => finish_raiseIf_of h⟩
  case extract =>
    rw [← extractedWord_eq_sum]
    exact exec_extract h

/-- Settles O55: `exec_embedc` and `exec_extractc` with the bytes and the sum of EMBED and EXTRACT. -/
theorem cursorFormsAdvanceByEight : Obligations.CursorFormsAdvanceByEight := by
  refine fun rd ra s => ⟨fun hv h => ⟨_, exec_embedc hv h, readByte_embedAt_toNat s _ hv⟩,
    exec_embedc_of_not_byte, exec_embedc_beyond, fun h => ?extract, exec_extractc_beyond⟩
  case extract =>
    rw [← extractedWord_eq_sum]
    exact exec_extractc h

/-! ### The round trip (R180) -/

/-- A register that holds a byte is the word of that byte. -/
theorem byteWord_setWidth {v : Word} (h : v.toNat ≤ 255) : byteWord (v.setWidth 8) = v := by
  rw [byteWord_eq, BitVec.toNat_setWidth, Nat.mod_eq_of_lt (Nat.lt_succ_of_le h), BitVec.ofNat_toNat,
    BitVec.setWidth_eq]

/-- EXTRACT at the offset of an EMBED that completed writes the value embedded. -/
theorem exec_extract_embedAt (s : State) (rd ra : RegIdx) {v : Word} (hv : v.toNat ≤ 255)
    (h : s.x[ra].toNat + 8 ≤ s.buflen.toNat) :
    exec (.extract rd ra) (countCommand (embedAt s s.x[ra].toNat (v.setWidth 8))) =
      .next (countCommand (writeX (countCommand (embedAt s s.x[ra].toNat (v.setWidth 8))) rd v)) := by
  have hread : byteWord (extract8 (eightBytes (embedAt s s.x[ra].toNat (v.setWidth 8)) s.x[ra].toNat)) = v := by
    rw [eightBytes_embedAt, extract8_embed8, byteWord_setWidth hv]
  refine (exec_extract (s := countCommand (embedAt s s.x[ra].toNat (v.setWidth 8))) h).trans ?_
  exact congrArg (fun u => Host.Outcome.next (countCommand (writeX (countCommand _) rd u))) hread

/-- Settles O56: the commands by `exec_extract_embedAt`, the serializer byte by byte. -/
theorem embedThenExtractReturnsTheValue : Obligations.EmbedThenExtractReturnsTheValue := by
  refine ⟨fun rd ra rb s hv h => ?commands, fun cover v => ?serializer⟩
  case commands =>
    refine ⟨_, exec_embed hv h, readByte_embedAt_upperBits s _ _, (exec_extract_embedAt s rd ra hv h).trans ?_⟩
    have hcount : s.cmdcnt + 1 + 1 = s.cmdcnt + 2 := BitVec.add_assoc ..
    rw [← hcount]
    rfl
  case serializer =>
    refine ⟨extract8_embed8 cover v, embed8_embed8 cover v, embed8_extract8 cover, fun i => ?_⟩
    have hbit := (v.getLsbD (7 - i.val)).toNat_le
    rw [Fin.getElem_fin, Fin.getElem_fin, embed8_getElem, embedBit_toNat]
    exact ⟨embedBit_upperBits .., by omega, by omega⟩

end Sys2Proof.Proofs

/-!
SUPPORT. The polynomial evaluator (R190 to R197): CSET, CGET and EGET, their indices in range or refused, the value
PEVAL writes, and PSHARE as a number of decrements of the block.
-/

namespace Sys2Proof.Proofs

open Sys2Proof Sys2Proof.Machine Sys2Proof.Safety

/-! ### CSET, CGET and EGET (R191, R192, R197) -/

section
variable {s : State} {ra rb : RegIdx} {w : Word}

theorem finish_bufferIndex_of_eq {rule : Fin Config.bufSize → Except Raise State} {i : Fin Config.bufSize}
    (h : s.x[ra].toNat = i.val) : finish w s (bufferIndex s ra >>= rule) = finish w s (rule i) :=
  congrArg (finish w s) (bind_eq_of_ok (bufferIndex_ok.2 h))

/-- The index of an evaluation counts from 1 (R197). -/
theorem finish_evalIndex_of_eq {rule : Fin Config.evSize → Except Raise State} {i : Fin Config.evSize}
    (h : s.x[ra].toNat = i.val + 1) : finish w s (evalIndex s ra >>= rule) = finish w s (rule i) :=
  congrArg (finish w s) (bind_eq_of_ok (evalIndex_ok.2 h))

theorem finish_evalIndex_of_out_of_range {rule : Fin Config.evSize → Except Raise State}
    (h : s.x[ra].toNat = 0 ∨ 256 < s.x[ra].toNat) :
    finish w s (evalIndex s ra >>= rule) = .next (raised 8 s.x[ra] w s) :=
  finish_of_error (bind_eq_of_error (evalIndex_error.2 ⟨h, rfl⟩))

theorem exec_cset (hi : s.x[ra].toNat < 257) (hv : s.x[rb].toNat < 257) :
    exec (.cset ra rb) s =
      .next (countCommand { s with cb := s.cb.set s.x[ra].toNat (feltOf s.x[rb].toNat) hi }) :=
  (finish_bufferIndex_of_lt hi).trans (finish_fieldOperand_of_lt _ _ hv)

theorem exec_cget (rd : RegIdx) {i : Fin 257} (hi : s.x[ra].toNat = i.val) :
    exec (.cget rd ra) s = .next (countCommand (writeX s rd (feltWord s.cb[i]))) :=
  finish_bufferIndex_of_eq hi

theorem exec_eget (rd : RegIdx) {i : Fin 256} (hi : s.x[ra].toNat = i.val + 1) :
    exec (.eget rd ra) s = .next (countCommand (writeX s rd (byteWord s.ev[i]))) :=
  finish_evalIndex_of_eq hi

end

/-- Settles O58: the operands of each command one after the other, each in range or refused. -/
theorem bufferEntriesAreWrittenAndRead : Obligations.BufferEntriesAreWrittenAndRead := by
  intro rd ra rb s
  refine ⟨fun hi hv => ⟨_, exec_cset hi hv, fun i => ?entry⟩, finish_bufferIndex_of_ge, fun hi hv => ?value,
    fun i hi => exec_cget rd hi.symm, finish_bufferIndex_of_ge, fun i hi => ?eget, finish_evalIndex_of_out_of_range⟩
  case entry => simp only [Fin.getElem_fin, Vector.getElem_set, eq_comm]
  case value => exact (finish_bufferIndex_of_lt hi).trans (finish_fieldOperand_of_ge _ _ hv)
  case eget =>
    rw [← byteWord_eq]
    exact exec_eget rd hi

/-! ### PEVAL (R194) -/

/-- The value of a polynomial at a number below 257 (R190). -/
theorem polyValue_of_lt (c : List Felt) {x : Nat} (hx : x < 257) : polyValue c x = (peval c (feltOf x)).val := by
  rw [← polyValue_eq_peval, feltOf_val, Nat.mod_eq_of_lt hx]

theorem exec_peval {s : State} {ra : RegIdx} (rd : RegIdx) (hk : s.k ≠ 0) (hx : s.x[ra].toNat < 257) :
    exec (.peval rd ra) s =
      .next (countCommand (writeX s rd (feltWord (peval (coefficients s) (feltOf s.x[ra].toNat))))) :=
  (finish_needK_of_ne hk).trans (finish_fieldOperand_of_lt _ _ hx)

/-- Settles O59: the two checks in order, and Horner's rule as the sum of `polyValue_of_lt`. -/
theorem pevalEvaluatesThePolynomial : Obligations.PevalEvaluatesThePolynomial := by
  refine fun rd ra s _ => ⟨fun hk hx => ?value, finish_needK_of_zero, fun hk hx => ?refused⟩
  case value =>
    rw [polyValue_of_lt _ hx]
    exact exec_peval rd hk hx
  case refused => exact (finish_needK_of_ne hk).trans (finish_fieldOperand_of_ge _ _ hx)

/-! ### PSHARE (R196) -/

/-- Zeros in front of the first non-zero coefficient stay, and so do the coefficients after it (R196). -/
theorem decrementFirst_append (zeros rest : List Felt) {v : Felt} (hzeros : ∀ z ∈ zeros, z = 0) (hv : v ≠ 0) :
    decrementFirst (zeros ++ v :: rest) = zeros ++ feltOf (v.val - 1) :: rest := by
  induction zeros with
  | nil => exact if_neg hv
  | cons z zeros ih =>
    obtain ⟨hz, htail⟩ := List.forall_mem_cons.1 hzeros
    rw [List.cons_append, decrementFirst, if_pos hz, ih htail, List.cons_append]

/-- A non-zero coefficient is lowered as an integer; it does not wrap (R196). -/
theorem feltOf_pred_succ {v : Felt} (hv : v ≠ 0) : (feltOf (v.val - 1)).val + 1 = v.val := by
  have hpos : 0 < v.val := Nat.pos_of_ne_zero (Fin.val_ne_zero_iff.2 hv)
  have hlt := v.isLt
  rw [feltOf_val, Nat.mod_eq_of_lt (by omega)]
  omega

/-- A list of bytes sums to at most 255 for each. -/
theorem coefficientSum_le {c : List Felt} (h : ∀ v ∈ c, v.val ≤ 255) : coefficientSum c ≤ 255 * c.length := by
  have hsum := List.sum_le_card_nsmul (c.map (·.val)) 255 (List.forall_mem_map.2 h)
  rwa [List.length_map, smul_eq_mul, mul_comm] at hsum

/-- An evaluation that is 256 is a value of the polynomial at one of `x = 1 .. n` (R196). -/
theorem exists_polyValue_of_mem_evaluations {c : List Felt} {n : Nat} (hn : n ≤ 256) (h : 256 ∈ evaluations c n) :
    ∃ x, 1 ≤ x ∧ x ≤ n ∧ polyValue c x = 256 := by
  obtain ⟨x, hlow, hhigh, hx⟩ := mem_evaluations.1 h
  refine ⟨x, hlow, by omega, ?_⟩
  rw [polyValue_of_lt c (by omega), hx]
  rfl

section
variable {s : State}

/-- What the rule does to a block of bytes: as many decrements as it counts, at most 255 for each coefficient, each made
because an evaluation was 256 (R196). -/
theorem correctedBlock_spec (hk : s.k ≤ 257) (h : ∀ i : Fin 257, i.val < s.k → s.cb[i].val ≤ 255) :
    (correctedBlock s).2 ≤ 255 * s.k ∧
      (correctedBlock s).1 = decrementFirst^[(correctedBlock s).2] (coefficients s) ∧
      ∀ p, p < (correctedBlock s).2 → 256 ∈ evaluations (decrementFirst^[p] (coefficients s)) s.n := by
  have hsum := coefficientSum_le (byteCoefficients_ok.1 (byteCoefficients_of_le h)).2
  rw [coefficients_length hk] at hsum
  obtain ⟨passes, hle, hblock, hoverflow, -⟩ :=
    correctOverflow_spec s.n (coefficientSum (coefficients s)) (coefficients s) 0
  rw [Nat.zero_add] at hblock
  rw [correctedBlock, hblock]
  exact ⟨hle.trans hsum, rfl, hoverflow⟩

/-- The first coefficient that is not a byte is refused (R196). -/
theorem exec_pshare_of_first_gt (hn : s.n ≠ 0) (i : Fin 257) (hi : i.val < s.k) (hbig : 255 < s.cb[i].val)
    (hfirst : ∀ j : Fin 257, j < i → s.cb[j].val ≤ 255) :
    exec .pshare s = .next (raised 10 (BitVec.ofNat 32 i.val) (encode .pshare) s) :=
  (finish_raiseIf_of_not hn).trans <|
    finish_of_error (bind_eq_of_error (byteCoefficients_of_first_gt i hi hbig hfirst))

end

/-- Settles O60: the decrements of `correctedBlock_spec`, and the buffers read entry by entry. -/
theorem pshareAvoidsOverflow : Obligations.PshareAvoidsOverflow := by
  refine ⟨fun zeros rest v hzeros hv => ?decrement, fun s hk hn256 => ⟨fun hn hbytes => ?corrected,
    fun hn => finish_raiseIf_of hn, exec_pshare_of_first_gt⟩⟩
  case decrement => exact ⟨_, decrementFirst_append zeros rest hzeros hv, feltOf_pred_succ hv⟩
  case corrected =>
    obtain ⟨hbound, hblock, hoverflow⟩ := correctedBlock_spec hk hbytes
    have hlen := correctedBlock_length hk
    have htake : (overwriteFirst (correctedBlock s).1 s.cb).toList.take s.k = (correctedBlock s).1 :=
      take_overwriteFirst hlen hk s.cb
    refine ⟨(correctedBlock s).2, _, _, hbound, exec_pshare hn hbytes,
      fun p hp => exists_polyValue_of_mem_evaluations hn256 (hoverflow p hp), htake.trans hblock,
      fun i hi => ?coefficient, fun i hi => ?evaluation, fun i hi => ?kept⟩
    case coefficient => exact (overwriteFirst_getElem _ _ _ i.isLt).trans (dif_neg (by omega))
    case evaluation =>
      rw [htake, polyValue_of_lt _ (by omega)]
      exact toNat_ev_pshare hi i.isLt
    case kept => exact (overwriteFirst_getElem _ _ _ i.isLt).trans (dif_neg (by simpa using hi))

end Sys2Proof.Proofs

/-!
SUPPORT. The words that FAULTED drops (60_exceptions.md).
-/

namespace Sys2Proof.Proofs

open Sys2Proof Sys2Proof.Machine

/-! ### The dropped words (R242) -/

/-- In FAULTED a word is executed only as a command the filter lets through; any other, legal or illegal, changes
nothing (R242). -/
theorem executeWord_of_dropped {w : Word} {s : State} (hf : s.faulted = true)
    (hdrop : ∀ i, decode w = .ok i → passesFilter i ≠ true) : executeWord w s = .next s := by
  obtain ⟨-, hdropped⟩ | ⟨i, hdecode, hpass, -⟩ | ⟨-, hready, -⟩ := executeWord_cases (w := w) (s := s) rfl
  · exact hdropped
  · exact absurd (hpass hf) (hdrop i hdecode)
  · simp [hf] at hready

/-- Settles O6: a word that is none of the five commands the filter lets through is dropped. -/
theorem faultedDropsOtherWords : Obligations.FaultedDropsOtherWords := by
  intro s w rest hinput hf hother
  rw [step_of_command hinput]
  refine executeWord_of_dropped hf fun i hdecode hpass => ?_
  obtain ⟨hnop, hcsrr, hout, herrack, hsrst⟩ := hother i hdecode
  obtain h | ⟨rd, csr, h⟩ | ⟨ra, h⟩ | h | h := passesFilter_iff.1 hpass
  · exact hnop h
  · exact hcsrr rd csr h
  · exact hout ra h
  · exact herrack h
  · exact hsrst h

end Sys2Proof.Proofs
